-- ==== Sys2Proof/Word.lean ====
section
/-!
DEFINITION. Words, cores, channels and the small enumerations the whole model is written in.
The notation is that of 00_scope.md R24: u32 is `Word`, u64 is `Time`, and arithmetic on them wraps.
-/
namespace Sys2Proof

/-- One byte of a core's bus space. -/
abbrev Byte := BitVec 8
/-- u32 of R24: registers, addresses, counts (R8). -/
abbrev Word := BitVec 32
/-- u64 of R23: timestamps. -/
abbrev Time := BitVec 64

/-- A CPU core, and with it a channel set (R3). -/
inductive CoreId
  | core0
  | core1
  deriving DecidableEq, Repr, Inhabited

/-- A channel of a set (R3); `ch0` has the highest priority (R50). -/
inductive ChanId
  | ch0
  | ch1
  | ch2
  | ch3
  deriving DecidableEq, Repr, Inhabited

/-- The core's number c. -/
def CoreId.toNat : CoreId → Nat
  | .core0 => 0
  | .core1 => 1

/-- The channel's number n. -/
def ChanId.toNat : ChanId → Nat
  | .ch0 => 0
  | .ch1 => 1
  | .ch2 => 2
  | .ch3 => 3

/-- `m` has a lower priority than `n`, that is, m > n (R50). -/
def ChanId.below (m n : ChanId) : Bool := decide (n.toNat < m.toNat)

/-- The channels of a set in priority order (R50, R113). -/
def allChans : List ChanId := [.ch0, .ch1, .ch2, .ch3]

/-- The two cores in the order SAVE and RESET visit them (R361, R440). -/
def allCores : List CoreId := [.core0, .core1]

/-- One value per core. -/
structure PerCore (α : Type) where
  core0 : α
  core1 : α
  deriving DecidableEq, Repr, Inhabited

/-- One value per channel of a set. -/
structure PerChan (α : Type) where
  ch0 : α
  ch1 : α
  ch2 : α
  ch3 : α
  deriving DecidableEq, Repr, Inhabited

def PerCore.get {α : Type} (p : PerCore α) : CoreId → α
  | .core0 => p.core0
  | .core1 => p.core1

def PerCore.set {α : Type} (p : PerCore α) (c : CoreId) (a : α) : PerCore α :=
  match c with
  | .core0 => { p with core0 := a }
  | .core1 => { p with core1 := a }

def PerChan.get {α : Type} (p : PerChan α) : ChanId → α
  | .ch0 => p.ch0
  | .ch1 => p.ch1
  | .ch2 => p.ch2
  | .ch3 => p.ch3

def PerChan.set {α : Type} (p : PerChan α) (n : ChanId) (a : α) : PerChan α :=
  match n with
  | .ch0 => { p with ch0 := a }
  | .ch1 => { p with ch1 := a }
  | .ch2 => { p with ch2 := a }
  | .ch3 => { p with ch3 := a }

/-- Every channel's value replaced by a function of its number and its old value. -/
def PerChan.mapIdx {α β : Type} (p : PerChan α) (f : ChanId → α → β) : PerChan β :=
  ⟨f .ch0 p.ch0, f .ch1 p.ch1, f .ch2 p.ch2, f .ch3 p.ch3⟩

/-- The width of a transfer unit (R106): 16 or 32 bits, no other. -/
inductive UnitWidth
  | w16
  | w32
  deriving DecidableEq, Repr, Inhabited

/-- The unit's size in bits. -/
def UnitWidth.bits : UnitWidth → Nat
  | .w16 => 16
  | .w32 => 32

/-- `bytes(w)` of R27. -/
def UnitWidth.bytes : UnitWidth → Nat
  | .w16 => 2
  | .w32 => 4

/-- An address increment in units (R36): -1, 0 or +1. -/
inductive Inc
  | down
  | fixed
  | up
  deriving DecidableEq, Repr, Inhabited

/-- The burst-position marker `running` (R40), under the source's own names. -/
inductive Marker
  | idle
  | continuing
  | interrupted
  | justStarted
  deriving DecidableEq, Repr, Inhabited

/-- The marker's number 0..3 (R40). -/
def Marker.toNat : Marker → Nat
  | .idle => 0
  | .continuing => 1
  | .interrupted => 2
  | .justStarted => 3

/-- `StartEvent` (R154). -/
inductive StartEvent
  | immediate
  | vblank
  | hblank
  | displayStart
  | mainMemDisplay
  | cart
  | gbaSlot
  | gxFifo
  | wifiGba
  deriving DecidableEq, Repr, Inhabited

/-- The event's 4-bit code (R154). -/
def StartEvent.code : StartEvent → Nat
  | .immediate => 0
  | .vblank => 1
  | .hblank => 2
  | .displayStart => 3
  | .mainMemDisplay => 4
  | .cart => 5
  | .gbaSlot => 6
  | .gxFifo => 7
  | .wifiGba => 8

/-- The two control-word layouts (R9, R141). -/
inductive Variant
  | narrow
  | wide
  deriving DecidableEq, Repr, Inhabited

/-- A software-visible register of a channel (R30, R140). -/
inductive Reg
  | sad
  | dad
  | cnt
  deriving DecidableEq, Repr, Inhabited

end Sys2Proof
end

