-- ==== Sys2Proof/Config.lean ====
section
/-!
DEFINITION. The implementation parameters of 00_scope.md R7 to R23 as plain data, their values after
reset, and the free values. A parameter the spec leaves OPEN without a default is an opaque constant
(notes/assumptions/1.md); what the bus does where the spec lets it do anything is an opaque function
of a counter (notes/assumptions/7.md and 8.md).
-/
namespace Sys2Proof

/-- A run of equal entries of a table: the indices `lo` to `hi`, both included, hold `value`. -/
structure TableRow (α : Type) where
  lo : Nat
  hi : Nat
  value : α
  deriving DecidableEq, Repr, Inhabited

/-- A read-only table over indices (R102): the first row that covers an index gives its entry,
and `other` is the entry of every index no row covers. -/
structure Table (α : Type) where
  rows : List (TableRow α)
  other : α
  deriving DecidableEq, Repr, Inhabited

/-- One entry of COST_TABLE (R14): the non-sequential and sequential cycle costs (N, S) of a 16-bit
and of a 32-bit access. -/
structure AccessCosts where
  n16 : Word
  s16 : Word
  n32 : Word
  s32 : Word
  deriving DecidableEq, Repr, Inhabited

/-- What depends on SYSTEM (R13, R14, R16). Region ids are plain numbers. `system` only names the
console model whose tables these are. -/
structure SystemTables where
  system : Nat
  regionTable : PerCore (Table Nat)
  costTable : PerCore (Table AccessCosts)
  mainRamRegion : PerCore Nat
  deriving DecidableEq, Repr, Inhabited

/-- The parameters of R9 to R22. The ranges the spec gives are in the types: a count mask is a
contiguous mask of at most 21 low bits (R10, R141, R142), given by its number of ones; REGION_SHIFT
is 0..31 (R12); COST_SHIFT is 0..3 (R21); DMA_REG_BASE is word aligned (R22, notes/assumptions/10.md).
`bankTable` lists BANK_OF where it is not the identity (R15). -/
structure Config where
  variant : PerCore Variant
  countBits : PerCore (PerChan (Fin 22))
  regionShift : PerCore (Fin 32)
  tables : SystemTables
  bankTable : List (Nat × Nat)
  gxFifoCore : CoreId
  gxFifoSrcPage : BitVec 8
  gxFifoDstAddr : Word
  queueModes : List StartEvent
  unimplementedModes : List StartEvent
  burstPosBias : Int
  costShift : PerCore (Fin 4)
  regBaseIndex : BitVec 30
  deriving DecidableEq, Repr, Inhabited

/-- FIFO_SLICE_CAP (R11), fixed by the source. -/
def fifoSliceCap : Word := 112

/-- The tables of the console in use (R13, R14, R16): OPEN, no default, no content in the spec. -/
opaque Config.systemTables : SystemTables

/-- The defaults the spec gives for the parameters (R9, R10, R12, R15, R17 to R22). -/
def Config.default : Config where
  variant := ⟨.narrow, .wide⟩
  countBits := ⟨⟨14, 14, 14, 16⟩, ⟨21, 21, 21, 21⟩⟩
  regionShift := ⟨15, 14⟩
  tables := Config.systemTables
  bankTable := []
  gxFifoCore := .core1
  gxFifoSrcPage := 0x02
  gxFifoDstAddr := 0x04000400
  queueModes := [.vblank, .hblank, .displayStart, .mainMemDisplay]
  unimplementedModes := [.gbaSlot, .wifiGba]
  burstPosBias := 0
  costShift := ⟨0, 0⟩
  regBaseIndex := 0x0100002C

/-- What a misaligned bus write does (I9: any value): the bytes it leaves in the writing core's memory
and, where it overlaps the register window, the register writes (address, byte enables, lane data) the
bus makes of it. -/
structure OpenWrite where
  cells : List (Nat × Byte)
  regWrites : List (Word × BitVec 4 × Word)
  deriving DecidableEq, Repr, Inhabited

/-- Free value: the word the `k`-th bus access reads where the spec lets the bus answer anything
(a misaligned unit, I9; a unit that reads the register window). -/
opaque Config.openRead : Nat → Word

/-- Free value: what the `k`-th bus access writes where the spec lets the bus do anything (I9). -/
opaque Config.openWrite : Nat → OpenWrite

end Sys2Proof
end

