-- ==== Sys2Proof/Syntax.lean ====
section
/-!
DEFINITION. The instructions: one constructor per row of spec/opcode_table.json, and the inputs the
block's collaborators give it (44_host_ports.md R368).
-/
namespace Sys2Proof

/-- The block's interface operations (R170, R171) and the control-word rows of the opcode table.
A command's operands are the fields its header gives it. A control-word row's operands are the channel
(c, n) whose control register is written and the control word `w` written to it, in which the row's
own bits carry the row's code (notes/assumptions/3.md). -/
inductive Instr
  /-- WR SAD (R201). -/
  | wrSad (c : CoreId) (n : ChanId) (be : BitVec 4) (d : Word)
  /-- WR DAD (R202). -/
  | wrDad (c : CoreId) (n : ChanId) (be : BitVec 4) (d : Word)
  /-- WR CNT (R203). -/
  | wrCnt (c : CoreId) (n : ChanId) (be : BitVec 4) (d : Word)
  /-- RD SAD (R213). -/
  | rdSad (c : CoreId) (n : ChanId)
  /-- RD DAD (R213). -/
  | rdDad (c : CoreId) (n : ChanId)
  /-- RD CNT (R213). -/
  | rdCnt (c : CoreId) (n : ChanId)
  /-- TRIG (R230). -/
  | trig (c : CoreId) (ev : StartEvent)
  /-- TICK (R300). -/
  | tick (c : CoreId)
  /-- MRAM_DONE (R322). -/
  | mramDone (c : CoreId)
  /-- XSTALL (R324). -/
  | xstall (c : CoreId) (n : ChanId)
  /-- RESET (R440). -/
  | resetBlock
  /-- SAVE (R361). -/
  | save
  /-- RESTORE of a state vector (R365). -/
  | restore (vec : List Word)
  /-- Row CNT.start=IMMEDIATE of format CNT-WIDE (R155). -/
  | cntStartImmediateWide (c : CoreId) (n : ChanId) (w : Word)
  /-- Row CNT.start=VBLANK of format CNT-WIDE (R155). -/
  | cntStartVblankWide (c : CoreId) (n : ChanId) (w : Word)
  /-- Row CNT.start=HBLANK of format CNT-WIDE (R155). -/
  | cntStartHblankWide (c : CoreId) (n : ChanId) (w : Word)
  /-- Row CNT.start=DISPLAY_START of format CNT-WIDE (R155). -/
  | cntStartDisplayStartWide (c : CoreId) (n : ChanId) (w : Word)
  /-- Row CNT.start=MAIN_MEM_DISPLAY of format CNT-WIDE (R155). -/
  | cntStartMainMemDisplayWide (c : CoreId) (n : ChanId) (w : Word)
  /-- Row CNT.start=CART of format CNT-WIDE (R155). -/
  | cntStartCartWide (c : CoreId) (n : ChanId) (w : Word)
  /-- Row CNT.start=GBA_SLOT of format CNT-WIDE (R155). -/
  | cntStartGbaSlotWide (c : CoreId) (n : ChanId) (w : Word)
  /-- Row CNT.start=GX_FIFO of format CNT-WIDE (R155). -/
  | cntStartGxFifoWide (c : CoreId) (n : ChanId) (w : Word)
  /-- Row CNT.start=IMMEDIATE of format CNT-NARROW (R156). -/
  | cntStartImmediateNarrow (c : CoreId) (n : ChanId) (w : Word)
  /-- Row CNT.start=VBLANK of format CNT-NARROW (R156). -/
  | cntStartVblankNarrow (c : CoreId) (n : ChanId) (w : Word)
  /-- Row CNT.start=CART of format CNT-NARROW (R156). -/
  | cntStartCartNarrow (c : CoreId) (n : ChanId) (w : Word)
  /-- Row CNT.start=WIFI_GBA of format CNT-NARROW (R156). -/
  | cntStartWifiGbaNarrow (c : CoreId) (n : ChanId) (w : Word)
  /-- Row CNT.dst=INCREMENT of format CNT (R151). -/
  | cntDstIncrement (c : CoreId) (n : ChanId) (w : Word)
  /-- Row CNT.dst=DECREMENT of format CNT (R151). -/
  | cntDstDecrement (c : CoreId) (n : ChanId) (w : Word)
  /-- Row CNT.dst=FIXED of format CNT (R151). -/
  | cntDstFixed (c : CoreId) (n : ChanId) (w : Word)
  /-- Row CNT.dst=INCREMENT_RELOAD of format CNT (R151). -/
  | cntDstIncrementReload (c : CoreId) (n : ChanId) (w : Word)
  /-- Row CNT.src=INCREMENT of format CNT (R152). -/
  | cntSrcIncrement (c : CoreId) (n : ChanId) (w : Word)
  /-- Row CNT.src=DECREMENT of format CNT (R152). -/
  | cntSrcDecrement (c : CoreId) (n : ChanId) (w : Word)
  /-- Row CNT.src=FIXED of format CNT (R152). -/
  | cntSrcFixed (c : CoreId) (n : ChanId) (w : Word)
  /-- Row CNT.src=RESERVED_AS_INCREMENT of format CNT (R152). -/
  | cntSrcReservedAsIncrement (c : CoreId) (n : ChanId) (w : Word)
  /-- Row CNT.width=16 of format CNT (R146). -/
  | cntWidth16 (c : CoreId) (n : ChanId) (w : Word)
  /-- Row CNT.width=32 of format CNT (R146). -/
  | cntWidth32 (c : CoreId) (n : ChanId) (w : Word)
  /-- Row CNT.repeat of format CNT (R145). -/
  | cntRepeat (c : CoreId) (n : ChanId) (w : Word)
  /-- Row CNT.irq_en of format CNT (R320). -/
  | cntIrqEn (c : CoreId) (n : ChanId) (w : Word)
  /-- Row CNT.enable of format CNT (R204). -/
  | cntEnable (c : CoreId) (n : ChanId) (w : Word)
  /-- Row CNT.count of format CNT (R157). -/
  | cntCount (c : CoreId) (n : ChanId) (w : Word)
  deriving DecidableEq, Repr

/-- The field of the control word (R141) a control-word row speaks of. -/
inductive CntField
  | start
  | dst
  | src
  | width
  | repeatFlag
  | irqEn
  | enable
  | count
  deriving DecidableEq, Repr

/-- One input of the block, or of its environment (R174, R368). -/
inductive Input
  /-- A command as it is issued: its header and the words that follow it (R170). -/
  | command (words : List Word)
  /-- A write that reached core `c`'s I/O space at the word of `addr`, with byte enables and lane data
  (R101, R140, R203, R456). -/
  | busWrite (c : CoreId) (addr : Word) (be : BitVec 4) (data : Word)
  /-- A read that reached core `c`'s I/O space at the word of `addr` (R101, R140, R213). -/
  | busRead (c : CoreId) (addr : Word)
  /-- A control word for channel (c, n), presented under the table row of one of its fields
  (notes/assumptions/3.md). -/
  | control (c : CoreId) (n : ChanId) (field : CntField) (w : Word)
  /-- The harness directive `.ts` (R174): the host sets core `c`'s timestamp (R56). -/
  | setTs (c : CoreId) (v : Time)
  /-- The harness directive `.target` (R174): the host sets core `c`'s budget (R56). -/
  | setTarget (c : CoreId) (v : Time)
  /-- The harness directive `.mem` (R174): a collaborator writes core `c`'s bus memory. -/
  | setMem (c : CoreId) (addr : Word) (width : UnitWidth) (v : Word)
  deriving DecidableEq, Repr

end Sys2Proof
end

