-- ==== Sys2Proof/Machine/State.lean ====
section
/-!
DEFINITION. The machine's state as plain data (10_state.md), its outputs, and the state after reset.
-/
namespace Sys2Proof.Machine

/-- One channel (c, n): R31 to R45. -/
structure Channel where
  /-- SAD (R31). -/
  srcAddr : Word
  /-- DAD (R32). -/
  dstAddr : Word
  /-- CNT (R33). -/
  controlWord : Word
  /-- The latched start event (R35). -/
  startMode : StartEvent
  /-- The latched source increment (R36). -/
  srcInc : Inc
  /-- The latched destination increment (R36). -/
  dstInc : Inc
  /-- The working source address (R37). -/
  curSrcAddr : Word
  /-- The working destination address (R37). -/
  curDstAddr : Word
  /-- Units left in the whole transfer (R38). -/
  remainingCount : Word
  /-- Units left in the slice (R39). -/
  iterationCount : Word
  /-- The burst-position marker (R40). -/
  running : Marker
  /-- A transfer has begun and is not complete (R41). -/
  inProgress : Bool
  /-- A re-trigger waits for the completion (R42). -/
  queued : Bool
  /-- The transfer feeds the 3D command FIFO; an output (R43). -/
  isGpuFifoTransfer : Bool
  /-- The external stall (R44). -/
  extStall : Bool
  /-- The identity's core (R45). -/
  cpuCore : CoreId
  /-- The identity's channel (R45). -/
  channelNumber : ChanId
  deriving DecidableEq, Repr, Inhabited

/-- One entry of the share table (R60). -/
structure ShareEntry where
  valid : Bool
  owner : ChanId
  deriving DecidableEq, Repr, Inhabited

/-- The main-RAM access tracking slot (R62). -/
structure Slot where
  busy : Bool
  width : UnitWidth
  channel : ChanId
  deriving DecidableEq, Repr, Inhabited

/-- The channel set of one core (R50 to R52, R60, R62). `share` lists the entries of the banks that do
not read as after reset, in one canonical form (Machine/Ops.lean, `storeWf`). -/
structure ChannelSet where
  chans : PerChan Channel
  executing : Option ChanId
  stallBits : BitVec 4
  share : List (Nat × ShareEntry)
  slot : Slot
  deriving DecidableEq, Repr, Inhabited

/-- The error kinds a log record names (R401, R402). -/
inductive LogCause
  /-- ERR_UNIMPL_START. -/
  | unimplStart
  /-- ERR_RESERVED_INC: reserved for the legacy path, which the spec does not take (C2). -/
  | reservedInc
  deriving DecidableEq, Repr

/-- The cause codes of R401 and R402. -/
def LogCause.code : LogCause → Nat
  | .unimplStart => 1
  | .reservedInc => 2

/-- The only level of the block's log records (R401, R402). -/
inductive LogLevel
  | warn
  deriving DecidableEq, Repr

/-- A log record (R210, R401). -/
structure LogRecord where
  level : LogLevel
  cause : LogCause
  core : CoreId
  channel : ChanId
  startMode : StartEvent
  srcAddr : Word
  dstAddr : Word
  deriving DecidableEq, Repr

/-- A primitive call (R26), as the block's output event list records it. A wait mask has one bit per
channel (R52). -/
inductive Event
  /-- `MemRead(c, addr, bytes)` and the value it returned, zero-extended. -/
  | memRead (c : CoreId) (addr : Word) (width : UnitWidth) (value : Word)
  /-- `MemWrite(c, addr, bytes, value)`. -/
  | memWrite (c : CoreId) (addr : Word) (width : UnitWidth) (value : Word)
  /-- `Stall(c, mask)`. -/
  | stall (c : CoreId) (mask : BitVec 4)
  /-- `Resume(c, mask)`. -/
  | resume (c : CoreId) (mask : BitVec 4)
  /-- `RaiseIrq(c, n)`. -/
  | raiseIrq (c : CoreId) (n : ChanId)
  /-- `NotifyFifo(c)`. -/
  | notifyFifo (c : CoreId)
  /-- `Log(level, record)`. -/
  | log (r : LogRecord)
  deriving DecidableEq, Repr

/-- What the bus answers one unit: the word its read returns, where the collaborator behind the address
gives one and it is not the memory's, and the start events its write returns (R26, R312). -/
structure BusReply where
  readData : Option Word
  events : List (CoreId × StartEvent)
  deriving DecidableEq, Repr, Inhabited

/-- The whole machine: the block, its configuration, its environment and its inputs and outputs. -/
structure State where
  /-- The parameters and tables, fixed for the run (R7 to R23, R64, R102). -/
  cfg : Config
  /-- The two channel sets (R3, R50). -/
  sets : PerCore ChannelSet
  /-- `ts(c)` (R56). -/
  ts : PerCore Time
  /-- `target(c)` (R56). -/
  target : PerCore Time
  /-- The bytes of each core's bus space (R57, R100), in the canonical form of `storeWf`; a byte that is
  not listed reads 0 (notes/assumptions/5.md). -/
  mem : PerCore (List Host.Cell)
  /-- The model's own: what the bus answers the coming units, oldest first (notes/assumptions/6.md). -/
  busReplies : List BusReply
  /-- The model's own: numbers the bus's free values (notes/assumptions/7.md). -/
  freeIx : Nat
  /-- The primitive calls made so far, in order (R26, R369). -/
  events : List Event
  /-- The words the last RD or SAVE returned (R213, R361, R369). -/
  reply : List Word
  /-- The refusal mark (R172, R404). -/
  refusedCommand : Bool
  /-- The model's own: inputs not yet taken, oldest first (notes/assumptions/2.md). -/
  inbox : List Input
  /-- The model's own: register accesses the bus delivers before the next input, oldest first
  (R456, notes/assumptions/8.md). -/
  delivered : List Input
  deriving DecidableEq, Repr

/-- Why the machine stops. On either overflow the model is stuck: the step is not completed and no later
command is applied (R404). -/
inductive Fault
  /-- An addition to `ts(c)` would pass 2^64-1 (R23, R307). Raised by TICK and MRAM_DONE. Safe: a
  configuration or run outside the spec's range is given no meaning. -/
  | timestampOverflow
  /-- A unit's cost does not fit in u32 (R276). Raised by TICK and MRAM_DONE. Safe, for the same reason. -/
  | costOverflow
  deriving DecidableEq, Repr

/-- Why an instruction has no meaning. -/
inductive Refusal
  /-- Raised by `exec` alone, for an instruction the model gives no meaning yet; no arm of this model
  uses it. Safe. -/
  | notModelled (mnemonic : String)
  deriving DecidableEq, Repr

/-- A channel after reset (R440, 10_state.md section 7), with its identity (R441). -/
def Channel.reset (c : CoreId) (n : ChanId) : Channel where
  srcAddr := 0
  dstAddr := 0
  controlWord := 0
  startMode := .immediate
  srcInc := .fixed
  dstInc := .fixed
  curSrcAddr := 0
  curDstAddr := 0
  remainingCount := 0
  iterationCount := 0
  running := .idle
  inProgress := false
  queued := false
  isGpuFifoTransfer := false
  extStall := false
  cpuCore := c
  channelNumber := n

/-- The slot after reset (R62, R440). -/
def Slot.reset : Slot := ⟨false, .w16, .ch0⟩

/-- The share entry after reset, which is also that of an unlisted bank (R60, R440). -/
def ShareEntry.reset : ShareEntry := ⟨false, .ch0⟩

/-- A channel set after reset (R440). -/
def ChannelSet.reset (c : CoreId) : ChannelSet where
  chans := ⟨Channel.reset c .ch0, Channel.reset c .ch1, Channel.reset c .ch2, Channel.reset c .ch3⟩
  executing := none
  stallBits := 0
  share := []
  slot := Slot.reset

/-- The machine at power-on (R441): the block as RESET leaves it, the parameters at their defaults, and
nothing given or answered yet. The host sets `ts`, `target` and memory (R443, R444); the values here are
notes/assumptions/9.md's. -/
def State.reset : State where
  cfg := Config.default
  sets := ⟨ChannelSet.reset .core0, ChannelSet.reset .core1⟩
  ts := ⟨0, 0⟩
  target := ⟨0, 0⟩
  mem := ⟨[], []⟩
  busReplies := []
  freeIx := 0
  events := []
  reply := []
  refusedCommand := false
  inbox := []
  delivered := []

end Sys2Proof.Machine
end

