-- ==== Sys2Proof/Machine/Sparse.lean ====
section
/-!
DEFINITION. Sparse data by key in one canonical form: a list of (key, value) with keys strictly rising and
no value equal to what an unlisted key reads as. The bus memories (R57, R100) and the share tables (R60)
are held so.
-/
namespace Sys2Proof.Machine

/-- The value of a key; an unlisted key reads `d`. -/
def storeGet {α : Type} (d : α) : List (Nat × α) → Nat → α
  | [], _ => d
  | (j, v) :: r, k => if j = k then v else storeGet d r k

/-- The store with key `k` at `v`, in canonical form if it was. -/
def storeSet {α : Type} [DecidableEq α] (d : α) : List (Nat × α) → Nat → α → List (Nat × α)
  | [], k, v => if v = d then [] else [(k, v)]
  | (j, u) :: r, k, v =>
    if k < j then (if v = d then (j, u) :: r else (k, v) :: (j, u) :: r)
    else if k = j then (if v = d then r else (k, v) :: r)
    else (j, u) :: storeSet d r k v

/-- Every key of the store is above `k`. -/
def storeAbove {α : Type} (k : Nat) : List (Nat × α) → Bool
  | [] => true
  | (j, _) :: r => decide (k < j) && storeAbove k r

/-- The canonical form: keys strictly rising, no listed value equal to `d`. -/
def storeWf {α : Type} [DecidableEq α] (d : α) : List (Nat × α) → Bool
  | [] => true
  | (j, v) :: r => decide (v ≠ d) && storeAbove j r && storeWf d r

end Sys2Proof.Machine
end

