-- ==== Sys2Proof/Decode.lean ====
section
/-!
DEFINITION. The decoder, total on every input, which rejects by name; then the encoder, written from
the same tables (30_encoding.md R140, R141, R151 to R156, R170 to R173; spec/opcode_table.json).
-/
namespace Sys2Proof

/-- The bits `[lo+len-1 : lo]` of a word (R24). -/
def bitField (lo len : Nat) (w : Word) : BitVec len := w.extractLsb' lo len

/-- Why an input is no instruction of the block. -/
inductive DecodeError
  /-- A command without a header word (R170). -/
  | noHeader
  /-- Bits 31:17 of the header are nonzero (R172). -/
  | highBits
  /-- op is 9 to 15 (R172). -/
  | reservedOp
  /-- A field the op does not use is nonzero (R172). -/
  | unusedField
  /-- reg is 3 (R172). -/
  | reservedReg
  /-- A TRIG event code 9 to 15 (R172). -/
  | reservedEvent
  /-- Not the number of words the command has: WR a header and one data word, RESTORE a header and a
  vector, every other command its header alone (R170). -/
  | wrongLength
  /-- A bus access outside core `c`'s register window: the block does not answer it (R101). -/
  | outsideWindow
  /-- A control word under a field of which no table row has its code. -/
  | noRow
  /-- A directive of the harness: it has no encoding and is no command (R174). -/
  | directive
  deriving DecidableEq, Repr

/-- The rejections that are refused commands in the sense of R172. -/
def DecodeError.isRefusedCommand : DecodeError → Bool
  | .noHeader => true
  | .highBits => true
  | .reservedOp => true
  | .unusedField => true
  | .reservedReg => true
  | .reservedEvent => true
  | .wrongLength => true
  | .outsideWindow => false
  | .noRow => false
  | .directive => false

/-- The core a 1-bit core field names (R170). -/
def coreOfBit (b : BitVec 1) : CoreId := if b = 0 then .core0 else .core1

/-- The channel a 2-bit channel field names (R170). -/
def chanOfBits (b : BitVec 2) : ChanId :=
  match b.toNat with
  | 0 => .ch0
  | 1 => .ch1
  | 2 => .ch2
  | _ => .ch3

/-- The register a 2-bit register field names; 3 is reserved (R170). -/
def regOfBits (b : BitVec 2) : Option Reg :=
  match b.toNat with
  | 0 => some .sad
  | 1 => some .dad
  | 2 => some .cnt
  | _ => none

/-- The event of a 4-bit code; 9 to 15 are reserved (R154, R173). -/
def eventOfCode (k : Nat) : Option StartEvent :=
  match k with
  | 0 => some .immediate
  | 1 => some .vblank
  | 2 => some .hblank
  | 3 => some .displayStart
  | 4 => some .mainMemDisplay
  | 5 => some .cart
  | 6 => some .gbaSlot
  | 7 => some .gxFifo
  | 8 => some .wifiGba
  | _ => none

/-- The write command of a register (R171, R201 to R203). -/
def writeInstr (c : CoreId) (n : ChanId) (r : Reg) (be : BitVec 4) (d : Word) : Instr :=
  match r with
  | .sad => .wrSad c n be d
  | .dad => .wrDad c n be d
  | .cnt => .wrCnt c n be d

/-- The read command of a register (R171, R213). -/
def readInstr (c : CoreId) (n : ChanId) (r : Reg) : Instr :=
  match r with
  | .sad => .rdSad c n
  | .dad => .rdDad c n
  | .cnt => .rdCnt c n

/-- The header bits each op uses (R170, R171); of a reserved op, only the op itself. -/
def usedBits (op : Nat) : Word :=
  match op with
  | 0 => 0x00001FFF
  | 1 => 0x000001FF
  | 2 => 0x0001E01F
  | 3 => 0x0000001F
  | 4 => 0x0000001F
  | 5 => 0x0000007F
  | _ => 0x0000000F

/-- A command's header and following words as an instruction, once its bits 31:17 and the fields its op
does not use are known to be zero (R171). -/
def decodeOp (h : Word) (data : List Word) : Except DecodeError Instr :=
  let c := coreOfBit (bitField 4 1 h)
  let n := chanOfBits (bitField 5 2 h)
  match (bitField 0 4 h).toNat with
  | 0 =>
    match regOfBits (bitField 7 2 h), data with
    | none, _ => .error .reservedReg
    | some r, [d] => .ok (writeInstr c n r (bitField 9 4 h) d)
    | some _, _ => .error .wrongLength
  | 1 =>
    match regOfBits (bitField 7 2 h), data with
    | none, _ => .error .reservedReg
    | some r, [] => .ok (readInstr c n r)
    | some _, _ => .error .wrongLength
  | 2 =>
    match eventOfCode (bitField 13 4 h).toNat, data with
    | none, _ => .error .reservedEvent
    | some ev, [] => .ok (.trig c ev)
    | some _, _ => .error .wrongLength
  | 3 => if data = [] then .ok (.tick c) else .error .wrongLength
  | 4 => if data = [] then .ok (.mramDone c) else .error .wrongLength
  | 5 => if data = [] then .ok (.xstall c n) else .error .wrongLength
  | 6 => if data = [] then .ok .resetBlock else .error .wrongLength
  | 7 => if data = [] then .ok .save else .error .wrongLength
  | 8 => .ok (.restore data)
  | _ => .error .reservedOp

/-- A command as it is issued (R170 to R172). -/
def decodeCommand (words : List Word) : Except DecodeError Instr :=
  match words with
  | [] => .error .noHeader
  | h :: data =>
    if bitField 17 15 h ≠ 0 then .error .highBits
    else if 9 ≤ (bitField 0 4 h).toNat then .error .reservedOp
    else if h &&& ~~~(usedBits (bitField 0 4 h).toNat) ≠ 0 then .error .unusedField
    else decodeOp h data

/-- DMA_REG_BASE (R22). -/
def Config.regBase (cfg : Config) : Word := cfg.regBaseIndex ++ (0 : BitVec 2)

/-- The channel and register whose four bytes hold the `k`-th word of the window (R140). -/
def windowWord (k : Nat) : Option (ChanId × Reg) :=
  match k with
  | 0 => some (.ch0, .sad)
  | 1 => some (.ch0, .dad)
  | 2 => some (.ch0, .cnt)
  | 3 => some (.ch1, .sad)
  | 4 => some (.ch1, .dad)
  | 5 => some (.ch1, .cnt)
  | 6 => some (.ch2, .sad)
  | 7 => some (.ch2, .dad)
  | 8 => some (.ch2, .cnt)
  | 9 => some (.ch3, .sad)
  | 10 => some (.ch3, .dad)
  | 11 => some (.ch3, .cnt)
  | _ => none

/-- The channel and register an I/O address falls in: DMA_REG_BASE + 12*n + 4*r (R140). -/
def windowSlot (cfg : Config) (addr : Word) : Option (ChanId × Reg) :=
  windowWord ((addr - cfg.regBase).toNat / 4)

/-- The table row of a control word's start code, by the layout of the core (R147, R155, R156). -/
def decodeStartRow (v : Variant) (c : CoreId) (n : ChanId) (w : Word) : Instr :=
  match v with
  | .wide =>
    match (bitField 27 3 w).toNat with
    | 0 => .cntStartImmediateWide c n w
    | 1 => .cntStartVblankWide c n w
    | 2 => .cntStartHblankWide c n w
    | 3 => .cntStartDisplayStartWide c n w
    | 4 => .cntStartMainMemDisplayWide c n w
    | 5 => .cntStartCartWide c n w
    | 6 => .cntStartGbaSlotWide c n w
    | _ => .cntStartGxFifoWide c n w
  | .narrow =>
    match (bitField 28 2 w).toNat with
    | 0 => .cntStartImmediateNarrow c n w
    | 1 => .cntStartVblankNarrow c n w
    | 2 => .cntStartCartNarrow c n w
    | _ => .cntStartWifiGbaNarrow c n w

/-- The table row a control word matches in one of its fields (R141 to R157). -/
def decodeControl (cfg : Config) (c : CoreId) (n : ChanId) (f : CntField) (w : Word) : Except DecodeError Instr :=
  match f with
  | .start => .ok (decodeStartRow (cfg.variant.get c) c n w)
  | .dst =>
    match (bitField 21 2 w).toNat with
    | 0 => .ok (.cntDstIncrement c n w)
    | 1 => .ok (.cntDstDecrement c n w)
    | 2 => .ok (.cntDstFixed c n w)
    | _ => .ok (.cntDstIncrementReload c n w)
  | .src =>
    match (bitField 23 2 w).toNat with
    | 0 => .ok (.cntSrcIncrement c n w)
    | 1 => .ok (.cntSrcDecrement c n w)
    | 2 => .ok (.cntSrcFixed c n w)
    | _ => .ok (.cntSrcReservedAsIncrement c n w)
  | .width => if bitField 26 1 w = 0 then .ok (.cntWidth16 c n w) else .ok (.cntWidth32 c n w)
  | .repeatFlag => if bitField 25 1 w = 1 then .ok (.cntRepeat c n w) else .error .noRow
  | .irqEn => if bitField 30 1 w = 1 then .ok (.cntIrqEn c n w) else .error .noRow
  | .enable => if bitField 31 1 w = 1 then .ok (.cntEnable c n w) else .error .noRow
  | .count => .ok (.cntCount c n w)

/-- The instruction an input is. -/
def decodeInput (cfg : Config) : Input → Except DecodeError Instr
  | .command words => decodeCommand words
  | .busWrite c addr be d =>
    match windowSlot cfg addr with
    | some (n, r) => .ok (writeInstr c n r be d)
    | none => .error .outsideWindow
  | .busRead c addr =>
    match windowSlot cfg addr with
    | some (n, r) => .ok (readInstr c n r)
    | none => .error .outsideWindow
  | .control c n f w => decodeControl cfg c n f w
  | .setTs _ _ => .error .directive
  | .setTarget _ _ => .error .directive
  | .setMem _ _ _ _ => .error .directive

/-! ## The encoder -/

/-- The 1-bit core field (R170). -/
def CoreId.bit : CoreId → BitVec 1
  | .core0 => 0
  | .core1 => 1

/-- The 2-bit channel field (R170). -/
def ChanId.bits : ChanId → BitVec 2
  | .ch0 => 0
  | .ch1 => 1
  | .ch2 => 2
  | .ch3 => 3

/-- The 2-bit register field (R170). -/
def Reg.bits : Reg → BitVec 2
  | .sad => 0
  | .dad => 1
  | .cnt => 2

/-- A command header, its fields from bit 31 down: zero, event, be, reg, ch, core, op (R170). -/
def headerWord (op : BitVec 4) (core : BitVec 1) (ch reg : BitVec 2) (be event : BitVec 4) : Word :=
  (0 : BitVec 15) ++ event ++ be ++ reg ++ ch ++ core ++ op

/-- The input that is the instruction: a command's words, or the control word of a row. -/
def encode : Instr → Input
  | .wrSad c n be d => .command [headerWord 0 c.bit n.bits Reg.sad.bits be 0, d]
  | .wrDad c n be d => .command [headerWord 0 c.bit n.bits Reg.dad.bits be 0, d]
  | .wrCnt c n be d => .command [headerWord 0 c.bit n.bits Reg.cnt.bits be 0, d]
  | .rdSad c n => .command [headerWord 1 c.bit n.bits Reg.sad.bits 0 0]
  | .rdDad c n => .command [headerWord 1 c.bit n.bits Reg.dad.bits 0 0]
  | .rdCnt c n => .command [headerWord 1 c.bit n.bits Reg.cnt.bits 0 0]
  | .trig c ev => .command [headerWord 2 c.bit 0 0 0 (BitVec.ofNat 4 ev.code)]
  | .tick c => .command [headerWord 3 c.bit 0 0 0 0]
  | .mramDone c => .command [headerWord 4 c.bit 0 0 0 0]
  | .xstall c n => .command [headerWord 5 c.bit n.bits 0 0 0]
  | .resetBlock => .command [headerWord 6 0 0 0 0 0]
  | .save => .command [headerWord 7 0 0 0 0 0]
  | .restore vec => .command (headerWord 8 0 0 0 0 0 :: vec)
  | .cntStartImmediateWide c n w => .control c n .start w
  | .cntStartVblankWide c n w => .control c n .start w
  | .cntStartHblankWide c n w => .control c n .start w
  | .cntStartDisplayStartWide c n w => .control c n .start w
  | .cntStartMainMemDisplayWide c n w => .control c n .start w
  | .cntStartCartWide c n w => .control c n .start w
  | .cntStartGbaSlotWide c n w => .control c n .start w
  | .cntStartGxFifoWide c n w => .control c n .start w
  | .cntStartImmediateNarrow c n w => .control c n .start w
  | .cntStartVblankNarrow c n w => .control c n .start w
  | .cntStartCartNarrow c n w => .control c n .start w
  | .cntStartWifiGbaNarrow c n w => .control c n .start w
  | .cntDstIncrement c n w => .control c n .dst w
  | .cntDstDecrement c n w => .control c n .dst w
  | .cntDstFixed c n w => .control c n .dst w
  | .cntDstIncrementReload c n w => .control c n .dst w
  | .cntSrcIncrement c n w => .control c n .src w
  | .cntSrcDecrement c n w => .control c n .src w
  | .cntSrcFixed c n w => .control c n .src w
  | .cntSrcReservedAsIncrement c n w => .control c n .src w
  | .cntWidth16 c n w => .control c n .width w
  | .cntWidth32 c n w => .control c n .width w
  | .cntRepeat c n w => .control c n .repeatFlag w
  | .cntIrqEn c n w => .control c n .irqEn w
  | .cntEnable c n w => .control c n .enable w
  | .cntCount c n w => .control c n .count w

/-! ## The words of the opcode table -/

/-- The words a table word stands for, laid out as the block takes them: a header with its data word,
or a header with a vector of zeros, or a header alone (R170). -/
def tableWords (h d : Word) : List Word :=
  match (bitField 0 4 h).toNat with
  | 0 => [h, d]
  | 8 => h :: List.replicate 154 0
  | _ => [h]

/-- The field of the control word in which a row's word is not zero. -/
def fieldOfWord (w : Word) : CntField :=
  if bitField 27 3 w ≠ 0 then .start
  else if bitField 21 2 w ≠ 0 then .dst
  else if bitField 23 2 w ≠ 0 then .src
  else if bitField 26 1 w ≠ 0 then .width
  else if bitField 25 1 w ≠ 0 then .repeatFlag
  else if bitField 30 1 w ≠ 0 then .irqEn
  else if bitField 31 1 w ≠ 0 then .enable
  else .count

/-- The input the bits of a table row are (notes/assumptions/4.md): a word with bits 31:17 zero is a
command header (R170); every other word is no header (R172) and is a control word, presented to channel
(1, 0) under the field it speaks of. -/
def tableInput (nbits w : Nat) : Input :=
  let v := w % 2 ^ nbits
  let h : Word := BitVec.ofNat 32 v
  let d : Word := BitVec.ofNat 32 (v / 2 ^ 32)
  if bitField 17 15 h = 0 then .command (tableWords h d)
  else .control .core1 .ch0 (fieldOfWord h) h

/-- The instruction the decoder reads from the bits of a table row. -/
def decodeTableWord (nbits w : Nat) : Option Instr :=
  match decodeInput Config.default (tableInput nbits w) with
  | .ok i => some i
  | .error _ => none

end Sys2Proof
end

