-- ==== Sys2Proof/Machine/Operands.lean ====
section
/-!
DEFINITION. The operand forms: the fields of the control word (R34, R141 to R157), the byte-enable merge
(R201), address arithmetic (R105) and the lanes of a narrow write in the register window (R140, R175).
-/
namespace Sys2Proof.Machine

/-- enable = control_word[31] (R149). -/
def enableBit (cw : Word) : Bool := bitField 31 1 cw == 1

/-- irq_en = control_word[30] (R148). -/
def irqEnBit (cw : Word) : Bool := bitField 30 1 cw == 1

/-- repeat = control_word[25] (R145). -/
def repeatBit (cw : Word) : Bool := bitField 25 1 cw == 1

/-- The unit width, control_word[26] (R146). -/
def widthOf (cw : Word) : UnitWidth := if bitField 26 1 cw = 1 then .w32 else .w16

/-- dst_ctl = control_word[22:21] (R143). -/
def dstCtl (cw : Word) : BitVec 2 := bitField 21 2 cw

/-- src_ctl = control_word[24:23] (R144). -/
def srcCtl (cw : Word) : BitVec 2 := bitField 23 2 cw

/-- The control word with its enable bit cleared (R320). -/
def clearEnable (cw : Word) : Word := cw &&& 0x7FFFFFFF

/-- COUNT_MASK(c,n), a contiguous mask of low bits (R10, R142). -/
def countMask (cfg : Config) (c : CoreId) (n : ChanId) : Word :=
  BitVec.ofNat 32 (2 ^ ((cfg.countBits.get c).get n).val - 1)

/-- The count field of channel (c, n) (R142). -/
def countField (cfg : Config) (c : CoreId) (n : ChanId) (cw : Word) : Word := cw &&& countMask cfg c n

/-- The effective transfer length (R157). -/
def effLen (cfg : Config) (c : CoreId) (n : ChanId) (cw : Word) : Word :=
  if countField cfg c n cw ≠ 0 then countField cfg c n cw else countMask cfg c n + 1

/-- The destination increment decode (R151). -/
def dstIncOf (cw : Word) : Inc :=
  match (dstCtl cw).toNat with
  | 0 => .up
  | 1 => .down
  | 2 => .fixed
  | _ => .up

/-- The source increment decode; the reserved code 3 acts as increment (R152). -/
def srcIncOf (cw : Word) : Inc :=
  match (srcCtl cw).toNat with
  | 0 => .up
  | 1 => .down
  | 2 => .fixed
  | _ => .up

/-- The start events of the WIDE layout, by code (R155). -/
def wideStart (code : Nat) : StartEvent :=
  match code with
  | 0 => .immediate
  | 1 => .vblank
  | 2 => .hblank
  | 3 => .displayStart
  | 4 => .mainMemDisplay
  | 5 => .cart
  | 6 => .gbaSlot
  | _ => .gxFifo

/-- The start events of the NARROW layout, by code (R156). -/
def narrowStart (code : Nat) : StartEvent :=
  match code with
  | 0 => .immediate
  | 1 => .vblank
  | 2 => .cart
  | _ => .wifiGba

/-- `DecodeStart` (R147, R207). -/
def decodeStart (v : Variant) (cw : Word) : StartEvent :=
  match v with
  | .wide => wideStart (bitField 27 3 cw).toNat
  | .narrow => narrowStart (bitField 28 2 cw).toNat

/-- The events a core's decode can produce (R155, R156, R366). -/
def producible (v : Variant) (ev : StartEvent) : Bool :=
  match v, ev with
  | .wide, .wifiGba => false
  | .wide, _ => true
  | .narrow, .immediate => true
  | .narrow, .vblank => true
  | .narrow, .cart => true
  | .narrow, .wifiGba => true
  | .narrow, _ => false

/-- Byte lane k of the mask is 0xFF when `be[k]` is 1 (R201). -/
def byteMask (be : BitVec 4) : Word :=
  let lane (k : Nat) : BitVec 8 := if be.getLsbD k then 0xFF else 0
  lane 3 ++ lane 2 ++ lane 1 ++ lane 0

/-- The byte-enable merge of a register write (R201). -/
def mergeBytes (old : Word) (be : BitVec 4) (d : Word) : Word :=
  (old &&& ~~~(byteMask be)) ||| (d &&& byteMask be)

/-- The control word `w` with the bits of `mask` taken from `code`: a control word of the table row
(mask, code). -/
def rowWord (mask code w : Word) : Word := (w &&& ~~~mask) ||| code

/-- A working address after one unit: `(a + inc * bytes(w)) mod 2^32` (R105, R310). -/
def advance (a : Word) (i : Inc) (w : UnitWidth) : Word :=
  match i with
  | .up => a + BitVec.ofNat 32 w.bytes
  | .fixed => a
  | .down => a - BitVec.ofNat 32 w.bytes

/-- The slice cap (R235): FIFO-paced transfers are capped at FIFO_SLICE_CAP units. -/
def sliceCap (mode : StartEvent) (remaining : Word) : Word :=
  if mode = .gxFifo ∧ fifoSliceCap < remaining then fifoSliceCap else remaining

/-- `1 << n` (R52). -/
def chanMask : ChanId → BitVec 4
  | .ch0 => 1
  | .ch1 => 2
  | .ch2 => 4
  | .ch3 => 8

/-- The low `bytes(w)` bytes of a word, zero-extended (R26). -/
def truncUnit (w : UnitWidth) (v : Word) : Word :=
  match w with
  | .w16 => v &&& 0xFFFF
  | .w32 => v

/-- The unit's address is a multiple of its size. -/
def unitAligned (a : Word) (w : UnitWidth) : Bool := a.toNat % w.bytes == 0

/-- The byte enables of an aligned unit written to the word of `a` (R140, R175). -/
def laneEnables (a : Word) (w : UnitWidth) : BitVec 4 :=
  match w with
  | .w32 => 0xF
  | .w16 => if a.getLsbD 1 then 0xC else 0x3

/-- An aligned unit's value in its lanes (R140, R175). -/
def laneData (a : Word) (w : UnitWidth) (v : Word) : Word :=
  match w with
  | .w32 => v
  | .w16 => if a.getLsbD 1 then v <<< 16 else v

end Sys2Proof.Machine
end

