-- ==== Sys2Proof/Machine/Timing.lean ====
section
/-!
DEFINITION. The timing calculation engine and region classifier (42_timing_engine.md).
-/
namespace Sys2Proof.Machine

/-- The entry of an index (R102): that of the first row that covers it. -/
def tableRowsGet {α : Type} (d : α) : List (TableRow α) → Nat → α
  | [], _ => d
  | r :: rs, k => if r.lo ≤ k ∧ k ≤ r.hi then r.value else tableRowsGet d rs k

def tableGet {α : Type} (t : Table α) (k : Nat) : α := tableRowsGet t.other t.rows k

/-- The table index of an address: `addr >> REGION_SHIFT(c)` (R12, R102). -/
def tableIndex (cfg : Config) (c : CoreId) (a : Word) : Nat := a.toNat >>> (cfg.regionShift.get c).val

/-- `Region(c, a)` (R270). -/
def regionOf (cfg : Config) (c : CoreId) (a : Word) : Nat :=
  tableGet (cfg.tables.regionTable.get c) (tableIndex cfg c a)

/-- BANK_OF, the identity where `bankTable` does not list the region (R15). -/
def bankOfRegion (cfg : Config) (r : Nat) : Nat :=
  match cfg.bankTable.find? (fun p => p.1 == r) with
  | some p => p.2
  | none => r

/-- The bank of an address (R270). -/
def bankAt (cfg : Config) (c : CoreId) (a : Word) : Nat := bankOfRegion cfg (regionOf cfg c a)

/-- `SameBank` (R272). -/
def sameBank (cfg : Config) (c : CoreId) (s d : Word) : Bool := bankAt cfg c s == bankAt cfg c d

/-- The non-sequential cost N of an access (R271). -/
def costN (cfg : Config) (c : CoreId) (a : Word) (w : UnitWidth) : Nat :=
  let e := tableGet (cfg.tables.costTable.get c) (tableIndex cfg c a)
  match w with
  | .w16 => e.n16.toNat
  | .w32 => e.n32.toNat

/-- The sequential cost S of an access (R271). -/
def costS (cfg : Config) (c : CoreId) (a : Word) (w : UnitWidth) : Nat :=
  let e := tableGet (cfg.tables.costTable.get c) (tableIndex cfg c a)
  match w with
  | .w16 => e.s16.toNat
  | .w32 => e.s32.toNat

/-- `UnitCost(c, w, s, d, pos)` as an exact natural number (R273 to R276). -/
def unitCost (cfg : Config) (c : CoreId) (w : UnitWidth) (s d : Word) (pos : Int) : Nat :=
  if sameBank cfg c s d then
    costS cfg c s w + costS cfg c d w + (if pos = 1 then 0 else 1)
  else if pos = 2 then
    costN cfg c s w + costN cfg c d w
  else
    costS cfg c s w + costS cfg c d w

/-- `TouchesMainRam` (R306). -/
def touchesMainRam (cfg : Config) (c : CoreId) (s d : Word) : Bool :=
  regionOf cfg c s == cfg.tables.mainRamRegion.get c || regionOf cfg c d == cfg.tables.mainRamRegion.get c

/-- The burst position of a slice's first unit (R280). -/
def firstPos (cfg : Config) (m : Marker) : Int := (m.toNat : Int) - cfg.burstPosBias

/-- A unit's cycles on the core's clock: the exact cost shifted by COST_SHIFT(c) (R21, R276). -/
def scaledCost (cfg : Config) (c : CoreId) (cost : Nat) : Nat := cost * 2 ^ (cfg.costShift.get c).val

/-- The region ids the tables of both cores yield (notes/assumptions/11.md). -/
def regionIds (cfg : Config) : List Nat :=
  let ids (t : Table Nat) : List Nat := t.other :: t.rows.map (·.value)
  ids (cfg.tables.regionTable.get .core0) ++ ids (cfg.tables.regionTable.get .core1)

/-- A number put into a strictly rising list of numbers. -/
def insertRising (k : Nat) : List Nat → List Nat
  | [] => [k]
  | j :: r => if k < j then k :: j :: r else if k = j then j :: r else j :: insertRising k r

/-- The bank ids in the range of BANK_OF, in increasing order (R60, R363). -/
def banks (cfg : Config) : List Nat :=
  (regionIds cfg).foldr (fun r acc => insertRising (bankOfRegion cfg r) acc) []

end Sys2Proof.Machine
end

