-- ==== Sys2Proof/Machine/Flags.lean ====
section
/-!
DEFINITION. The flags and predicates computed from the state: the protocol states (R229), Selectable and
active (R301, R325), the 3D-FIFO pattern (R238) and the initial burst marker (R239).
-/
namespace Sys2Proof.Machine

/-- The protocol states of a channel (R229); Queued is the flag `queued`. -/
inductive ProtocolState
  | idle
  | armed
  | running
  deriving DecidableEq, Repr

/-- A channel's protocol state (R229). -/
def protocolState (ch : Channel) : ProtocolState :=
  if ch.running ≠ .idle then .running
  else if enableBit ch.controlWord then .armed
  else .idle

def ChannelSet.chan (S : ChannelSet) (n : ChanId) : Channel := S.chans.get n

def ChannelSet.setChan (S : ChannelSet) (n : ChanId) (ch : Channel) : ChannelSet :=
  { S with chans := S.chans.set n ch }

/-- `Selectable(c, n)` (R301). -/
def selectable (S : ChannelSet) (n : ChanId) : Bool :=
  decide ((S.chan n).running ≠ .idle) && enableBit (S.chan n).controlWord

/-- The output `active(c)` (R325). -/
def active (S : ChannelSet) : Bool := allChans.any (selectable S)

/-- `GxFifoPattern(c, n)` of the channel's working addresses and destination increment (R238). -/
def gxFifoPattern (cfg : Config) (c : CoreId) (src dst : Word) (dstInc : Inc) : Bool :=
  decide (c = cfg.gxFifoCore) && (bitField 24 8 src == cfg.gxFifoSrcPage) && (dst == cfg.gxFifoDstAddr)
    && decide (dstInc = .fixed)

/-- The share table's entry of a bank (R60). -/
def shareAt (share : List (Nat × ShareEntry)) (b : Nat) : ShareEntry := storeGet ShareEntry.reset share b

/-- `InitialMarker(c, n)` (R239). -/
def initialMarker (cfg : Config) (c : CoreId) (share : List (Nat × ShareEntry)) (ch : Channel) : Marker :=
  if (shareAt share (bankAt cfg c ch.curSrcAddr)).valid && (shareAt share (bankAt cfg c ch.curDstAddr)).valid
      && decide (ch.srcInc = .up) && decide (ch.dstInc = .up) then
    .continuing
  else
    .justStarted

end Sys2Proof.Machine
end

