-- ==== Sys2Proof/Machine/Ops.lean ====
section
/-!
DEFINITION. The named operations over the block, the bus and the outputs. What the block has in place of an
exception's entry and return stands here as shared operations: the CPU stall at Start (R242, R408) and the
resume at a slice boundary and at completion (R319, R320, R409). Operations of one channel set answer the
set and the primitive calls they make, in order (R26, R369).
-/
namespace Sys2Proof.Machine

/-! ## The share table (R60, R237, R313, R314) -/

/-- The bank's entry replaced. -/
def shareSet (share : List (Nat × ShareEntry)) (b : Nat) (e : ShareEntry) : List (Nat × ShareEntry) :=
  storeSet ShareEntry.reset share b e

/-- `share[b].valid <- false`, the owner kept. -/
def shareClose (share : List (Nat × ShareEntry)) (b : Nat) : List (Nat × ShareEntry) :=
  shareSet share b { shareAt share b with valid := false }

/-- The invalidation at a Start of channel `n` (R237): every valid entry of a lower-priority owner. -/
def shareInvalidate (n : ChanId) (share : List (Nat × ShareEntry)) : List (Nat × ShareEntry) :=
  share.map fun p => (p.1, if p.2.valid && p.2.owner.below n then { p.2 with valid := false } else p.2)

/-- `UpdateShare(c, n, s, d)` (R313). -/
def updateShare (cfg : Config) (c : CoreId) (n : ChanId) (s d : Word) (srcInc dstInc : Inc)
    (share : List (Nat × ShareEntry)) : List (Nat × ShareEntry) :=
  if srcInc = .up ∧ dstInc = .up then
    shareSet (shareSet share (bankAt cfg c s) ⟨true, n⟩) (bankAt cfg c d) ⟨true, n⟩
  else
    shareClose (shareClose share (bankAt cfg c s)) (bankAt cfg c d)

/-! ## Start (R233 to R244) -/

/-- The channel's own part of a Start before its marker: length, slice cap, destination reload and FIFO
pattern (R234, R235, R236, R238). -/
def beginTransfer (cfg : Config) (c : CoreId) (n : ChanId) (ch : Channel) : Channel :=
  let remaining := if ch.inProgress then ch.remainingCount else effLen cfg c n ch.controlWord
  let dst := if !ch.inProgress && dstCtl ch.controlWord == 3 then ch.dstAddr else ch.curDstAddr
  { ch with
    remainingCount := remaining
    iterationCount := sliceCap ch.startMode remaining
    curDstAddr := dst
    isGpuFifoTransfer := gxFifoPattern cfg c ch.curSrcAddr dst ch.dstInc }

/-- The CPU stall of channel `n` (R242). -/
def stallCpu (n : ChanId) (S : ChannelSet) : ChannelSet := { S with stallBits := S.stallBits ||| chanMask n }

/-- The CPU resume of channel `n`: only this channel's bit (R319, R409). -/
def resumeCpu (n : ChanId) (S : ChannelSet) : ChannelSet := { S with stallBits := S.stallBits &&& ~~~(chanMask n) }

/-- The lower-priority marker reset (R240). -/
def interruptLower (n : ChanId) (chans : PerChan Channel) : PerChan Channel :=
  chans.mapIdx fun m ch => if m.below n && decide (ch.running ≠ .idle) then { ch with running := .interrupted } else ch

/-- Preemption of an executing slice of lower priority (R241). -/
def preempt (n : ChanId) (S : ChannelSet) : ChannelSet :=
  match S.executing with
  | some m => if m.below n then S.setChan m { S.chan m with extStall := true } else S
  | none => S

/-- A Start of a channel that is already Running (R244). -/
def startRunning (cfg : Config) (n : ChanId) (S : ChannelSet) : ChannelSet :=
  if (S.chan n).startMode ∈ cfg.queueModes then S.setChan n { S.chan n with queued := true } else S

/-- A Start of a channel that is not Running, in the order of R233. -/
def startIdle (cfg : Config) (c : CoreId) (n : ChanId) (S : ChannelSet) : ChannelSet :=
  let S1 := stallCpu n (S.setChan n (beginTransfer cfg c n (S.chan n)))
  let S2 := preempt n { S1 with chans := interruptLower n S1.chans }
  let S3 := { S2 with share := shareInvalidate n S2.share }
  S3.setChan n { S3.chan n with running := initialMarker cfg c S3.share (S3.chan n), inProgress := true }

/-- `Start(c, n)` (R233) and the calls it makes. -/
def startSet (cfg : Config) (c : CoreId) (n : ChanId) (S : ChannelSet) : ChannelSet × List Event :=
  if (S.chan n).running ≠ .idle then (startRunning cfg n S, [])
  else (startIdle cfg c n S, [.stall c (chanMask n)])

/-! ## The end of a slice (R317 to R321) -/

/-- `SliceBoundary(c, n)` (R319). -/
def sliceBoundary (c : CoreId) (n : ChanId) (S : ChannelSet) : ChannelSet × List Event :=
  (resumeCpu n (S.setChan n { S.chan n with running := .idle }),
    .resume c (chanMask n) :: (if (S.chan n).startMode = .gxFifo then [.notifyFifo c] else []))

/-- The control word a completion leaves: enable cleared unless repeat (R320). -/
def completedWord (cw : Word) : Word := if repeatBit cw then cw else clearEnable cw

/-- A completion makes the queued restart: one is requested, the control word `cw` it leaves is still enabled
(R321), and the start mode is implemented, since a channel of an unimplemented mode never Starts (R159,
notes/assumptions/29.md). -/
def restarts (cfg : Config) (cw : Word) (ch : Channel) : Bool :=
  ch.queued && enableBit cw && !decide (ch.startMode ∈ cfg.unimplementedModes)

/-- `Complete(c, n)` (R320) and the queued restart (R321). -/
def complete (cfg : Config) (c : CoreId) (n : ChanId) (S : ChannelSet) : ChannelSet × List Event :=
  let ch := S.chan n
  let cw := completedWord ch.controlWord
  let S1 := resumeCpu n
    (S.setChan n { ch with controlWord := cw, inProgress := false, running := .idle, queued := false })
  let calls : List Event := (if irqEnBit cw then [.raiseIrq c n] else []) ++ [.resume c (chanMask n)]
  if restarts cfg cw ch then
    let r := startSet cfg c n S1
    (r.1, calls ++ r.2)
  else
    (S1, calls)

/-! ## WriteCnt (R204 to R212) -/

/-- What the 0-to-1 enable latches (R205 to R207). -/
def latchEnable (cfg : Config) (c : CoreId) (val : Word) (ch : Channel) : Channel :=
  { ch with
    controlWord := val
    curSrcAddr := ch.srcAddr
    curDstAddr := ch.dstAddr
    dstInc := dstIncOf val
    srcInc := srcIncOf val
    startMode := decodeStart (cfg.variant.get c) val }

/-- The warning of an unimplemented start mode (R210, R401). -/
def unimplementedLog (c : CoreId) (n : ChanId) (ch : Channel) : Event :=
  .log ⟨.warn, .unimplStart, c, n, ch.startMode, ch.srcAddr, ch.dstAddr⟩

/-- `WriteCnt(c, n, val)` (R204) and the calls it makes. -/
def writeCnt (cfg : Config) (c : CoreId) (n : ChanId) (val : Word) (S : ChannelSet) : ChannelSet × List Event :=
  let old := S.chan n
  if !enableBit old.controlWord && enableBit val then
    let ch := latchEnable cfg c val old
    let S1 := S.setChan n ch
    if ch.startMode ∈ cfg.unimplementedModes then (S1, [unimplementedLog c n ch])
    else if ch.startMode = .immediate then startSet cfg c n S1
    else if ch.startMode = .gxFifo then (S1, [.notifyFifo c])
    else (S1, [])
  else
    (S.setChan n { old with controlWord := val }, [])

/-! ## Trigger (R230 to R232) -/

/-- One channel's part of a Trigger (R231): Start it if it is enabled and armed on the event. -/
def triggerChan (cfg : Config) (c : CoreId) (ev : StartEvent) (r : ChannelSet × List Event) (n : ChanId) :
    ChannelSet × List Event :=
  if enableBit (r.1.chan n).controlWord && decide ((r.1.chan n).startMode = ev) then
    let r' := startSet cfg c n r.1
    (r'.1, r.2 ++ r'.2)
  else r

/-- `Trigger(c, ev)` (R230, R232). -/
def triggerSet (cfg : Config) (c : CoreId) (ev : StartEvent) (S : ChannelSet) : ChannelSet × List Event :=
  if ev = .immediate ∨ ev ∈ cfg.unimplementedModes then (S, [])
  else allChans.foldl (triggerChan cfg c ev) (S, [])

/-! ## The whole state -/

def State.set (s : State) (c : CoreId) : ChannelSet := s.sets.get c

def State.chan (s : State) (c : CoreId) (n : ChanId) : Channel := (s.set c).chan n

/-- An operation of core `c`'s set, with the calls it makes recorded in order (R26). -/
def State.onSet (s : State) (c : CoreId) (f : ChannelSet → ChannelSet × List Event) : State :=
  { s with sets := s.sets.set c (f (s.set c)).1, events := s.events ++ (f (s.set c)).2 }

/-- An operation of core `c`'s set that makes no call. -/
def State.onSetQuiet (s : State) (c : CoreId) (f : ChannelSet → ChannelSet) : State :=
  s.onSet c fun S => (f S, [])

/-- The refusal mark, set for the rest of the run (R172). -/
def State.refuse (s : State) : State := { s with refusedCommand := true }

/-- `Trigger(c, ev)` on the whole state. -/
def State.trigger (s : State) (c : CoreId) (ev : StartEvent) : State :=
  s.onSet c (triggerSet s.cfg c ev)

/-- The start events a unit's write caused, in list order (R312). -/
def State.triggers (s : State) : List (CoreId × StartEvent) → State
  | [] => s
  | (c, ev) :: r => (s.trigger c ev).triggers r

/-! ## The bus (R26, R100, R103 to R109) -/

/-- The byte of a bus address; a byte that is not listed reads 0 (notes/assumptions/5.md). -/
def readByte (m : List Host.Cell) (a : Word) : Byte := storeGet 0 m a.toNat

/-- The memory with one byte written. -/
def writeByte (m : List Host.Cell) (a : Word) (b : Byte) : List Host.Cell := storeSet 0 m a.toNat b

/-- The canonical form of a bus memory: that of `storeWf`, at addresses of the 32-bit bus space (R100). -/
def Memory.wf (m : List Host.Cell) : Bool := storeWf 0 m && m.all fun p => decide (p.1 < 2 ^ 32)

/-- A unit's value in memory, low byte first (notes/assumptions/5.md). -/
def readUnit (m : List Host.Cell) (a : Word) (w : UnitWidth) : Word :=
  match w with
  | .w16 => (readByte m (a + 1) ++ readByte m a).setWidth 32
  | .w32 => readByte m (a + 3) ++ readByte m (a + 2) ++ readByte m (a + 1) ++ readByte m a

/-- The memory with a unit's value written, low byte first. -/
def writeUnit (m : List Host.Cell) (a : Word) (w : UnitWidth) (v : Word) : List Host.Cell :=
  let low := writeByte (writeByte m a (bitField 0 8 v)) (a + 1) (bitField 8 8 v)
  match w with
  | .w16 => low
  | .w32 => writeByte (writeByte low (a + 2) (bitField 16 8 v)) (a + 3) (bitField 24 8 v)

/-- Bytes a misaligned write left, at any addresses of the bus space (I9). -/
def writeCells (m : List Host.Cell) : List (Nat × Byte) → List Host.Cell
  | [] => m
  | (k, b) :: r => writeCells (writeByte m (BitVec.ofNat 32 k) b) r

/-- What the bus answers the unit at hand; an empty list answers with the memory and no event
(notes/assumptions/6.md). -/
def State.nextReply (s : State) : BusReply := s.busReplies.headD ⟨none, []⟩

/-- The value `MemRead(c, a, bytes(w))` returns: the collaborator's where it gives one; any value where the
access is misaligned (I9) or reads the register window (notes/assumptions/8.md); else the memory's. -/
def State.readValue (s : State) (c : CoreId) (a : Word) (w : UnitWidth) : Word :=
  match s.nextReply.readData with
  | some d => truncUnit w d
  | none =>
    if unitAligned a w && (windowSlot s.cfg a).isNone then readUnit (s.mem.get c) a w
    else truncUnit w (Config.openRead s.freeIx)

/-- The state after `MemRead`: the call is recorded, nothing else of the block changes (R109). -/
def State.afterRead (s : State) (c : CoreId) (a : Word) (w : UnitWidth) : State :=
  { s with events := s.events ++ [.memRead c a w (s.readValue c a w)], freeIx := s.freeIx + 1 }

/-- The register writes the bus makes of a misaligned write that overlaps the window (I9, R456). -/
def openRegWrites (cfg : Config) (c : CoreId) (a : Word) (w : UnitWidth) (o : OpenWrite) : List Input :=
  if (windowSlot cfg a).isSome || (windowSlot cfg (a + BitVec.ofNat 32 (w.bytes - 1))).isSome then
    o.regWrites.map fun p => .busWrite c p.1 p.2.1 p.2.2
  else []

/-- The bus's side of `MemWrite(c, a, bytes(w), v)`: the bytes of core `c`'s memory; or, in the register
window, a register write delivered after the step (R456); or any bytes, where the access is misaligned
(I9). -/
def State.busStore (s : State) (c : CoreId) (a : Word) (w : UnitWidth) (v : Word) : State :=
  if unitAligned a w then
    if (windowSlot s.cfg a).isSome then
      { s with delivered := s.delivered ++ [.busWrite c a (laneEnables a w) (laneData a w v)] }
    else
      { s with mem := s.mem.set c (writeUnit (s.mem.get c) a w v) }
  else
    { s with
      mem := s.mem.set c (writeCells (s.mem.get c) (Config.openWrite s.freeIx).cells)
      delivered := s.delivered ++ openRegWrites s.cfg c a w (Config.openWrite s.freeIx) }

/-- The state after `MemWrite`: the call is recorded, the bus has stored the value, and its reply is
used up. The start events it returns are those of `nextReply`. -/
def State.afterWrite (s : State) (c : CoreId) (a : Word) (w : UnitWidth) (v : Word) : State :=
  let s1 := s.busStore c a w v
  { s1 with
    events := s1.events ++ [.memWrite c a w v]
    busReplies := s1.busReplies.tail
    freeIx := s1.freeIx + 1 }

/-! ## The environment's directives (R174) -/

def State.setTs (s : State) (c : CoreId) (v : Time) : State := { s with ts := s.ts.set c v }

def State.setTarget (s : State) (c : CoreId) (v : Time) : State := { s with target := s.target.set c v }

/-- `.mem`: a collaborator writes bus memory (R57, R370). -/
def State.setMem (s : State) (c : CoreId) (a : Word) (w : UnitWidth) (v : Word) : State :=
  { s with mem := s.mem.set c (writeUnit (s.mem.get c) a w v) }

end Sys2Proof.Machine
end

