-- ==== Sys2Proof/Machine/RegisterOps.lean ====
section
/-!
DEFINITION. The register commands WR and RD (40_register_interface.md).
-/
namespace Sys2Proof.Machine

/-- What a step answers. -/
abbrev Result := Host.Outcome State Fault Refusal

/-- `WriteCnt(c, n, val)` on the whole state (R204). -/
def State.writeControl (s : State) (c : CoreId) (n : ChanId) (val : Word) : State :=
  s.onSet c (writeCnt s.cfg c n val)

/-- WR SAD (R201). -/
def execWrSad (c : CoreId) (n : ChanId) (be : BitVec 4) (d : Word) (s : State) : Result :=
  .next (s.onSetQuiet c fun S => S.setChan n { S.chan n with srcAddr := mergeBytes (S.chan n).srcAddr be d })

/-- WR DAD (R202). -/
def execWrDad (c : CoreId) (n : ChanId) (be : BitVec 4) (d : Word) (s : State) : Result :=
  .next (s.onSetQuiet c fun S => S.setChan n { S.chan n with dstAddr := mergeBytes (S.chan n).dstAddr be d })

/-- WR CNT (R203): WriteCnt of the merged word. -/
def execWrCnt (c : CoreId) (n : ChanId) (be : BitVec 4) (d : Word) (s : State) : Result :=
  .next (s.writeControl c n (mergeBytes (s.chan c n).controlWord be d))

/-- RD SAD (R213). -/
def execRdSad (c : CoreId) (n : ChanId) (s : State) : Result :=
  .next { s with reply := [(s.chan c n).srcAddr] }

/-- RD DAD (R213). -/
def execRdDad (c : CoreId) (n : ChanId) (s : State) : Result :=
  .next { s with reply := [(s.chan c n).dstAddr] }

/-- RD CNT (R213): the stored word, whose count field is no down-counter. -/
def execRdCnt (c : CoreId) (n : ChanId) (s : State) : Result :=
  .next { s with reply := [(s.chan c n).controlWord] }

end Sys2Proof.Machine
end

