-- ==== Sys2Proof/Machine/ControlRows.lean ====
section
/-!
DEFINITION. The control-word rows of the opcode table (R145, R146, R151, R152, R155 to R157, R204, R320).
Each is the full-width write of channel (c, n)'s control register (R203, every byte enabled) with a control
word that carries the row's code: its bits under the row's mask are the row's match, its other bits are the
operand `w` (notes/assumptions/3.md). What the code then does is WriteCnt's and its readers' business:
the start mode and the increments are latched at a 0-to-1 enable, the live fields are read at their use.
-/
namespace Sys2Proof.Machine

/-- The control word of the row (mask, code) with operand `w`, written to channel (c, n). -/
def writeRow (mask code : Word) (c : CoreId) (n : ChanId) (w : Word) (s : State) : Result :=
  .next (s.writeControl c n (rowWord mask code w))

/-- CNT.start=IMMEDIATE, format CNT-WIDE (R155). -/
def execCntStartImmediateWide (c : CoreId) (n : ChanId) (w : Word) (s : State) : Result :=
  writeRow 0x38000000 0x00000000 c n w s

/-- CNT.start=VBLANK, format CNT-WIDE (R155). -/
def execCntStartVblankWide (c : CoreId) (n : ChanId) (w : Word) (s : State) : Result :=
  writeRow 0x38000000 0x08000000 c n w s

/-- CNT.start=HBLANK, format CNT-WIDE (R155). -/
def execCntStartHblankWide (c : CoreId) (n : ChanId) (w : Word) (s : State) : Result :=
  writeRow 0x38000000 0x10000000 c n w s

/-- CNT.start=DISPLAY_START, format CNT-WIDE (R155). -/
def execCntStartDisplayStartWide (c : CoreId) (n : ChanId) (w : Word) (s : State) : Result :=
  writeRow 0x38000000 0x18000000 c n w s

/-- CNT.start=MAIN_MEM_DISPLAY, format CNT-WIDE (R155). -/
def execCntStartMainMemDisplayWide (c : CoreId) (n : ChanId) (w : Word) (s : State) : Result :=
  writeRow 0x38000000 0x20000000 c n w s

/-- CNT.start=CART, format CNT-WIDE (R155). -/
def execCntStartCartWide (c : CoreId) (n : ChanId) (w : Word) (s : State) : Result :=
  writeRow 0x38000000 0x28000000 c n w s

/-- CNT.start=GBA_SLOT, format CNT-WIDE (R155). -/
def execCntStartGbaSlotWide (c : CoreId) (n : ChanId) (w : Word) (s : State) : Result :=
  writeRow 0x38000000 0x30000000 c n w s

/-- CNT.start=GX_FIFO, format CNT-WIDE (R155). -/
def execCntStartGxFifoWide (c : CoreId) (n : ChanId) (w : Word) (s : State) : Result :=
  writeRow 0x38000000 0x38000000 c n w s

/-- CNT.start=IMMEDIATE, format CNT-NARROW (R156). -/
def execCntStartImmediateNarrow (c : CoreId) (n : ChanId) (w : Word) (s : State) : Result :=
  writeRow 0x30000000 0x00000000 c n w s

/-- CNT.start=VBLANK, format CNT-NARROW (R156). -/
def execCntStartVblankNarrow (c : CoreId) (n : ChanId) (w : Word) (s : State) : Result :=
  writeRow 0x30000000 0x10000000 c n w s

/-- CNT.start=CART, format CNT-NARROW (R156). -/
def execCntStartCartNarrow (c : CoreId) (n : ChanId) (w : Word) (s : State) : Result :=
  writeRow 0x30000000 0x20000000 c n w s

/-- CNT.start=WIFI_GBA, format CNT-NARROW (R156). -/
def execCntStartWifiGbaNarrow (c : CoreId) (n : ChanId) (w : Word) (s : State) : Result :=
  writeRow 0x30000000 0x30000000 c n w s

/-- CNT.dst=INCREMENT, format CNT (R151). -/
def execCntDstIncrement (c : CoreId) (n : ChanId) (w : Word) (s : State) : Result :=
  writeRow 0x00600000 0x00000000 c n w s

/-- CNT.dst=DECREMENT, format CNT (R151). -/
def execCntDstDecrement (c : CoreId) (n : ChanId) (w : Word) (s : State) : Result :=
  writeRow 0x00600000 0x00200000 c n w s

/-- CNT.dst=FIXED, format CNT (R151). -/
def execCntDstFixed (c : CoreId) (n : ChanId) (w : Word) (s : State) : Result :=
  writeRow 0x00600000 0x00400000 c n w s

/-- CNT.dst=INCREMENT_RELOAD, format CNT (R151). -/
def execCntDstIncrementReload (c : CoreId) (n : ChanId) (w : Word) (s : State) : Result :=
  writeRow 0x00600000 0x00600000 c n w s

/-- CNT.src=INCREMENT, format CNT (R152). -/
def execCntSrcIncrement (c : CoreId) (n : ChanId) (w : Word) (s : State) : Result :=
  writeRow 0x01800000 0x00000000 c n w s

/-- CNT.src=DECREMENT, format CNT (R152). -/
def execCntSrcDecrement (c : CoreId) (n : ChanId) (w : Word) (s : State) : Result :=
  writeRow 0x01800000 0x00800000 c n w s

/-- CNT.src=FIXED, format CNT (R152). -/
def execCntSrcFixed (c : CoreId) (n : ChanId) (w : Word) (s : State) : Result :=
  writeRow 0x01800000 0x01000000 c n w s

/-- CNT.src=RESERVED_AS_INCREMENT, format CNT (R152). -/
def execCntSrcReservedAsIncrement (c : CoreId) (n : ChanId) (w : Word) (s : State) : Result :=
  writeRow 0x01800000 0x01800000 c n w s

/-- CNT.width=16, format CNT (R146). -/
def execCntWidth16 (c : CoreId) (n : ChanId) (w : Word) (s : State) : Result :=
  writeRow 0x04000000 0x00000000 c n w s

/-- CNT.width=32, format CNT (R146). -/
def execCntWidth32 (c : CoreId) (n : ChanId) (w : Word) (s : State) : Result :=
  writeRow 0x04000000 0x04000000 c n w s

/-- CNT.repeat, format CNT (R145). -/
def execCntRepeat (c : CoreId) (n : ChanId) (w : Word) (s : State) : Result :=
  writeRow 0x02000000 0x02000000 c n w s

/-- CNT.irq_en, format CNT (R320). -/
def execCntIrqEn (c : CoreId) (n : ChanId) (w : Word) (s : State) : Result :=
  writeRow 0x40000000 0x40000000 c n w s

/-- CNT.enable, format CNT (R204). -/
def execCntEnable (c : CoreId) (n : ChanId) (w : Word) (s : State) : Result :=
  writeRow 0x80000000 0x80000000 c n w s

/-- CNT.count, format CNT (R157). -/
def execCntCount (c : CoreId) (n : ChanId) (w : Word) (s : State) : Result :=
  writeRow 0x00000000 0x00000000 c n w s

end Sys2Proof.Machine
end

