-- ==== Sys2Proof/Machine/HostPorts.lean ====
section
/-!
DEFINITION. The host ports RESET, SAVE and RESTORE (44_host_ports.md R360 to R367,
70_reset_and_hazards.md R440 to R443).
-/
namespace Sys2Proof.Machine

/-! ## RESET -/

/-- A channel after RESET: everything but its identity (R440). -/
def resetChannel (ch : Channel) : Channel := Channel.reset ch.cpuCore ch.channelNumber

/-- A set after RESET (R440). -/
def resetSet (S : ChannelSet) : ChannelSet where
  chans := S.chans.mapIdx fun _ ch => resetChannel ch
  executing := none
  stallBits := 0
  share := []
  slot := Slot.reset

/-- RESET (R440): it calls no primitive (R442) and leaves parameters and environment alone (R443). -/
def execResetBlock (s : State) : Result :=
  .next { s with sets := ⟨resetSet s.sets.core0, resetSet s.sets.core1⟩ }

/-! ## SAVE -/

/-- A flag as a word (R362). -/
def boolWord (b : Bool) : Word := if b then 1 else 0

/-- An increment as an i32 word (R362). -/
def incWord : Inc → Word
  | .up => 1
  | .fixed => 0
  | .down => 0xFFFFFFFF

/-- The section id of channel (c, n): 'D', 'M', 'A' and a digit (R364). -/
def channelId (c : CoreId) (n : ChanId) : Word :=
  0x00414D44 ||| (BitVec.ofNat 32 (0x30 + 4 * c.toNat + n.toNat) <<< 24)

/-- The section id of set c: 'D', 'M', 'S' and a digit (R364). -/
def setId (c : CoreId) : Word := 0x00534D44 ||| (BitVec.ofNat 32 (0x30 + c.toNat) <<< 24)

/-- `ChannelSection(c, n)` (R362). -/
def channelSection (c : CoreId) (n : ChanId) (ch : Channel) : List Word :=
  [ channelId c n,
    BitVec.ofNat 32 ch.cpuCore.toNat,
    BitVec.ofNat 32 ch.channelNumber.toNat,
    ch.srcAddr,
    ch.dstAddr,
    ch.controlWord,
    ch.curSrcAddr,
    ch.curDstAddr,
    ch.remainingCount,
    ch.iterationCount,
    incWord ch.srcInc,
    incWord ch.dstInc,
    BitVec.ofNat 32 ch.running.toNat,
    boolWord ch.inProgress,
    boolWord ch.queued,
    boolWord ch.isGpuFifoTransfer,
    BitVec.ofNat 32 ch.startMode.code,
    boolWord ch.extStall ]

/-- The two words of a share entry (R363). -/
def shareWords (e : ShareEntry) : List Word := [boolWord e.valid, BitVec.ofNat 32 e.owner.toNat]

/-- The share words of the banks, in increasing bank id (R363). -/
def shareSection (share : List (Nat × ShareEntry)) : List Nat → List Word
  | [] => []
  | b :: bs => shareWords (shareAt share b) ++ shareSection share bs

/-- `SetSection(c)` (R363). -/
def setSection (bankIds : List Nat) (c : CoreId) (S : ChannelSet) : List Word :=
  [ setId c,
    S.stallBits.setWidth 32,
    boolWord S.slot.busy,
    BitVec.ofNat 32 S.slot.width.bits,
    BitVec.ofNat 32 S.slot.channel.toNat ] ++ shareSection S.share bankIds

/-- The channel sections of a set, in order (R361). -/
def channelSections (c : CoreId) (S : ChannelSet) : List Word :=
  channelSection c .ch0 S.chans.ch0 ++ channelSection c .ch1 S.chans.ch1
    ++ channelSection c .ch2 S.chans.ch2 ++ channelSection c .ch3 S.chans.ch3

/-- `Save()` (R361): all channel sections, then the set sections. -/
def saveVector (cfg : Config) (sets : PerCore ChannelSet) : List Word :=
  channelSections .core0 sets.core0 ++ channelSections .core1 sets.core1
    ++ setSection (banks cfg) .core0 sets.core0 ++ setSection (banks cfg) .core1 sets.core1

/-- SAVE (R361). -/
def execSave (s : State) : Result := .next { s with reply := saveVector s.cfg s.sets }

/-! ## RESTORE -/

/-- A flag word, 0 or 1 (R366). -/
def wordBool (w : Word) : Option Bool := if w = 0 then some false else if w = 1 then some true else none

/-- An increment word, one of -1, 0, +1 (R366). -/
def wordInc (w : Word) : Option Inc :=
  if w = 1 then some .up else if w = 0 then some .fixed else if w = 0xFFFFFFFF then some .down else none

/-- A marker word, 0..3 (R366). -/
def wordMarker (w : Word) : Option Marker :=
  match w.toNat with
  | 0 => some .idle
  | 1 => some .continuing
  | 2 => some .interrupted
  | 3 => some .justStarted
  | _ => none

/-- A channel word, 0..3 (R366). -/
def wordChan (w : Word) : Option ChanId :=
  match w.toNat with
  | 0 => some .ch0
  | 1 => some .ch1
  | 2 => some .ch2
  | 3 => some .ch3
  | _ => none

/-- A width word, 16 or 32 (R366). -/
def wordWidth (w : Word) : Option UnitWidth :=
  if w = 16 then some .w16 else if w = 32 then some .w32 else none

/-- A start-mode word: an event the core's decode can produce (R366). -/
def wordEvent (v : Variant) (w : Word) : Option StartEvent :=
  (eventOfCode w.toNat).filter (producible v)

/-- The invariants of R46 on one channel, as R366 checks them. -/
def channelOk (cfg : Config) (c : CoreId) (n : ChanId) (ch : Channel) : Bool :=
  decide (ch.remainingCount.toNat ≤ (countMask cfg c n).toNat + 1)
    && decide (ch.iterationCount ≤ ch.remainingCount)
    && (decide (ch.running = .idle) || ch.inProgress)

/-- A busy slot names a channel that is running with units left in its slice (R46, R366). -/
def slotOk (S : ChannelSet) : Bool :=
  !S.slot.busy || (decide ((S.chan S.slot.channel).running ≠ .idle)
    && decide ((S.chan S.slot.channel).iterationCount ≠ 0))

/-- The channel a section describes and the words after it, if the section is well formed (R362, R366). The
identity is that of the place (R365). -/
def readChannel (cfg : Config) (c : CoreId) (n : ChanId) : List Word → Option (Channel × List Word)
  | w0 :: w1 :: w2 :: w3 :: w4 :: w5 :: w6 :: w7 :: w8 :: w9 :: w10 :: w11 :: w12 :: w13 :: w14 :: w15 :: w16 ::
      w17 :: rest =>
    if w0 = channelId c n ∧ w1 = BitVec.ofNat 32 c.toNat ∧ w2 = BitVec.ofNat 32 n.toNat then do
      let srcInc ← wordInc w10
      let dstInc ← wordInc w11
      let running ← wordMarker w12
      let inProgress ← wordBool w13
      let queued ← wordBool w14
      let fifo ← wordBool w15
      let mode ← wordEvent (cfg.variant.get c) w16
      let extStall ← wordBool w17
      let ch : Channel := ⟨w3, w4, w5, mode, srcInc, dstInc, w6, w7, w8, w9, running, inProgress, queued, fifo,
        extStall, c, n⟩
      if channelOk cfg c n ch then some (ch, rest) else none
    else none
  | _ => none

/-- The share table the words of the banks describe and the words after them (R363, R366). R366's ranges name the
owners only; that a `valid` word other than the 0 and 1 of R363 is refused is the model's choice
(notes/assumptions/30.md). -/
def readShare : List Nat → List Word → Option (List (Nat × ShareEntry) × List Word)
  | [], rest => some ([], rest)
  | b :: bs, v :: o :: rest => do
    let valid ← wordBool v
    let owner ← wordChan o
    let r ← readShare bs rest
    some (shareSet r.1 b ⟨valid, owner⟩, r.2)
  | _ :: _, _ => none

/-- The channels of a set and the words after their sections (R361, R362). -/
def readChannels (cfg : Config) (c : CoreId) (ws : List Word) : Option (PerChan Channel × List Word) := do
  let r0 ← readChannel cfg c .ch0 ws
  let r1 ← readChannel cfg c .ch1 r0.2
  let r2 ← readChannel cfg c .ch2 r1.2
  let r3 ← readChannel cfg c .ch3 r2.2
  some (⟨r0.1, r1.1, r2.1, r3.1⟩, r3.2)

/-- The set a set section describes, over channels already read, and the words after it (R363, R365, R366). -/
def readSet (bankIds : List Nat) (c : CoreId) (chans : PerChan Channel) :
    List Word → Option (ChannelSet × List Word)
  | w0 :: w1 :: w2 :: w3 :: w4 :: rest =>
    if w0 = setId c ∧ w1 ≤ 15 then do
      let busy ← wordBool w2
      let width ← wordWidth w3
      let channel ← wordChan w4
      let r ← readShare bankIds rest
      let S : ChannelSet := ⟨chans, none, w1.setWidth 4, r.1, ⟨busy, width, channel⟩⟩
      if slotOk S then some (S, r.2) else none
    else none
  | _ => none

/-- Both sets of a well-formed vector, `none` of any other (R366). A vector of the wrong length leaves words
over or ends early. -/
def readVector (cfg : Config) (vec : List Word) : Option (PerCore ChannelSet) := do
  let k0 ← readChannels cfg .core0 vec
  let k1 ← readChannels cfg .core1 k0.2
  let r0 ← readSet (banks cfg) .core0 k0.1 k1.2
  let r1 ← readSet (banks cfg) .core1 k1.1 r0.2
  if r1.2 = [] then some ⟨r0.1, r1.1⟩ else none

/-- A loaded channel keeps the identity it had (R45, R365). -/
def keepIdentity (old new : ChannelSet) : ChannelSet :=
  { new with
    chans := new.chans.mapIdx fun n ch =>
      { ch with cpuCore := (old.chan n).cpuCore, channelNumber := (old.chan n).channelNumber } }

/-- RESTORE (R365): the sets of a well-formed vector; of any other, only the refusal mark (R172, R366). -/
def execRestore (vec : List Word) (s : State) : Result :=
  match readVector s.cfg vec with
  | some sets =>
    .next { s with sets := ⟨keepIdentity s.sets.core0 sets.core0, keepIdentity s.sets.core1 sets.core1⟩ }
  | none => .next s.refuse

end Sys2Proof.Machine
end

