-- ==== Sys2Proof/Machine/Sequencer.lean ====
section
/-!
DEFINITION. The arbiter, the slice sequencer, the main-RAM hand-off and the external stall
(43_run_sequencer.md).
-/
namespace Sys2Proof.Machine

/-- How the loop of a slice ended (R304): the cap, the budget or a stall, after which the post-loop steps
follow; or a unit with an end in main RAM, after which Run returns without them. -/
inductive SliceEnd
  | cap
  | budget
  | stall
  | mainRam
  deriving DecidableEq, Repr

/-- A channel after one of its units: addresses advanced, counts one lower (R310, R311, R322). -/
def commitUnit (w : UnitWidth) (ch : Channel) : Channel :=
  { ch with
    curSrcAddr := advance ch.curSrcAddr ch.srcInc w
    curDstAddr := advance ch.curDstAddr ch.dstInc w
    iterationCount := ch.iterationCount - 1
    remainingCount := ch.remainingCount - 1 }

/-- The set after a unit of channel `n` (R313, R310, R311). -/
def afterUnit (cfg : Config) (c : CoreId) (n : ChanId) (w : UnitWidth) (S : ChannelSet) : ChannelSet :=
  let ch := S.chan n
  { S with share := updateShare cfg c n ch.curSrcAddr ch.curDstAddr ch.srcInc ch.dstInc S.share }.setChan n
    (commitUnit w ch)

/-- `HandOff(c, n)` (R314), or the wait for a slot another channel holds (R315). -/
def handOffOrWait (cfg : Config) (c : CoreId) (n : ChanId) (S : ChannelSet) : ChannelSet :=
  let ch := S.chan n
  let S1 := S.setChan n { ch with running := .interrupted }
  if S.slot.busy then S1
  else
    { S1 with
      slot := ⟨true, widthOf ch.controlWord, n⟩
      share := shareClose (shareClose S.share (bankAt cfg c ch.curSrcAddr)) (bankAt cfg c ch.curDstAddr) }

/-- Leaving a Run: the stall request is used up and no slice is being performed (R318, R326). -/
def leaveRun (n : ChanId) (S : ChannelSet) : ChannelSet :=
  { S with executing := none }.setChan n { S.chan n with extStall := false }

/-- The marker for the next slice (R317). -/
def endMarker (e : SliceEnd) : Marker :=
  match e with
  | .cap => .continuing
  | .budget => .interrupted
  | .stall => .interrupted
  | .mainRam => .interrupted

/-- The post-loop steps of Run (R304, R317 to R320). -/
def endSlice (cfg : Config) (c : CoreId) (n : ChanId) (e : SliceEnd) (S : ChannelSet) : ChannelSet × List Event :=
  let S1 := leaveRun n (S.setChan n { S.chan n with running := endMarker e })
  if (S1.chan n).remainingCount ≠ 0 then
    if (S1.chan n).iterationCount = 0 then sliceBoundary c n S1 else (S1, [])
  else complete cfg c n S1

/-- The cost of channel (c, n)'s next unit at burst position `pos` (R307). -/
def State.nextCost (s : State) (c : CoreId) (n : ChanId) (pos : Int) : Nat :=
  let ch := s.chan c n
  unitCost s.cfg c (widthOf ch.controlWord) ch.curSrcAddr ch.curDstAddr pos

/-- The time of a unit added to `ts(c)`; past the ranges of R23 and R276 the model stops (R307, R404). -/
def State.addCost (s : State) (c : CoreId) (cost : Nat) : Except Fault State :=
  if 2 ^ 32 ≤ cost then .error .costOverflow
  else if 2 ^ 64 ≤ (s.ts.get c).toNat + scaledCost s.cfg c cost then .error .timestampOverflow
  else .ok { s with ts := s.ts.set c (BitVec.ofNat 64 ((s.ts.get c).toNat + scaledCost s.cfg c cost)) }

/-- A unit's two bus accesses, read then write (R107, R309). -/
def State.moveUnit (s : State) (c : CoreId) (src dst : Word) (w : UnitWidth) : State :=
  (s.afterRead c src w).afterWrite c dst w (s.readValue c src w)

/-- One unit of channel (c, n) at burst position `pos`: cost, read, write, share update, advance, then the
start events the write caused (R307 to R313). -/
def performUnit (c : CoreId) (n : ChanId) (pos : Int) (s : State) : Except Fault State :=
  let ch := s.chan c n
  let w := widthOf ch.controlWord
  match s.addCost c (s.nextCost c n pos) with
  | .error f => .error f
  | .ok s1 =>
    .ok (((s1.moveUnit c ch.curSrcAddr ch.curDstAddr w).onSetQuiet c (afterUnit s.cfg c n w)).triggers
      s.nextReply.events)

/-- The loop of Run (R304). Its first argument bounds the units; `run` gives it the slice's count. -/
def sliceLoop (c : CoreId) (n : ChanId) : Nat → Int → State → Except Fault (SliceEnd × State)
  | 0, _, s => .ok (.cap, s)
  | k + 1, pos, s =>
    if (s.chan c n).iterationCount = 0 then .ok (.cap, s)
    else if (s.chan c n).extStall then .ok (.stall, s)
    else if touchesMainRam s.cfg c (s.chan c n).curSrcAddr (s.chan c n).curDstAddr then
      .ok (.mainRam, s.onSetQuiet c (handOffOrWait s.cfg c n))
    else
      match performUnit c n pos s with
      | .error f => .error f
      | .ok s1 =>
        if s1.target.get c ≤ s1.ts.get c then .ok (.budget, s1)
        else sliceLoop c n k (pos - 1) s1

/-- Run makes no progress: the budget is spent (R302), or the channel is idle, disabled or waits for its own
unit (R303). -/
def runBlocked (c : CoreId) (n : ChanId) (s : State) : Bool :=
  decide (s.target.get c ≤ s.ts.get c) || decide ((s.chan c n).running = .idle)
    || !enableBit (s.chan c n).controlWord || ((s.set c).slot.busy && decide ((s.set c).slot.channel = n))

/-- The steps of Run after its loop: those of a slice left for main RAM, or the post-loop steps (R304). -/
def finishRun (c : CoreId) (n : ChanId) (e : SliceEnd) (s : State) : State :=
  match e with
  | .mainRam => s.onSetQuiet c (leaveRun n)
  | .cap => s.onSet c (endSlice s.cfg c n .cap)
  | .budget => s.onSet c (endSlice s.cfg c n .budget)
  | .stall => s.onSet c (endSlice s.cfg c n .stall)

/-- Run's entry: the channel is the one whose slice is performed (R326). -/
def enterRun (c : CoreId) (n : ChanId) (s : State) : State :=
  s.onSetQuiet c fun S => { S with executing := some n }

/-- `Run(c, n)`, one slice (R304). -/
def run (c : CoreId) (n : ChanId) (s : State) : Except Fault State :=
  if runBlocked c n s then .ok s
  else
    match sliceLoop c n (s.chan c n).iterationCount.toNat (firstPos s.cfg (s.chan c n).running) (enterRun c n s) with
    | .error f => .error f
    | .ok (e, s1) => .ok (finishRun c n e s1)

/-- The arbiter's scan of the channels still to be visited (R300). -/
def tickFrom (c : CoreId) : List ChanId → State → Except Fault State
  | [], s => .ok s
  | n :: ns, s =>
    if selectable (s.set c) n then
      match run c n s with
      | .error f => .error f
      | .ok s1 => if (s1.chan c n).running ≠ .idle then .ok s1 else tickFrom c ns s1
    else tickFrom c ns s

/-- `Tick(c)` (R300). -/
def tick (c : CoreId) (s : State) : Except Fault State := tickFrom c allChans s

/-- The commit of the unit in the slot (R322). -/
def commitSlot (S : ChannelSet) : ChannelSet :=
  { S.setChan S.slot.channel (commitUnit S.slot.width (S.chan S.slot.channel)) with
    slot := { S.slot with busy := false } }

/-- A slice's result as the step's outcome: on an overflow the model stops (R404). -/
def outcome (r : Except Fault State) : Result :=
  match r with
  | .error f => .fault f
  | .ok s => .next s

/-- TICK (R300). -/
def execTick (c : CoreId) (s : State) : Result := outcome (tick c s)

/-- MRAM_DONE (R322, R323): the commit, then the arbiter; nothing while the slot is empty. -/
def execMramDone (c : CoreId) (s : State) : Result :=
  if (s.set c).slot.busy then outcome (tick c (s.onSetQuiet c commitSlot)) else .next s

/-- XSTALL (R324). -/
def execXstall (c : CoreId) (n : ChanId) (s : State) : Result :=
  .next (s.onSetQuiet c fun S => S.setChan n { S.chan n with extStall := true })

end Sys2Proof.Machine
end

