-- ==== Sys2Proof/Machine/Trigger.lean ====
section
/-!
DEFINITION. TRIG (41_start_trigger.md R230 to R232).
-/
namespace Sys2Proof.Machine

/-- TRIG (R230). -/
def execTrig (c : CoreId) (ev : StartEvent) (s : State) : Result := .next (s.trigger c ev)

end Sys2Proof.Machine
end

