-- ==== Sys2Proof/Machine/Dispatch.lean ====
section
/-!
DEFINITION. Which meaning each instruction has: one arm per constructor of `Instr`.
-/
namespace Sys2Proof.Machine

def exec (i : Instr) (s : State) : Host.Outcome State Fault Refusal :=
  match i with
  | .wrSad c n be d => Sys2Proof.Machine.execWrSad c n be d s
  | .wrDad c n be d => Sys2Proof.Machine.execWrDad c n be d s
  | .wrCnt c n be d => Sys2Proof.Machine.execWrCnt c n be d s
  | .rdSad c n => Sys2Proof.Machine.execRdSad c n s
  | .rdDad c n => Sys2Proof.Machine.execRdDad c n s
  | .rdCnt c n => Sys2Proof.Machine.execRdCnt c n s
  | .trig c ev => Sys2Proof.Machine.execTrig c ev s
  | .tick c => Sys2Proof.Machine.execTick c s
  | .mramDone c => Sys2Proof.Machine.execMramDone c s
  | .xstall c n => Sys2Proof.Machine.execXstall c n s
  | .resetBlock => Sys2Proof.Machine.execResetBlock s
  | .save => Sys2Proof.Machine.execSave s
  | .restore vec => Sys2Proof.Machine.execRestore vec s
  | .cntStartImmediateWide c n w => Sys2Proof.Machine.execCntStartImmediateWide c n w s
  | .cntStartVblankWide c n w => Sys2Proof.Machine.execCntStartVblankWide c n w s
  | .cntStartHblankWide c n w => Sys2Proof.Machine.execCntStartHblankWide c n w s
  | .cntStartDisplayStartWide c n w => Sys2Proof.Machine.execCntStartDisplayStartWide c n w s
  | .cntStartMainMemDisplayWide c n w => Sys2Proof.Machine.execCntStartMainMemDisplayWide c n w s
  | .cntStartCartWide c n w => Sys2Proof.Machine.execCntStartCartWide c n w s
  | .cntStartGbaSlotWide c n w => Sys2Proof.Machine.execCntStartGbaSlotWide c n w s
  | .cntStartGxFifoWide c n w => Sys2Proof.Machine.execCntStartGxFifoWide c n w s
  | .cntStartImmediateNarrow c n w => Sys2Proof.Machine.execCntStartImmediateNarrow c n w s
  | .cntStartVblankNarrow c n w => Sys2Proof.Machine.execCntStartVblankNarrow c n w s
  | .cntStartCartNarrow c n w => Sys2Proof.Machine.execCntStartCartNarrow c n w s
  | .cntStartWifiGbaNarrow c n w => Sys2Proof.Machine.execCntStartWifiGbaNarrow c n w s
  | .cntDstIncrement c n w => Sys2Proof.Machine.execCntDstIncrement c n w s
  | .cntDstDecrement c n w => Sys2Proof.Machine.execCntDstDecrement c n w s
  | .cntDstFixed c n w => Sys2Proof.Machine.execCntDstFixed c n w s
  | .cntDstIncrementReload c n w => Sys2Proof.Machine.execCntDstIncrementReload c n w s
  | .cntSrcIncrement c n w => Sys2Proof.Machine.execCntSrcIncrement c n w s
  | .cntSrcDecrement c n w => Sys2Proof.Machine.execCntSrcDecrement c n w s
  | .cntSrcFixed c n w => Sys2Proof.Machine.execCntSrcFixed c n w s
  | .cntSrcReservedAsIncrement c n w => Sys2Proof.Machine.execCntSrcReservedAsIncrement c n w s
  | .cntWidth16 c n w => Sys2Proof.Machine.execCntWidth16 c n w s
  | .cntWidth32 c n w => Sys2Proof.Machine.execCntWidth32 c n w s
  | .cntRepeat c n w => Sys2Proof.Machine.execCntRepeat c n w s
  | .cntIrqEn c n w => Sys2Proof.Machine.execCntIrqEn c n w s
  | .cntEnable c n w => Sys2Proof.Machine.execCntEnable c n w s
  | .cntCount c n w => Sys2Proof.Machine.execCntCount c n w s

end Sys2Proof.Machine
end

