-- ==== Sys2Proof/Machine/Fetch.lean ====
section
/-!
DEFINITION. Which input the next step takes, and the inputs that are no instructions.
-/
namespace Sys2Proof.Machine

/-- The next input and the state without it: register accesses the bus still delivers come first, in write
order (R456), then the inbox, oldest first. -/
def fetchInput (s : State) : Option (Input × State) :=
  match s.delivered with
  | i :: r => some (i, { s with delivered := r })
  | [] =>
    match s.inbox with
    | i :: r => some (i, { s with inbox := r })
    | [] => none

/-- The state after an input that is no instruction: a directive sets the environment (R174); a refused
command sets the refusal mark and nothing else (R172); what the block does not answer changes nothing
(R101). -/
def applyOther (e : DecodeError) (i : Input) (s : State) : State :=
  match i with
  | .setTs c v => s.setTs c v
  | .setTarget c v => s.setTarget c v
  | .setMem c a w v => s.setMem c a w v
  | .command _ => if e.isRefusedCommand then s.refuse else s
  | .busWrite _ _ _ _ => s
  | .busRead _ _ => s
  | .control _ _ _ _ => s

/-- The table word as the next input: before everything else the block is given. -/
def placeTableWord (s : State) (nbits w : Nat) : State :=
  { s with delivered := tableInput nbits w :: s.delivered }

end Sys2Proof.Machine
end

