-- ==== Sys2Proof/Machine/Step.lean ====
section
/-!
DEFINITION. One step of the machine: one input (R6). A machine with no input waits.
-/
namespace Sys2Proof.Machine

def step (s : State) : Host.Outcome State Fault Refusal :=
  match fetchInput s with
  | none => .next s
  | some (i, s1) =>
    match decodeInput s1.cfg i with
    | .ok instr => exec instr s1
    | .error e => .next (applyOther e i s1)

/-- The state whose next step takes the instruction of a table row's bits (notes/assumptions/4.md). -/
def State.withFetchWord (s : State) (nbits w : Nat) : State := placeTableWord s nbits w

end Sys2Proof.Machine
end

