-- ==== Sys2Proof/Safety.lean ====
section
/-!
DEFINITION. What counts as a good state and a safe run, in the terms the statements use: the invariants of
10_state.md R46, R47 and R51, the ranges of 42_timing_engine.md R276 and 60_exceptions.md R404, and what
"the rest is unchanged" means.
-/
namespace Sys2Proof.Machine

/-- The invariants of one channel (R35, R38, R39, R45, R46, R47). -/
structure ChannelInv (cfg : Config) (c : CoreId) (n : ChanId) (ch : Channel) : Prop where
  /-- R38, R47. -/
  remaining_le : ch.remainingCount.toNat ≤ (countMask cfg c n).toNat + 1
  /-- R39, R46. -/
  iteration_le : ch.iterationCount ≤ ch.remainingCount
  /-- R46: `running != 0` implies `in_progress`. -/
  running_inProgress : ch.running ≠ .idle → ch.inProgress = true
  /-- The start mode is one the core's decode produces (R35, R155, R156), or that of reset. -/
  mode_producible : producible (cfg.variant.get c) ch.startMode = true
  /-- The identity (R45). -/
  core_eq : ch.cpuCore = c
  chan_eq : ch.channelNumber = n

/-- The invariants of one channel set, which hold within a slice too (R46, R60). -/
structure SetInv (cfg : Config) (c : CoreId) (S : ChannelSet) : Prop where
  chans : ∀ n, ChannelInv cfg c n (S.chan n)
  /-- A busy slot names a channel with `running != 0` and `iteration_count > 0` (R46). -/
  slot_ok : slotOk S = true
  /-- The share table is in its canonical form and lists banks of the configuration only (R60). -/
  share_form : storeWf ShareEntry.reset S.share = true
  share_banks : ∀ p ∈ S.share, p.1 ∈ banks cfg

/-- The machine's invariant between steps. -/
structure Inv (s : State) : Prop where
  sets : ∀ c, SetInv s.cfg c (s.set c)
  /-- Outside a step no slice is being performed (R51). -/
  waiting : ∀ c, (s.set c).executing = none
  memory : ∀ c, Memory.wf (s.mem.get c) = true

/-- Every entry of core `c`'s cost table is below 2^31, so that no unit's cost overflows (R404). -/
def CostsInRange (cfg : Config) (c : CoreId) : Prop :=
  ∀ k : Nat, (tableGet (cfg.tables.costTable.get c) k).n16.toNat < 2 ^ 31
    ∧ (tableGet (cfg.tables.costTable.get c) k).s16.toNat < 2 ^ 31
    ∧ (tableGet (cfg.tables.costTable.get c) k).n32.toNat < 2 ^ 31
    ∧ (tableGet (cfg.tables.costTable.get c) k).s32.toNat < 2 ^ 31

/-- No unit of core `c` can bring its timestamp past 2^64-1: the costs are in range, and the budget ends
2^35 cycles before (a unit starts only below the budget and adds less than 2^35 cycles). -/
def TimeInRange (s : State) (c : CoreId) : Prop :=
  CostsInRange s.cfg c ∧ (s.target.get c).toNat + 2 ^ 35 ≤ 2 ^ 64

/-- A unit at these addresses is an ordinary memory access: the bus answers with the memory and
no start event, both addresses are aligned, and neither lies in the register window. -/
def PlainUnit (s : State) (src dst : Word) (w : UnitWidth) : Prop :=
  s.nextReply = ⟨none, []⟩ ∧ unitAligned src w = true ∧ unitAligned dst w = true
    ∧ windowSlot s.cfg src = none ∧ windowSlot s.cfg dst = none

/-- A unit at these addresses ends in the register window: as `PlainUnit`, but the destination is one of the
window's registers (R456). -/
def WindowUnit (s : State) (src dst : Word) (w : UnitWidth) : Prop :=
  s.nextReply = ⟨none, []⟩ ∧ unitAligned src w = true ∧ unitAligned dst w = true
    ∧ windowSlot s.cfg src = none ∧ (windowSlot s.cfg dst).isSome = true

/-- The state with one channel replaced: everything else is as it was. -/
def State.putChan (s : State) (c : CoreId) (n : ChanId) (ch : Channel) : State :=
  { s with sets := s.sets.set c ((s.set c).setChan n ch) }

/-- The state with one channel set replaced: everything else is as it was. -/
def State.putSet (s : State) (c : CoreId) (S : ChannelSet) : State :=
  { s with sets := s.sets.set c S }

/-- A command header the block refuses (R172), field by field: a reserved op, nonzero high bits, the reserved
register, a reserved TRIG event, or a nonzero field that the op does not use (R171). -/
def RefusedHeader (h : Word) : Prop :=
  9 ≤ (bitField 0 4 h).toNat
    ∨ bitField 17 15 h ≠ 0
    ∨ bitField 7 2 h = 3
    ∨ ((bitField 0 4 h).toNat = 2 ∧ 9 ≤ (bitField 13 4 h).toNat)
    ∨ (bitField 4 1 h ≠ 0 ∧ 6 ≤ (bitField 0 4 h).toNat)
    ∨ (bitField 5 2 h ≠ 0 ∧ (bitField 0 4 h).toNat ∉ [0, 1, 5])
    ∨ (bitField 7 2 h ≠ 0 ∧ 2 ≤ (bitField 0 4 h).toNat)
    ∨ (bitField 9 4 h ≠ 0 ∧ (bitField 0 4 h).toNat ≠ 0)
    ∨ (bitField 13 4 h ≠ 0 ∧ (bitField 0 4 h).toNat ≠ 2)

/-- The word a byte-enabled write of `d` over `old` leaves, bit by bit (R201). -/
def MergedLanes (old : Word) (be : BitVec 4) (d m : Word) : Prop :=
  ∀ i : Nat, i < 32 → m.getLsbD i = if be.getLsbD (i / 8) then d.getLsbD i else old.getLsbD i

/-- The write takes channel (c, n)'s enable bit from 0 to 1 (R204). -/
def EnableEdge (s : State) (c : CoreId) (n : ChanId) (val : Word) : Prop :=
  (s.chan c n).controlWord.getLsbD 31 = false ∧ val.getLsbD 31 = true

/-- What the enabling write of `val` latches in the channel (R205 to R207). -/
def Latched (cfg : Config) (c : CoreId) (val : Word) (ch : Channel) : Channel :=
  { ch with
    controlWord := val
    curSrcAddr := ch.srcAddr
    curDstAddr := ch.dstAddr
    dstInc := dstIncOf val
    srcInc := srcIncOf val
    startMode := decodeStart (cfg.variant.get c) val }

/-- Channel (c, n) waits for the event (R231). -/
def ArmedOn (s : State) (c : CoreId) (n : ChanId) (ev : StartEvent) : Prop :=
  (s.chan c n).controlWord.getLsbD 31 = true ∧ (s.chan c n).startMode = ev

/-- A TICK of core `c` lets channel `n` enter a slice: it is the selectable channel of the highest priority
(R300), the budget is not spent (R302), and no unit of its own is handed off (R303). -/
structure Enters (s : State) (c : CoreId) (n : ChanId) : Prop where
  selectable : selectable (s.set c) n = true
  first : ∀ m : ChanId, m.toNat < n.toNat → Machine.selectable (s.set c) m = false
  budget : s.ts.get c < s.target.get c
  ownSlot : (s.set c).slot.busy = true → (s.set c).slot.channel ≠ n

/-- No other channel of core `c` can be scheduled (R301). -/
def OthersQuiet (s : State) (c : CoreId) (n : ChanId) : Prop :=
  ∀ m : ChanId, m ≠ n → selectable (s.set c) m = false

/-- A TICK of core `c` whose channel `n` has left it with the state `u` goes on with the scan of the lower
channels: its answer is that of a TICK of `u`, in which neither `n` nor a channel above it is selectable
(R300). -/
structure ScanGoesOn (s u : State) (c : CoreId) (n : ChanId) : Prop where
  same : exec (.tick c) s = exec (.tick c) u
  passed : ∀ m : ChanId, m.toNat ≤ n.toNat → selectable (u.set c) m = false

/-- The next unit of channel (c, n) can be performed by the block: a unit is left in the slice, no stall is
requested, and it has no end in main RAM (R304 to R306). -/
structure UnitDue (s : State) (c : CoreId) (n : ChanId) : Prop where
  unitsLeft : (s.chan c n).iterationCount ≠ 0
  notStalled : (s.chan c n).extStall = false
  notMainRam : touchesMainRam s.cfg c (s.chan c n).curSrcAddr (s.chan c n).curDstAddr = false

/-- The cycles the first unit of channel (c, n)'s slice costs (R280, R307). -/
def firstCost (s : State) (c : CoreId) (n : ChanId) : Nat :=
  unitCost s.cfg c (widthOf (s.chan c n).controlWord) (s.chan c n).curSrcAddr (s.chan c n).curDstAddr
    (((s.chan c n).running.toNat : Int) - s.cfg.burstPosBias)

/-- Everything but core `c`'s channel set, the events and the bus's own counters, after one plain unit of
width `w` from `src` to `dst` that costs `cost` cycles: time, memory, and all that is unchanged. -/
structure UnitMoved (s t : State) (c : CoreId) (w : UnitWidth) (src dst : Word) (cost : Nat) : Prop where
  time : (t.ts.get c).toNat = (s.ts.get c).toNat + cost * 2 ^ (s.cfg.costShift.get c).val
  otherTime : ∀ c', c' ≠ c → t.ts.get c' = s.ts.get c'
  stored : ∀ k : Nat, k < w.bytes → readByte (t.mem.get c) (dst + BitVec.ofNat 32 k)
    = readByte (s.mem.get c) (src + BitVec.ofNat 32 k)
  kept : ∀ a : Word, (∀ k : Nat, k < w.bytes → a ≠ dst + BitVec.ofNat 32 k) →
    readByte (t.mem.get c) a = readByte (s.mem.get c) a
  otherMem : ∀ c', c' ≠ c → t.mem.get c' = s.mem.get c'
  otherSet : ∀ c', c' ≠ c → t.set c' = s.set c'
  target : t.target = s.target
  cfg : t.cfg = s.cfg
  reply : t.reply = s.reply
  refusedCommand : t.refusedCommand = s.refusedCommand
  inbox : t.inbox = s.inbox
  delivered : t.delivered = s.delivered

/-- Everything but core `c`'s channel set, the events and the bus's own counters, after one unit of width `w` from
`src` to the register window at `dst` that costs `cost` cycles: no memory changes, and one register write, of the
lanes the unit covers, waits behind those already to be delivered (R456). -/
structure UnitDelivered (s t : State) (c : CoreId) (w : UnitWidth) (src dst : Word) (cost : Nat) : Prop where
  time : (t.ts.get c).toNat = (s.ts.get c).toNat + cost * 2 ^ (s.cfg.costShift.get c).val
  otherTime : ∀ c', c' ≠ c → t.ts.get c' = s.ts.get c'
  delivered : t.delivered = s.delivered
    ++ [.busWrite c dst (laneEnables dst w) (laneData dst w (readUnit (s.mem.get c) src w))]
  mem : t.mem = s.mem
  otherSet : ∀ c', c' ≠ c → t.set c' = s.set c'
  target : t.target = s.target
  cfg : t.cfg = s.cfg
  reply : t.reply = s.reply
  refusedCommand : t.refusedCommand = s.refusedCommand
  inbox : t.inbox = s.inbox

/-- The share table after a unit between banks `bs` and `bd` (R313). -/
def ShareUpdated (n : ChanId) (srcInc dstInc : Inc) (bs bd : Nat) (old new : List (Nat × ShareEntry)) : Prop :=
  ∀ b : Nat, shareAt new b =
    if b = bs ∨ b = bd then
      (if srcInc = .up ∧ dstInc = .up then ⟨true, n⟩ else { shareAt old b with valid := false })
    else shareAt old b

/-- How many units the block performed in a list of calls: each makes one `MemWrite` (R107). -/
def unitsIn (evs : List Event) : Nat :=
  evs.countP fun e => match e with
    | .memWrite _ _ _ _ => true
    | .memRead _ _ _ _ => false
    | .stall _ _ => false
    | .resume _ _ => false
    | .raiseIrq _ _ => false
    | .notifyFifo _ => false
    | .log _ => false

/-- The core an instruction names, if it names one: RESET, SAVE and RESTORE act on both (R170, R171). -/
def coreOf : Instr → Option CoreId
  | .wrSad c _ _ _ => some c
  | .wrDad c _ _ _ => some c
  | .wrCnt c _ _ _ => some c
  | .rdSad c _ => some c
  | .rdDad c _ => some c
  | .rdCnt c _ => some c
  | .trig c _ => some c
  | .tick c => some c
  | .mramDone c => some c
  | .xstall c _ => some c
  | .resetBlock => none
  | .save => none
  | .restore _ => none
  | .cntStartImmediateWide c _ _ => some c
  | .cntStartVblankWide c _ _ => some c
  | .cntStartHblankWide c _ _ => some c
  | .cntStartDisplayStartWide c _ _ => some c
  | .cntStartMainMemDisplayWide c _ _ => some c
  | .cntStartCartWide c _ _ => some c
  | .cntStartGbaSlotWide c _ _ => some c
  | .cntStartGxFifoWide c _ _ => some c
  | .cntStartImmediateNarrow c _ _ => some c
  | .cntStartVblankNarrow c _ _ => some c
  | .cntStartCartNarrow c _ _ => some c
  | .cntStartWifiGbaNarrow c _ _ => some c
  | .cntDstIncrement c _ _ => some c
  | .cntDstDecrement c _ _ => some c
  | .cntDstFixed c _ _ => some c
  | .cntDstIncrementReload c _ _ => some c
  | .cntSrcIncrement c _ _ => some c
  | .cntSrcDecrement c _ _ => some c
  | .cntSrcFixed c _ _ => some c
  | .cntSrcReservedAsIncrement c _ _ => some c
  | .cntWidth16 c _ _ => some c
  | .cntWidth32 c _ _ => some c
  | .cntRepeat c _ _ => some c
  | .cntIrqEn c _ _ => some c
  | .cntEnable c _ _ => some c
  | .cntCount c _ _ => some c

/-- The call raises a completion interrupt. -/
def isIrq : Event → Bool
  | .raiseIrq _ _ => true
  | .memRead _ _ _ _ => false
  | .memWrite _ _ _ _ => false
  | .stall _ _ => false
  | .resume _ _ => false
  | .notifyFifo _ => false
  | .log _ => false

end Sys2Proof.Machine
end

