-- ==== Sys2Proof/WellFormed.lean ====
section
/-!
DEFINITION. Which instructions are well formed. A command's operands are typed by the fields of its
header, so every value of them is (RESTORE's vector is checked by RESTORE itself, 44_host_ports.md R366).
A control-word row needs a control word that carries its code, and a start row a core of its layout.
-/
namespace Sys2Proof

/-- The control word carries the row's code in the row's bits, and core `c` has the layout `v`. -/
def startRowOk (cfg : Config) (v : Variant) (lo len : Nat) (code : BitVec len) (c : CoreId) (w : Word) : Bool :=
  decide (cfg.variant.get c = v) && decide (bitField lo len w = code)

/-- The instruction is one the encoding tables of 30_encoding.md can write for this configuration. -/
def Instr.wellFormed (cfg : Config) : Instr → Bool
  | .wrSad _ _ _ _ => true
  | .wrDad _ _ _ _ => true
  | .wrCnt _ _ _ _ => true
  | .rdSad _ _ => true
  | .rdDad _ _ => true
  | .rdCnt _ _ => true
  | .trig _ _ => true
  | .tick _ => true
  | .mramDone _ => true
  | .xstall _ _ => true
  | .resetBlock => true
  | .save => true
  | .restore _ => true
  | .cntStartImmediateWide c _ w => startRowOk cfg .wide 27 3 0 c w
  | .cntStartVblankWide c _ w => startRowOk cfg .wide 27 3 1 c w
  | .cntStartHblankWide c _ w => startRowOk cfg .wide 27 3 2 c w
  | .cntStartDisplayStartWide c _ w => startRowOk cfg .wide 27 3 3 c w
  | .cntStartMainMemDisplayWide c _ w => startRowOk cfg .wide 27 3 4 c w
  | .cntStartCartWide c _ w => startRowOk cfg .wide 27 3 5 c w
  | .cntStartGbaSlotWide c _ w => startRowOk cfg .wide 27 3 6 c w
  | .cntStartGxFifoWide c _ w => startRowOk cfg .wide 27 3 7 c w
  | .cntStartImmediateNarrow c _ w => startRowOk cfg .narrow 28 2 0 c w
  | .cntStartVblankNarrow c _ w => startRowOk cfg .narrow 28 2 1 c w
  | .cntStartCartNarrow c _ w => startRowOk cfg .narrow 28 2 2 c w
  | .cntStartWifiGbaNarrow c _ w => startRowOk cfg .narrow 28 2 3 c w
  | .cntDstIncrement _ _ w => decide (bitField 21 2 w = 0)
  | .cntDstDecrement _ _ w => decide (bitField 21 2 w = 1)
  | .cntDstFixed _ _ w => decide (bitField 21 2 w = 2)
  | .cntDstIncrementReload _ _ w => decide (bitField 21 2 w = 3)
  | .cntSrcIncrement _ _ w => decide (bitField 23 2 w = 0)
  | .cntSrcDecrement _ _ w => decide (bitField 23 2 w = 1)
  | .cntSrcFixed _ _ w => decide (bitField 23 2 w = 2)
  | .cntSrcReservedAsIncrement _ _ w => decide (bitField 23 2 w = 3)
  | .cntWidth16 _ _ w => decide (bitField 26 1 w = 0)
  | .cntWidth32 _ _ w => decide (bitField 26 1 w = 1)
  | .cntRepeat _ _ w => decide (bitField 25 1 w = 1)
  | .cntIrqEn _ _ w => decide (bitField 30 1 w = 1)
  | .cntEnable _ _ w => decide (bitField 31 1 w = 1)
  | .cntCount _ _ _ => true

end Sys2Proof
end

