-- ==== Sys2Proof/Certificates/Slice0/Obligations.lean ====
section
/-!
DEFINITION. The statements about the model, one `def Obligations.<Name> : Prop` each. Each docstring names the
rules of spec/ it rests on, or says which part is the model's own choice.
-/
section Statements
open Sys2Proof Sys2Proof.Machine

/-! ## Decoding and the step -/

/-- One step runs the next input's instruction, on the state without that input. That inputs come from
`delivered` first and then from `inbox` is the model's choice (notes/assumptions/2.md, 8.md). -/
def Obligations.StepRunsDecodedInstruction : Prop :=
  ∀ (s : State) (x : Input) (rest : List Input) (i : Instr),
    i.wellFormed s.cfg = true → decodeInput s.cfg x = .ok i →
      (s.delivered = x :: rest → step s = exec i { s with delivered := rest })
      ∧ (s.delivered = [] → s.inbox = x :: rest → step s = exec i { s with inbox := rest })

/-- The decoder answers well-formed instructions only (30_encoding.md sections 2 to 7). -/
def Obligations.DecodedInstructionIsWellFormed : Prop :=
  ∀ (cfg : Config) (x : Input) (i : Instr), decodeInput cfg x = .ok i → i.wellFormed cfg = true

/-- R172: a refused header changes nothing but the refusal mark, which stays for the rest of the run. -/
def Obligations.RefusedCommandSetsOnlyTheMark : Prop :=
  (∀ (s : State) (h : Word) (data : List Word) (rest : List Input),
    RefusedHeader h → s.delivered = [] → s.inbox = .command (h :: data) :: rest →
      step s = .next { s with inbox := rest, refusedCommand := true })
  ∧ ∀ s t : State, step s = .next t → s.refusedCommand = true → t.refusedCommand = true

/-- A header that R172 does not refuse is an instruction, with the words R170 gives it. That a command with
another number of words is refused is the model's choice (notes/assumptions/12.md). -/
def Obligations.UnrefusedHeaderDecodes : Prop :=
  ∀ (h : Word) (data : List Word), ¬ RefusedHeader h →
    ((bitField 0 4 h).toNat = 0 → data.length = 1) →
    ((bitField 0 4 h).toNat ≠ 0 → (bitField 0 4 h).toNat ≠ 8 → data = []) →
      ∃ i : Instr, decodeCommand (h :: data) = .ok i

/-- Decode of encode is the instruction, for every well-formed instruction of every configuration. -/
def Obligations.EncodedInstructionDecodesToItself : Prop :=
  ∀ (cfg : Config) (i : Instr), i.wellFormed cfg = true → decodeInput cfg (encode i) = .ok i

/-- An accepted command is the encoding of the instruction it decodes to: no bit of it is ignored. -/
def Obligations.AcceptedCommandEncodesBack : Prop :=
  ∀ (words : List Word) (i : Instr), decodeCommand words = .ok i → encode i = .command words

/-- Headers written out from R170 and R171 (95_test_vectors.md section 3.1). -/
def Obligations.SpecHeadersDecode : Prop :=
  decodeCommand [0b00000000000000000000011000100000, 0x0000AABB] = .ok (.wrSad .core0 .ch1 0x3 0x0000AABB)
  ∧ decodeCommand [0b00000000000000000001111101100000, 0x80000000] = .ok (.wrCnt .core0 .ch3 0xF 0x80000000)
  ∧ decodeCommand [0b00000000000000000000000100000001] = .ok (.rdCnt .core0 .ch0)
  ∧ decodeCommand [0b00000000000000001110000000010010] = .ok (.trig .core1 .gxFifo)
  ∧ decodeCommand [0b00000000000000000000000000010011] = .ok (.tick .core1)
  ∧ decodeCommand [0b00000000000000000000000000000100] = .ok (.mramDone .core0)
  ∧ decodeCommand [0b00000000000000000000000000100101] = .ok (.xstall .core0 .ch1)
  ∧ decodeControl Config.default .core1 .ch0 .start 0x88000001 = .ok (.cntStartVblankWide .core1 .ch0 0x88000001)
  ∧ decodeControl Config.default .core0 .ch0 .start 0x90000001 = .ok (.cntStartVblankNarrow .core0 .ch0 0x90000001)

/-- R140, R101: register r of channel n answers at DMA_REG_BASE + 12 n + 4 r and its three further bytes, for reads
and writes alike; an access at any other address is answered by no register. -/
def Obligations.RegisterWindowAnswersAtItsOffsets : Prop :=
  ∀ (cfg : Config) (c : CoreId) (a : Word) (be : BitVec 4) (d : Word),
    let inWindow (n : ChanId) (r : Reg) := ∃ k : Nat, k < 4 ∧
      a = cfg.regBase + BitVec.ofNat 32 (12 * n.toNat + 4 * r.bits.toNat + k)
    (∀ (n : ChanId) (r : Reg),
      (decodeInput cfg (.busWrite c a be d) = .ok (writeInstr c n r be d) ↔ inWindow n r)
      ∧ (decodeInput cfg (.busRead c a) = .ok (readInstr c n r) ↔ inWindow n r))
    ∧ ((∀ (n : ChanId) (r : Reg), ¬ inWindow n r) →
        decodeInput cfg (.busWrite c a be d) = .error .outsideWindow
        ∧ decodeInput cfg (.busRead c a) = .error .outsideWindow)

/-! ## Register writes and reads -/

/-- R201: WR SAD merges the enabled byte lanes into `src_addr` and changes nothing else. -/
def Obligations.WrSadMergesEnabledLanes : Prop :=
  ∀ (s : State) (c : CoreId) (n : ChanId) (be : BitVec 4) (d : Word),
    ∃ m : Word, MergedLanes (s.chan c n).srcAddr be d m ∧
      exec (.wrSad c n be d) s = .next (s.putChan c n { s.chan c n with srcAddr := m })

/-- R202: WR DAD merges the enabled byte lanes into `dst_addr` and changes nothing else. -/
def Obligations.WrDadMergesEnabledLanes : Prop :=
  ∀ (s : State) (c : CoreId) (n : ChanId) (be : BitVec 4) (d : Word),
    ∃ m : Word, MergedLanes (s.chan c n).dstAddr be d m ∧
      exec (.wrDad c n be d) s = .next (s.putChan c n { s.chan c n with dstAddr := m })

/-- R203, R211, R212: a CNT write that makes no 0-to-1 enable stores the merged word and changes nothing
else. -/
def Obligations.WrCntWithoutEnableEdgeOnlyStores : Prop :=
  ∀ (s : State) (c : CoreId) (n : ChanId) (be : BitVec 4) (d m : Word),
    MergedLanes (s.chan c n).controlWord be d m → ¬ EnableEdge s c n m →
      exec (.wrCnt c n be d) s = .next (s.putChan c n { s.chan c n with controlWord := m })

/-- R206, R207: the latches of a 0-to-1 enable, whatever it starts; and no latch of the start mode while the
channel stays enabled. -/
def Obligations.EnablingWriteLatches : Prop :=
  ∀ (s : State) (c : CoreId) (n : ChanId) (be : BitVec 4) (d m : Word),
    MergedLanes (s.chan c n).controlWord be d m →
      ∃ t : State, exec (.wrCnt c n be d) s = .next t
        ∧ (EnableEdge s c n m →
            (t.chan c n).dstInc = (if bitField 21 2 m = 1 then .down else if bitField 21 2 m = 2 then .fixed else .up)
            ∧ (t.chan c n).srcInc =
                (if bitField 23 2 m = 1 then .down else if bitField 23 2 m = 2 then .fixed else .up)
            ∧ (t.chan c n).startMode = decodeStart (s.cfg.variant.get c) m
            ∧ (t.chan c n).curSrcAddr = (s.chan c n).srcAddr
            ∧ (t.chan c n).curDstAddr = (s.chan c n).dstAddr)
        ∧ ((s.chan c n).controlWord.getLsbD 31 = true →
            (t.chan c n).startMode = (s.chan c n).startMode)

/-- R209 and the deferred arms of R204: an enabling write whose mode is neither IMMEDIATE nor unimplemented
latches, calls NotifyFifo in FIFO mode, and does nothing else. -/
def Obligations.EnablingWriteOfDeferredModeArms : Prop :=
  ∀ (s : State) (c : CoreId) (n : ChanId) (be : BitVec 4) (d m : Word) (ev : StartEvent),
    MergedLanes (s.chan c n).controlWord be d m → EnableEdge s c n m →
    decodeStart (s.cfg.variant.get c) m = ev → ev ≠ .immediate → ev ∉ s.cfg.unimplementedModes →
      exec (.wrCnt c n be d) s =
        .next { s.putChan c n (Latched s.cfg c m (s.chan c n)) with
          events := s.events ++ (if ev = .gxFifo then [Event.notifyFifo c] else []) }

/-- R210: an enabling write of an unimplemented mode logs a warning, latches, starts nothing, and the channel
never fires: a TRIG of that event has no effect. -/
def Obligations.EnablingWriteOfUnimplementedModeOnlyLogs : Prop :=
  ∀ (s : State) (c : CoreId) (n : ChanId) (be : BitVec 4) (d m : Word) (ev : StartEvent),
    MergedLanes (s.chan c n).controlWord be d m → EnableEdge s c n m →
    decodeStart (s.cfg.variant.get c) m = ev → ev ∈ s.cfg.unimplementedModes →
      exec (.wrCnt c n be d) s =
        .next { s.putChan c n (Latched s.cfg c m (s.chan c n)) with
          events := s.events ++
            [.log ⟨.warn, .unimplStart, c, n, ev, (s.chan c n).srcAddr, (s.chan c n).dstAddr⟩] }
      ∧ ∀ u : State, u.cfg = s.cfg → exec (.trig c ev) u = .next u

/-- R208: an enabling write in IMMEDIATE mode runs Start within the same step, after the latches. -/
def Obligations.EnablingWriteOfImmediateModeStarts : Prop :=
  ∀ (s : State) (c : CoreId) (n : ChanId) (be : BitVec 4) (d m : Word),
    MergedLanes (s.chan c n).controlWord be d m → EnableEdge s c n m →
    decodeStart (s.cfg.variant.get c) m = .immediate → StartEvent.immediate ∉ s.cfg.unimplementedModes →
      let latched := s.putChan c n (Latched s.cfg c m (s.chan c n))
      exec (.wrCnt c n be d) s =
        .next { latched.putSet c (startSet s.cfg c n (latched.set c)).1 with
          events := s.events ++ (startSet s.cfg c n (latched.set c)).2 }

/-- R213: RD returns the stored register and has no side effect. -/
def Obligations.RdReturnsTheStoredRegister : Prop :=
  ∀ (s : State) (c : CoreId) (n : ChanId),
    exec (.rdSad c n) s = .next { s with reply := [(s.chan c n).srcAddr] }
    ∧ exec (.rdDad c n) s = .next { s with reply := [(s.chan c n).dstAddr] }
    ∧ exec (.rdCnt c n) s = .next { s with reply := [(s.chan c n).controlWord] }

/-! ## The control-word rows. That a row is a full-width CNT write is the model's choice
(notes/assumptions/3.md). -/

/-- A control-word row without an enable edge stores its word and changes nothing else. -/
def Obligations.ControlRowsOnlyStoreWithoutEnableEdge : Prop :=
  ∀ (s : State) (c : CoreId) (n : ChanId) (w : Word) (i : Instr),
    i ∈ [ Instr.cntStartImmediateWide c n w, .cntStartVblankWide c n w, .cntStartHblankWide c n w,
      .cntStartDisplayStartWide c n w, .cntStartMainMemDisplayWide c n w, .cntStartCartWide c n w,
      .cntStartGbaSlotWide c n w, .cntStartGxFifoWide c n w, .cntStartImmediateNarrow c n w,
      .cntStartVblankNarrow c n w, .cntStartCartNarrow c n w, .cntStartWifiGbaNarrow c n w,
      .cntDstIncrement c n w, .cntDstDecrement c n w, .cntDstFixed c n w, .cntDstIncrementReload c n w,
      .cntSrcIncrement c n w, .cntSrcDecrement c n w, .cntSrcFixed c n w, .cntSrcReservedAsIncrement c n w,
      .cntWidth16 c n w, .cntWidth32 c n w, .cntRepeat c n w, .cntIrqEn c n w, .cntEnable c n w,
      .cntCount c n w ] →
    i.wellFormed s.cfg = true → ¬ EnableEdge s c n w →
      exec i s = .next (s.putChan c n { s.chan c n with controlWord := w })

/-- R155, R156, R207: a start row at a 0-to-1 enable latches its own event, and does what WR CNT of the word
does. -/
def Obligations.StartRowsLatchTheirEvent : Prop :=
  ∀ (s : State) (c : CoreId) (n : ChanId) (w : Word) (i : Instr) (ev : StartEvent),
    (i, ev) ∈ [ (Instr.cntStartImmediateWide c n w, StartEvent.immediate), (.cntStartVblankWide c n w, .vblank),
      (.cntStartHblankWide c n w, .hblank), (.cntStartDisplayStartWide c n w, .displayStart),
      (.cntStartMainMemDisplayWide c n w, .mainMemDisplay), (.cntStartCartWide c n w, .cart),
      (.cntStartGbaSlotWide c n w, .gbaSlot), (.cntStartGxFifoWide c n w, .gxFifo),
      (.cntStartImmediateNarrow c n w, .immediate), (.cntStartVblankNarrow c n w, .vblank),
      (.cntStartCartNarrow c n w, .cart), (.cntStartWifiGbaNarrow c n w, .wifiGba) ] →
    i.wellFormed s.cfg = true → EnableEdge s c n w →
      ∃ t : State, exec i s = .next t ∧ exec (.wrCnt c n 0xF w) s = .next t
        ∧ (t.chan c n).startMode = ev ∧ (t.chan c n).controlWord = w

/-- R151, R152, R206: a dst or src row at a 0-to-1 enable latches its own increment, and does what WR CNT of
the word does. -/
def Obligations.IncrementRowsLatchTheirIncrement : Prop :=
  ∀ (s : State) (c : CoreId) (n : ChanId) (w : Word) (i : Instr) (inc : Inc), EnableEdge s c n w →
    i.wellFormed s.cfg = true →
      ((i, inc) ∈ [ (Instr.cntDstIncrement c n w, Inc.up), (.cntDstDecrement c n w, .down),
          (.cntDstFixed c n w, .fixed), (.cntDstIncrementReload c n w, .up) ] →
        ∃ t : State, exec i s = .next t ∧ exec (.wrCnt c n 0xF w) s = .next t ∧ (t.chan c n).dstInc = inc)
      ∧ ((i, inc) ∈ [ (Instr.cntSrcIncrement c n w, Inc.up), (.cntSrcDecrement c n w, .down),
          (.cntSrcFixed c n w, .fixed), (.cntSrcReservedAsIncrement c n w, .up) ] →
        ∃ t : State, exec i s = .next t ∧ exec (.wrCnt c n 0xF w) s = .next t ∧ (t.chan c n).srcInc = inc)

/-- R34, R145, R146, R148, R149, R157: the live-field rows leave a control word whose field reads as the row
says, and do what WR CNT of the word does. -/
def Obligations.LiveFieldRowsSetTheirField : Prop :=
  ∀ (s : State) (c : CoreId) (n : ChanId) (w : Word),
    ((Instr.cntWidth16 c n w).wellFormed s.cfg = true →
      ∃ t : State, exec (.cntWidth16 c n w) s = .next t ∧ exec (.wrCnt c n 0xF w) s = .next t
        ∧ widthOf (t.chan c n).controlWord = .w16)
    ∧ ((Instr.cntWidth32 c n w).wellFormed s.cfg = true →
      ∃ t : State, exec (.cntWidth32 c n w) s = .next t ∧ exec (.wrCnt c n 0xF w) s = .next t
        ∧ widthOf (t.chan c n).controlWord = .w32)
    ∧ ((Instr.cntRepeat c n w).wellFormed s.cfg = true →
      ∃ t : State, exec (.cntRepeat c n w) s = .next t ∧ exec (.wrCnt c n 0xF w) s = .next t
        ∧ (t.chan c n).controlWord.getLsbD 25 = true)
    ∧ ((Instr.cntIrqEn c n w).wellFormed s.cfg = true →
      ∃ t : State, exec (.cntIrqEn c n w) s = .next t ∧ exec (.wrCnt c n 0xF w) s = .next t
        ∧ (t.chan c n).controlWord.getLsbD 30 = true)
    ∧ ((Instr.cntEnable c n w).wellFormed s.cfg = true →
      ∃ t : State, exec (.cntEnable c n w) s = .next t ∧ exec (.wrCnt c n 0xF w) s = .next t
        ∧ (t.chan c n).controlWord.getLsbD 31 = true)
    ∧ ∃ t : State, exec (.cntCount c n w) s = .next t ∧ exec (.wrCnt c n 0xF w) s = .next t
        ∧ (countField s.cfg c n (t.chan c n).controlWord).toNat
          = w.toNat % 2 ^ ((s.cfg.countBits.get c).get n).val

/-! ## Start -/

/-- R244: a Start while Running queues in a queued mode, and is discarded otherwise; nothing else changes and
nothing is called. -/
def Obligations.StartWhileRunningQueuesOrIsDiscarded : Prop :=
  ∀ (cfg : Config) (c : CoreId) (n : ChanId) (S : ChannelSet), (S.chan n).running ≠ .idle →
    ((S.chan n).startMode ∈ cfg.queueModes →
      startSet cfg c n S = (S.setChan n { S.chan n with queued := true }, []))
    ∧ ((S.chan n).startMode ∉ cfg.queueModes → startSet cfg c n S = (S, []))

/-- R234, R235: the transfer length and the slice cap of a Start that is not refused. -/
def Obligations.StartSetsTheCounts : Prop :=
  ∀ (cfg : Config) (c : CoreId) (n : ChanId) (S : ChannelSet), (S.chan n).running = .idle →
    let ch := (startSet cfg c n S).1.chan n
    let field := (S.chan n).controlWord.toNat % 2 ^ ((cfg.countBits.get c).get n).val
    ((S.chan n).inProgress = true → ch.remainingCount = (S.chan n).remainingCount)
    ∧ ((S.chan n).inProgress = false → ch.remainingCount.toNat
        = if field = 0 then 2 ^ ((cfg.countBits.get c).get n).val else field)
    ∧ ch.iterationCount.toNat
        = if (S.chan n).startMode = .gxFifo then min ch.remainingCount.toNat 112 else ch.remainingCount.toNat

/-- R236, R238: the destination reload, and the FIFO pattern of the addresses after it. -/
def Obligations.StartReloadsAndClassifies : Prop :=
  ∀ (cfg : Config) (c : CoreId) (n : ChanId) (S : ChannelSet), (S.chan n).running = .idle →
    let ch := (startSet cfg c n S).1.chan n
    ch.curSrcAddr = (S.chan n).curSrcAddr
    ∧ ((S.chan n).inProgress = false → bitField 21 2 (S.chan n).controlWord = 3 →
        ch.curDstAddr = (S.chan n).dstAddr)
    ∧ (((S.chan n).inProgress = true ∨ bitField 21 2 (S.chan n).controlWord ≠ 3) →
        ch.curDstAddr = (S.chan n).curDstAddr)
    ∧ (ch.isGpuFifoTransfer = true ↔
        c = cfg.gxFifoCore ∧ ch.curSrcAddr.toNat / 2 ^ 24 = cfg.gxFifoSrcPage.toNat
          ∧ ch.curDstAddr = cfg.gxFifoDstAddr ∧ (S.chan n).dstInc = .fixed)

/-- R237, R239: a Start invalidates the share entries of lower-priority owners, and takes its marker from the
table that leaves. -/
def Obligations.StartInvalidatesShareAndSetsMarker : Prop :=
  ∀ (cfg : Config) (c : CoreId) (n : ChanId) (S : ChannelSet), (S.chan n).running = .idle →
    let T := (startSet cfg c n S).1
    let open' (a : Word) := (shareAt T.share (bankOfRegion cfg (regionOf cfg c a))).valid = true
    (∀ b : Nat, shareAt T.share b =
      if (shareAt S.share b).valid = true ∧ n.toNat < (shareAt S.share b).owner.toNat then
        ⟨false, (shareAt S.share b).owner⟩ else shareAt S.share b)
    ∧ ((open' (T.chan n).curSrcAddr ∧ open' (T.chan n).curDstAddr ∧ (S.chan n).srcInc = .up
          ∧ (S.chan n).dstInc = .up) → (T.chan n).running = .continuing)
    ∧ (¬ (open' (T.chan n).curSrcAddr ∧ open' (T.chan n).curDstAddr ∧ (S.chan n).srcInc = .up
          ∧ (S.chan n).dstInc = .up) → (T.chan n).running = .justStarted)

/-- R240, R241: what a Start does to the other channels of its core: a running lower-priority channel is
interrupted, and one whose slice is being performed is stalled; nothing else of them changes. -/
def Obligations.StartInterruptsLowerChannels : Prop :=
  ∀ (cfg : Config) (c : CoreId) (n m : ChanId) (S : ChannelSet), (S.chan n).running = .idle → m ≠ n →
    (startSet cfg c n S).1.chan m =
      { S.chan m with
        running := if n.toNat < m.toNat ∧ (S.chan m).running ≠ .idle then .interrupted else (S.chan m).running
        extStall := if n.toNat < m.toNat ∧ S.executing = some m then true else (S.chan m).extStall }

/-- R242, R243: a Start that passes the Running check stalls the CPU on the channel's bit and puts the transfer
in progress; the registers, the latches, the queue flag, the slot and `executing` are as they were. -/
def Obligations.StartStallsTheCpu : Prop :=
  ∀ (cfg : Config) (c : CoreId) (n : ChanId) (S : ChannelSet), (S.chan n).running = .idle →
    let T := (startSet cfg c n S).1
    (startSet cfg c n S).2 = [.stall c (1 <<< n.toNat)]
    ∧ (∀ i : Nat, i < 4 → T.stallBits.getLsbD i = (decide (i = n.toNat) || S.stallBits.getLsbD i))
    ∧ (T.chan n).inProgress = true
    ∧ T.slot = S.slot ∧ T.executing = S.executing
    ∧ (T.chan n).srcAddr = (S.chan n).srcAddr ∧ (T.chan n).dstAddr = (S.chan n).dstAddr
    ∧ (T.chan n).controlWord = (S.chan n).controlWord ∧ (T.chan n).startMode = (S.chan n).startMode
    ∧ (T.chan n).srcInc = (S.chan n).srcInc ∧ (T.chan n).dstInc = (S.chan n).dstInc
    ∧ (T.chan n).queued = (S.chan n).queued ∧ (T.chan n).extStall = (S.chan n).extStall
    ∧ (T.chan n).cpuCore = (S.chan n).cpuCore ∧ (T.chan n).channelNumber = (S.chan n).channelNumber

/-! ## TRIG -/

/-- R232: a TRIG of IMMEDIATE or of an unimplemented event has no effect; nor has one no channel waits for. -/
def Obligations.TrigWithoutTakerDoesNothing : Prop :=
  ∀ (s : State) (c : CoreId) (ev : StartEvent),
    (ev = .immediate ∨ ev ∈ s.cfg.unimplementedModes ∨ ∀ n : ChanId, ¬ ArmedOn s c n ev) →
      exec (.trig c ev) s = .next s

/-- R230, R231: a TRIG of an event one channel waits for is the Start of that channel. -/
def Obligations.TrigStartsTheOnlyArmedChannel : Prop :=
  ∀ (s : State) (c : CoreId) (n : ChanId) (ev : StartEvent),
    ev ≠ .immediate → ev ∉ s.cfg.unimplementedModes → ArmedOn s c n ev →
    (∀ m : ChanId, m ≠ n → ¬ ArmedOn s c m ev) →
      exec (.trig c ev) s = .next { s.putSet c (startSet s.cfg c n (s.set c)).1 with
        events := s.events ++ (startSet s.cfg c n (s.set c)).2 }

/-- R230, R231, R233, R244: a TRIG starts every idle channel that waits for the event and no other channel. A
Running channel that waits for it is queued in a queued mode and keeps all else but its marker, which stays
nonzero, and a stall request; a channel that does not wait for it keeps all but these two; neither is stalled.
Outside the core's set only the calls change. -/
def Obligations.TrigStartsExactlyTheArmedChannels : Prop :=
  ∀ (s : State) (c : CoreId) (ev : StartEvent), ev ≠ .immediate → ev ∉ s.cfg.unimplementedModes →
    ∃ (T : ChannelSet) (calls : List Event),
      exec (.trig c ev) s = .next { s.putSet c T with events := s.events ++ calls }
      ∧ (∀ n : ChanId, ArmedOn s c n ev → (s.chan c n).running = .idle →
          (T.chan n).running ≠ .idle ∧ (T.chan n).inProgress = true ∧ T.stallBits.getLsbD n.toNat = true
            ∧ .stall c (1 <<< n.toNat) ∈ calls)
      ∧ (∀ n : ChanId, ArmedOn s c n ev → (s.chan c n).running ≠ .idle →
          (∃ r x, r ≠ Marker.idle ∧ T.chan n = { s.chan c n with
            running := r
            extStall := x
            queued := if ev ∈ s.cfg.queueModes then true else (s.chan c n).queued })
          ∧ T.stallBits.getLsbD n.toNat = (s.set c).stallBits.getLsbD n.toNat
          ∧ .stall c (1 <<< n.toNat) ∉ calls)
      ∧ (∀ n : ChanId, ¬ ArmedOn s c n ev →
          (∃ r x, T.chan n = { s.chan c n with running := r, extStall := x } ∧
            (r = .idle ↔ (s.chan c n).running = .idle))
          ∧ T.stallBits.getLsbD n.toNat = (s.set c).stallBits.getLsbD n.toNat
          ∧ .stall c (1 <<< n.toNat) ∉ calls)
      ∧ T.slot = (s.set c).slot ∧ T.executing = (s.set c).executing

/-! ## Timing -/

/-- R274, R275, R282: the cost of a unit by bank and burst position. -/
def Obligations.UnitCostFollowsBurstPosition : Prop :=
  ∀ (cfg : Config) (c : CoreId) (w : UnitWidth) (src dst : Word) (pos : Int),
    (bankAt cfg c src = bankAt cfg c dst →
      unitCost cfg c w src dst pos = costS cfg c src w + costS cfg c dst w + (if pos = 1 then 0 else 1)
      ∧ (pos ≤ 0 → unitCost cfg c w src dst 1 < unitCost cfg c w src dst pos))
    ∧ (bankAt cfg c src ≠ bankAt cfg c dst →
      unitCost cfg c w src dst pos =
        if pos = 2 then costN cfg c src w + costN cfg c dst w else costS cfg c src w + costS cfg c dst w)

/-- R276, R307, R404: a TICK whose first unit's cost does not fit in u32 stops with CostOverflow, and one whose
time would pass 2^64-1 stops with TimestampOverflow. That the sum itself is tested, and the shifted cost is not cut to
32 bits, is the model's reading (notes/assumptions/18.md); that the cost is reported where both overflow is too
(notes/assumptions/22.md). -/
def Obligations.TickStopsOnOverflow : Prop :=
  ∀ (s : State) (c : CoreId) (n : ChanId), Enters s c n → UnitDue s c n →
    (2 ^ 32 ≤ firstCost s c n → exec (.tick c) s = .fault .costOverflow)
    ∧ (firstCost s c n < 2 ^ 32 →
        2 ^ 64 ≤ (s.ts.get c).toNat + firstCost s c n * 2 ^ (s.cfg.costShift.get c).val →
        exec (.tick c) s = .fault .timestampOverflow)

/-- R404: with every table cost below 2^31 and the budget 2^35 cycles short of 2^64, TICK and MRAM_DONE always
answer a next state. -/
def Obligations.SlicesCompleteInRange : Prop :=
  ∀ (s : State) (c : CoreId), TimeInRange s c →
    (∃ t : State, exec (.tick c) s = .next t) ∧ ∃ t : State, exec (.mramDone c) s = .next t

/-! ## The arbiter and the slice -/

/-- R300, R302: a TICK with no selectable channel, or at a spent budget, changes nothing. -/
def Obligations.TickWithNothingToDoChangesNothing : Prop :=
  ∀ (s : State) (c : CoreId),
    ((∀ n : ChanId, selectable (s.set c) n = false) ∨ s.target.get c ≤ s.ts.get c) →
      exec (.tick c) s = .next s

/-- R302, R303: a Run at a spent budget, of an idle or disabled channel, or of a channel whose own unit is
handed off changes nothing; so does a TICK whose first selectable channel waits for its own unit. -/
def Obligations.BlockedRunChangesNothing : Prop :=
  ∀ (s : State) (c : CoreId) (n : ChanId),
    ((s.target.get c ≤ s.ts.get c ∨ (s.chan c n).running = .idle ∨ (s.chan c n).controlWord.getLsbD 31 = false
        ∨ ((s.set c).slot.busy = true ∧ (s.set c).slot.channel = n)) → run c n s = .ok s)
    ∧ (selectable (s.set c) n = true → (∀ m : ChanId, m.toNat < n.toNat → selectable (s.set c) m = false) →
        (s.set c).slot.busy = true → (s.set c).slot.channel = n → exec (.tick c) s = .next s)

/-- R305, R317, R318: a TICK that selects a stalled channel performs no unit, marks it interrupted and uses the
stall request up. -/
def Obligations.StalledSlicePerformsNoUnit : Prop :=
  ∀ (s : State) (c : CoreId) (n : ChanId), Enters s c n → (s.chan c n).extStall = true →
    (s.chan c n).iterationCount ≠ 0 → (s.chan c n).remainingCount ≠ 0 →
      exec (.tick c) s = .next (s.putSet c
        { (s.set c).setChan n { s.chan c n with running := .interrupted, extStall := false } with
          executing := none })

/-- R306, R314: a unit with an end in main RAM is handed off: the slot names the channel and the unit's width,
both banks' runs are closed, the marker is interrupted; addresses, counts and stall bit stay, no access is
made and no time passes. -/
def Obligations.MainRamUnitIsHandedOff : Prop :=
  ∀ (s : State) (c : CoreId) (n : ChanId), Inv s → Enters s c n → (s.chan c n).iterationCount ≠ 0 →
    (s.chan c n).extStall = false →
    (regionOf s.cfg c (s.chan c n).curSrcAddr = s.cfg.tables.mainRamRegion.get c
      ∨ regionOf s.cfg c (s.chan c n).curDstAddr = s.cfg.tables.mainRamRegion.get c) →
    (s.set c).slot.busy = false →
      ∃ share' : List (Nat × ShareEntry),
        exec (.tick c) s = .next (s.putSet c
          { (s.set c).setChan n { s.chan c n with running := .interrupted } with
            slot := ⟨true, widthOf (s.chan c n).controlWord, n⟩
            share := share' })
        ∧ ∀ b : Nat, shareAt share' b =
            if b = bankAt s.cfg c (s.chan c n).curSrcAddr ∨ b = bankAt s.cfg c (s.chan c n).curDstAddr then
              ⟨false, (shareAt (s.set c).share b).owner⟩ else shareAt (s.set c).share b

/-- R315: a main-RAM unit that finds the slot held by another channel waits: only its marker changes. -/
def Obligations.MainRamUnitWaitsForTheSlot : Prop :=
  ∀ (s : State) (c : CoreId) (n : ChanId), Inv s → Enters s c n → (s.chan c n).iterationCount ≠ 0 →
    (s.chan c n).extStall = false →
    touchesMainRam s.cfg c (s.chan c n).curSrcAddr (s.chan c n).curDstAddr = true →
    (s.set c).slot.busy = true →
      exec (.tick c) s = .next (s.putChan c n { s.chan c n with running := .interrupted })

/-- R307 to R311, R313, R316, R317: a TICK that performs one unit and reaches the budget, with units left in the
slice. A plain unit moves its bytes in memory; a unit whose destination lies in the register window changes no
memory and leaves one register write to be delivered, the last in order (R456; that the bus leaves memory alone and
covers these lanes is the model's choice, notes/assumptions/8.md). That the other core's memory is another is the
model's choice (notes/assumptions/14.md), that the shifted cost is not cut to 32 bits its reading
(notes/assumptions/18.md). The last unit of a slice is SliceBoundaryResumesTheCpu's and
LastUnitCompletesTheTransfer's. -/
def Obligations.TickPerformsOneUnit : Prop :=
  ∀ (s : State) (c : CoreId) (n : ChanId) (w : UnitWidth) (src dst : Word), Inv s → Enters s c n →
    UnitDue s c n → widthOf (s.chan c n).controlWord = w → (s.chan c n).curSrcAddr = src →
    (s.chan c n).curDstAddr = dst → (PlainUnit s src dst w ∨ WindowUnit s src dst w) →
    firstCost s c n < 2 ^ 32 →
    (s.ts.get c).toNat + firstCost s c n * 2 ^ (s.cfg.costShift.get c).val < 2 ^ 64 →
    (s.target.get c).toNat ≤ (s.ts.get c).toNat + firstCost s c n * 2 ^ (s.cfg.costShift.get c).val →
    (s.chan c n).iterationCount ≠ 1 →
      ∃ (t : State) (share' : List (Nat × ShareEntry)), exec (.tick c) s = .next t
        ∧ (PlainUnit s src dst w → UnitMoved s t c w src dst (firstCost s c n))
        ∧ (WindowUnit s src dst w → UnitDelivered s t c w src dst (firstCost s c n))
        ∧ t.events = s.events ++ [.memRead c src w (readUnit (s.mem.get c) src w),
            .memWrite c dst w (readUnit (s.mem.get c) src w)]
        ∧ t.set c = { (s.set c).setChan n { s.chan c n with
            curSrcAddr := advance src (s.chan c n).srcInc w
            curDstAddr := advance dst (s.chan c n).dstInc w
            iterationCount := (s.chan c n).iterationCount - 1
            remainingCount := (s.chan c n).remainingCount - 1
            running := .interrupted } with share := share' }
        ∧ ShareUpdated n (s.chan c n).srcInc (s.chan c n).dstInc (bankAt s.cfg c src) (bankAt s.cfg c dst)
            (s.set c).share share'

/-- R310, R311, R312: a unit advances the working addresses modulo 2^32 and takes one from both counts, whatever
start events its write causes; those can only change the channel's marker, queue flag and stall request. -/
def Obligations.UnitAdvancesAddressesAndCounts : Prop :=
  ∀ (s t : State) (c : CoreId) (n : ChanId) (pos : Int), (s.chan c n).running ≠ .idle →
    performUnit c n pos s = .ok t →
      let bytes : Word := if (s.chan c n).controlWord.getLsbD 26 then 4 else 2
      ∃ r q x, r ≠ Marker.idle ∧ t.chan c n = { s.chan c n with
        curSrcAddr := if (s.chan c n).srcInc = .up then (s.chan c n).curSrcAddr + bytes
          else if (s.chan c n).srcInc = .down then (s.chan c n).curSrcAddr - bytes else (s.chan c n).curSrcAddr
        curDstAddr := if (s.chan c n).dstInc = .up then (s.chan c n).curDstAddr + bytes
          else if (s.chan c n).dstInc = .down then (s.chan c n).curDstAddr - bytes else (s.chan c n).curDstAddr
        iterationCount := (s.chan c n).iterationCount - 1
        remainingCount := (s.chan c n).remainingCount - 1
        running := r
        queued := q
        extStall := x }

/-- R300, R304, R319, R409: the end of a slice whose transfer goes on, where no unit is left in it and where its last
unit is performed first: the channel is idle but in progress, only its stall bit is cleared, a FIFO-paced channel
asks the FIFO again, and TICK goes on with the lower channels. That the other core's memory is another is the model's
choice (notes/assumptions/14.md), that the shifted cost is not cut to 32 bits its reading
(notes/assumptions/18.md). -/
def Obligations.SliceBoundaryResumesTheCpu : Prop :=
  ∀ (s : State) (c : CoreId) (n : ChanId), Inv s → Enters s c n →
    let calls : List Event := .resume c (1 <<< n.toNat) ::
      (if (s.chan c n).startMode = .gxFifo then [Event.notifyFifo c] else [])
    ((s.chan c n).iterationCount = 0 → (s.chan c n).remainingCount ≠ 0 →
      ∃ bits : BitVec 4,
        let t := { s.putSet c
            { (s.set c).setChan n { s.chan c n with running := .idle, extStall := false } with
              stallBits := bits } with events := s.events ++ calls }
        ScanGoesOn s t c n ∧ (OthersQuiet s c n → exec (.tick c) s = .next t)
        ∧ ∀ i : Nat, i < 4 → bits.getLsbD i = (decide (i ≠ n.toNat) && (s.set c).stallBits.getLsbD i))
    ∧ (∀ (w : UnitWidth) (src dst : Word), UnitDue s c n → widthOf (s.chan c n).controlWord = w →
        (s.chan c n).curSrcAddr = src → (s.chan c n).curDstAddr = dst → PlainUnit s src dst w →
        firstCost s c n < 2 ^ 32 →
        (s.ts.get c).toNat + firstCost s c n * 2 ^ (s.cfg.costShift.get c).val < 2 ^ 64 →
        (s.chan c n).iterationCount = 1 → (s.chan c n).remainingCount ≠ 1 →
          ∃ (t : State) (share' : List (Nat × ShareEntry)) (bits : BitVec 4),
            ScanGoesOn s t c n ∧ (OthersQuiet s c n → exec (.tick c) s = .next t)
            ∧ UnitMoved s t c w src dst (firstCost s c n)
            ∧ t.events = s.events ++ [.memRead c src w (readUnit (s.mem.get c) src w),
                .memWrite c dst w (readUnit (s.mem.get c) src w)] ++ calls
            ∧ t.set c = { (s.set c).setChan n { s.chan c n with
                curSrcAddr := advance src (s.chan c n).srcInc w
                curDstAddr := advance dst (s.chan c n).dstInc w
                iterationCount := 0
                remainingCount := (s.chan c n).remainingCount - 1
                running := .idle } with share := share', stallBits := bits }
            ∧ ShareUpdated n (s.chan c n).srcInc (s.chan c n).dstInc (bankAt s.cfg c src) (bankAt s.cfg c dst)
                (s.set c).share share'
            ∧ ∀ i : Nat, i < 4 → bits.getLsbD i = (decide (i ≠ n.toNat) && (s.set c).stallBits.getLsbD i))

/-- R300, R320, R321, R405: the completion of a transfer: enable cleared unless repeat, interrupt if enabled, CPU
resumed, and the queued Start if the channel is still enabled, after which the TICK ends; without one, TICK goes on
with the scan of the lower channels. That a channel of an unimplemented mode makes no queued Start is the model's
reading of R159 against R320 (notes/assumptions/29.md). -/
def Obligations.CompletionEndsTheTransfer : Prop :=
  ∀ (s : State) (c : CoreId) (n : ChanId), Inv s → Enters s c n →
    (s.chan c n).iterationCount = 0 → (s.chan c n).remainingCount = 0 →
      ∃ (cw : Word) (bits : BitVec 4),
        let T := { (s.set c).setChan n { s.chan c n with
            controlWord := cw, inProgress := false, running := .idle, queued := false, extStall := false } with
          stallBits := bits }
        let calls := (if cw.getLsbD 30 = true then [Event.raiseIrq c n] else []) ++ [.resume c (1 <<< n.toNat)]
        let t := { s.putSet c T with events := s.events ++ calls }
        let restarts := (s.chan c n).queued = true ∧ (s.chan c n).controlWord.getLsbD 25 = true
          ∧ (s.chan c n).startMode ∉ s.cfg.unimplementedModes
        (∀ i : Nat, i < 32 → cw.getLsbD i = ((s.chan c n).controlWord.getLsbD i
          && (decide (i ≠ 31) || (s.chan c n).controlWord.getLsbD 25)))
        ∧ (∀ i : Nat, i < 4 → bits.getLsbD i = (decide (i ≠ n.toNat) && (s.set c).stallBits.getLsbD i))
        ∧ (¬ restarts → ScanGoesOn s t c n ∧ (OthersQuiet s c n → exec (.tick c) s = .next t))
        ∧ (restarts → exec (.tick c) s = .next { s.putSet c (startSet s.cfg c n T).1 with
              events := s.events ++ calls ++ (startSet s.cfg c n T).2 })

/-- R300, R307 to R311, R320: the last unit of a transfer and its completion, in one TICK, which then goes on with
the scan of the lower channels. That the other core's memory is another is the model's choice
(notes/assumptions/14.md), that the shifted cost is not cut to 32 bits its reading (notes/assumptions/18.md). -/
def Obligations.LastUnitCompletesTheTransfer : Prop :=
  ∀ (s : State) (c : CoreId) (n : ChanId) (w : UnitWidth) (src dst : Word), Inv s → Enters s c n →
    UnitDue s c n → widthOf (s.chan c n).controlWord = w → (s.chan c n).curSrcAddr = src →
    (s.chan c n).curDstAddr = dst → PlainUnit s src dst w → firstCost s c n < 2 ^ 32 →
    (s.ts.get c).toNat + firstCost s c n * 2 ^ (s.cfg.costShift.get c).val < 2 ^ 64 →
    (s.chan c n).remainingCount = 1 → (s.chan c n).queued = false →
      ∃ t : State, ScanGoesOn s t c n ∧ (OthersQuiet s c n → exec (.tick c) s = .next t)
        ∧ UnitMoved s t c w src dst (firstCost s c n)
        ∧ (t.chan c n).remainingCount = 0 ∧ (t.chan c n).inProgress = false ∧ (t.chan c n).running = .idle
        ∧ (t.set c).stallBits.getLsbD n.toNat = false
        ∧ (∀ m : ChanId, m ≠ n → t.chan c m = s.chan c m)
        ∧ (t.chan c n).controlWord.getLsbD 31 = (s.chan c n).controlWord.getLsbD 25
        ∧ t.events = s.events ++ [.memRead c src w (readUnit (s.mem.get c) src w),
            .memWrite c dst w (readUnit (s.mem.get c) src w)]
          ++ (if (s.chan c n).controlWord.getLsbD 30 = true then [Event.raiseIrq c n] else [])
          ++ [.resume c (1 <<< n.toNat)]

/-- A whole transfer in one TICK copies its source to its destination (R107, R309 to R311, R320): `k` plain
units between two regions that do not overlap, below the top of the bus space, outside main RAM and the
register window, with enough budget; every other byte is unchanged and the transfer is complete. That the
other core's memory is another, and so unchanged, is the model's choice (notes/assumptions/14.md), that the shifted
cost is not cut to 32 bits its reading (notes/assumptions/18.md). -/
def Obligations.TransferCopiesMemory : Prop :=
  ∀ (s : State) (c : CoreId) (n : ChanId) (w : UnitWidth) (src dst k : Nat), Inv s → Enters s c n →
    OthersQuiet s c n → CostsInRange s.cfg c → s.busReplies = [] →
    widthOf (s.chan c n).controlWord = w → (s.chan c n).srcInc = .up → (s.chan c n).dstInc = .up →
    (s.chan c n).extStall = false → (s.chan c n).queued = false →
    (s.chan c n).curSrcAddr.toNat = src → (s.chan c n).curDstAddr.toNat = dst →
    (s.chan c n).iterationCount.toNat = k → (s.chan c n).remainingCount.toNat = k →
    src % w.bytes = 0 → dst % w.bytes = 0 → src + k * w.bytes ≤ 2 ^ 32 → dst + k * w.bytes ≤ 2 ^ 32 →
    (src + k * w.bytes ≤ dst ∨ dst + k * w.bytes ≤ src) →
    (∀ j : Nat, j < k → windowSlot s.cfg (BitVec.ofNat 32 (src + j * w.bytes)) = none
      ∧ windowSlot s.cfg (BitVec.ofNat 32 (dst + j * w.bytes)) = none
      ∧ touchesMainRam s.cfg c (BitVec.ofNat 32 (src + j * w.bytes)) (BitVec.ofNat 32 (dst + j * w.bytes))
          = false) →
    (s.ts.get c).toNat + k * 2 ^ 35 < (s.target.get c).toNat →
      ∃ t : State, exec (.tick c) s = .next t
        ∧ (∀ j : Nat, j < k * w.bytes → readByte (t.mem.get c) (BitVec.ofNat 32 (dst + j))
            = readByte (s.mem.get c) (BitVec.ofNat 32 (src + j)))
        ∧ (∀ a : Word, (a.toNat < dst ∨ dst + k * w.bytes ≤ a.toNat) →
            readByte (t.mem.get c) a = readByte (s.mem.get c) a)
        ∧ (∀ c' : CoreId, c' ≠ c → t.mem.get c' = s.mem.get c' ∧ t.set c' = s.set c')
        ∧ (t.chan c n).remainingCount = 0 ∧ (t.chan c n).inProgress = false ∧ (t.chan c n).running = .idle
        ∧ (t.set c).stallBits.getLsbD n.toNat = false

/-- R328: a Run performs at most `iteration_count` units. -/
def Obligations.RunPerformsAtMostIterationCountUnits : Prop :=
  ∀ (s t : State) (c : CoreId) (n : ChanId), run c n s = .ok t →
    unitsIn t.events ≤ unitsIn s.events + (s.chan c n).iterationCount.toNat

/-! ## Main RAM and the external stall -/

/-- R323: an MRAM_DONE while the slot is empty has no effect. -/
def Obligations.MramDoneWithEmptySlotDoesNothing : Prop :=
  ∀ (s : State) (c : CoreId), (s.set c).slot.busy = false → exec (.mramDone c) s = .next s

/-- R322: MRAM_DONE advances the slot's channel by one unit of the slot's width, empties the slot and goes on as
TICK; at a spent budget the commit is all. -/
def Obligations.MramDoneCommitsTheUnit : Prop :=
  ∀ (s : State) (c : CoreId) (n : ChanId) (w : UnitWidth), (s.set c).slot = ⟨true, w, n⟩ →
    let done := s.putSet c { (s.set c).setChan n { s.chan c n with
        curSrcAddr := advance (s.chan c n).curSrcAddr (s.chan c n).srcInc w
        curDstAddr := advance (s.chan c n).curDstAddr (s.chan c n).dstInc w
        iterationCount := (s.chan c n).iterationCount - 1
        remainingCount := (s.chan c n).remainingCount - 1 } with slot := ⟨false, w, n⟩ }
    exec (.mramDone c) s = exec (.tick c) done
    ∧ (s.target.get c ≤ s.ts.get c → exec (.mramDone c) s = .next done)

/-- R324: XSTALL sets the channel's stall flag and nothing else. -/
def Obligations.XstallSetsTheFlag : Prop :=
  ∀ (s : State) (c : CoreId) (n : ChanId),
    exec (.xstall c n) s = .next (s.putChan c n { s.chan c n with extStall := true })

/-! ## Host ports -/

/-- R440, R442, R443: RESET gives every channel but its identity, and every set, its reset value; it makes no
call and leaves everything else as it was. -/
def Obligations.ResetClearsTheBlock : Prop :=
  ∀ s : State, ∃ t : State, exec .resetBlock s = .next t
    ∧ t = { s with sets := t.sets }
    ∧ (∀ (c : CoreId) (n : ChanId), t.chan c n =
        ⟨0, 0, 0, .immediate, .fixed, .fixed, 0, 0, 0, 0, .idle, false, false, false, false,
          (s.chan c n).cpuCore, (s.chan c n).channelNumber⟩)
    ∧ ∀ c : CoreId, (t.set c).executing = none ∧ (t.set c).stallBits = 0
        ∧ (∀ b : Nat, shareAt (t.set c).share b = ⟨false, .ch0⟩) ∧ (t.set c).slot = ⟨false, .w16, .ch0⟩

/-- R361, R362, R364: SAVE returns the state vector word by word and changes nothing else. The set sections are
R363's; that their banks are those of `banks`, on which the length and the share words rest, is the model's reading
(notes/assumptions/11.md). -/
def Obligations.SaveLaysOutTheState : Prop :=
  ∀ s : State, ∃ vec : List Word, exec .save s = .next { s with reply := vec }
    ∧ vec.length = 8 * 18 + 2 * (5 + 2 * (banks s.cfg).length)
    ∧ (∀ (c : CoreId) (n : ChanId),
        (vec.drop (18 * (4 * c.toNat + n.toNat))).take 18 =
          [ 0x00414D44 ||| (BitVec.ofNat 32 (0x30 + 4 * c.toNat + n.toNat) <<< 24),
            BitVec.ofNat 32 (s.chan c n).cpuCore.toNat, BitVec.ofNat 32 (s.chan c n).channelNumber.toNat,
            (s.chan c n).srcAddr, (s.chan c n).dstAddr, (s.chan c n).controlWord,
            (s.chan c n).curSrcAddr, (s.chan c n).curDstAddr,
            (s.chan c n).remainingCount, (s.chan c n).iterationCount,
            (if (s.chan c n).srcInc = .up then 1 else if (s.chan c n).srcInc = .fixed then 0 else 0xFFFFFFFF),
            (if (s.chan c n).dstInc = .up then 1 else if (s.chan c n).dstInc = .fixed then 0 else 0xFFFFFFFF),
            BitVec.ofNat 32 (s.chan c n).running.toNat,
            (if (s.chan c n).inProgress then 1 else 0), (if (s.chan c n).queued then 1 else 0),
            (if (s.chan c n).isGpuFifoTransfer then 1 else 0),
            BitVec.ofNat 32 (s.chan c n).startMode.code, (if (s.chan c n).extStall then 1 else 0) ])
    ∧ (∀ c : CoreId,
        (vec.drop (144 + c.toNat * (5 + 2 * (banks s.cfg).length))).take 5 =
          [ 0x00534D44 ||| (BitVec.ofNat 32 (0x30 + c.toNat) <<< 24),
            BitVec.ofNat 32 (s.set c).stallBits.toNat, (if (s.set c).slot.busy then 1 else 0),
            BitVec.ofNat 32 (s.set c).slot.width.bits, BitVec.ofNat 32 (s.set c).slot.channel.toNat ])
    ∧ ∀ (c : CoreId) (j b : Nat), (banks s.cfg)[j]? = some b →
        (vec.drop (144 + c.toNat * (5 + 2 * (banks s.cfg).length) + 5 + 2 * j)).take 2 =
          [ if (shareAt (s.set c).share b).valid then 1 else 0,
            BitVec.ofNat 32 (shareAt (s.set c).share b).owner.toNat ]

/-- R363: the banks of the share words are listed in increasing order, each once, and hold the bank of every
address. Which regions count is the model's reading (notes/assumptions/11.md). -/
def Obligations.BanksAreListedInOrder : Prop :=
  ∀ cfg : Config, (banks cfg).Pairwise (· < ·) ∧ ∀ (c : CoreId) (a : Word), bankAt cfg c a ∈ banks cfg

/-- R367: SAVE answers a vector, and a RESTORE of it gives the block's state back, from any state with the same
parameters, and changes nothing else. -/
def Obligations.RestoreInvertsSave : Prop :=
  ∀ s u : State, Inv s → u.cfg = s.cfg →
    (∀ (c : CoreId) (n : ChanId), (u.chan c n).cpuCore = c ∧ (u.chan c n).channelNumber = n) →
      ∃ vec : List Word, exec .save s = .next { s with reply := vec }
        ∧ exec (.restore vec) u = .next { u with sets := s.sets }

/-- R365, R366: a RESTORE either sets the refusal mark and changes nothing else, or loads the vector exactly:
SAVE then returns it word for word, and the block meets its invariants. A vector of the wrong length is refused;
that the length counts the banks of `banks` is the model's reading (notes/assumptions/11.md), and that a share word
`valid` other than 0 and 1 is refused its choice (notes/assumptions/30.md). -/
def Obligations.RestoreLoadsOrRefuses : Prop :=
  ∀ (s : State) (vec : List Word), Inv s →
    (exec (.restore vec) s = .next { s with refusedCommand := true }
      ∨ ∃ t : State, exec (.restore vec) s = .next t ∧ t = { s with sets := t.sets } ∧ Inv t
          ∧ exec .save t = .next { t with reply := vec })
    ∧ (vec.length ≠ 8 * 18 + 2 * (5 + 2 * (banks s.cfg).length) →
        exec (.restore vec) s = .next { s with refusedCommand := true })

/-! ## The whole machine -/

/-- The state after reset meets the invariant (R46, R441). -/
def Obligations.ResetStateMeetsInvariant : Prop := Inv State.reset

/-- Every step keeps the invariant: counts in range, a running channel in progress, a busy slot with a running
channel, identities and modes as they must be, share tables and memories in canonical form (R45 to R47, R51). -/
def Obligations.EveryStepKeepsTheInvariant : Prop :=
  ∀ s t : State, Inv s → step s = .next t → Inv t

/-- R45, R102, R443: no step changes the parameters, the tables or a channel's identity. -/
def Obligations.StepKeepsConfigurationAndIdentity : Prop :=
  ∀ s t : State, step s = .next t → t.cfg = s.cfg ∧ ∀ (c : CoreId) (n : ChanId),
    (s.chan c n).cpuCore = c ∧ (s.chan c n).channelNumber = n →
      (t.chan c n).cpuCore = c ∧ (t.chan c n).channelNumber = n

/-- R56, R461: no instruction changes a budget; only TICK and MRAM_DONE change a timestamp, only their own
core's, and never backwards. -/
def Obligations.OnlySlicesSpendTime : Prop :=
  ∀ (i : Instr) (s t : State), exec i s = .next t →
    t.target = s.target
    ∧ ((∀ c : CoreId, i ≠ .tick c ∧ i ≠ .mramDone c) → t.ts = s.ts)
    ∧ ∀ c : CoreId, (i = .tick c ∨ i = .mramDone c) →
        s.ts.get c ≤ t.ts.get c ∧ ∀ c' : CoreId, c' ≠ c → t.ts.get c' = s.ts.get c'

/-- R405: no instruction but TICK and MRAM_DONE raises a completion interrupt; every instruction only appends
to the calls made. -/
def Obligations.OnlySlicesRaiseInterrupts : Prop :=
  ∀ (i : Instr) (s t : State), exec i s = .next t →
    ∃ calls : List Event, t.events = s.events ++ calls
      ∧ ((∀ c : CoreId, i ≠ .tick c ∧ i ≠ .mramDone c) → ∀ e ∈ calls, isIrq e = false)

/-- R31, R32: the base addresses are written only by register writes of the channel itself, RESET and
RESTORE. -/
def Obligations.OnlyRegisterWritesChangeBases : Prop :=
  ∀ (i : Instr) (s t : State) (c : CoreId) (n : ChanId), exec i s = .next t →
    i ≠ .resetBlock → (∀ vec : List Word, i ≠ .restore vec) →
      ((∀ (be : BitVec 4) (d : Word), i ≠ .wrSad c n be d) → (t.chan c n).srcAddr = (s.chan c n).srcAddr)
      ∧ ((∀ (be : BitVec 4) (d : Word), i ≠ .wrDad c n be d) → (t.chan c n).dstAddr = (s.chan c n).dstAddr)

/-- R415: an instruction that names one core leaves the other core's channel set and time alone; a slice does so
where the bus returns no start event for the other core. That the other core's memory is another, and so left alone
too, is the model's choice (notes/assumptions/14.md). -/
def Obligations.OtherCoreIsUntouched : Prop :=
  ∀ (i : Instr) (s t : State) (c c' : CoreId), c' ≠ c → coreOf i = some c →
    ((i = .tick c ∨ i = .mramDone c) → ∀ r ∈ s.busReplies, ∀ e ∈ r.events, e.1 = c) →
    exec i s = .next t →
      t.set c' = s.set c' ∧ t.ts.get c' = s.ts.get c' ∧ t.mem.get c' = s.mem.get c'

/-- A unit written to memory in canonical form reads back, at its own bytes only. The byte order is the
model's choice (notes/assumptions/5.md; 20_memory.md R103 leaves it to the bus). -/
def Obligations.UnitReadsBackAsWritten : Prop :=
  ∀ (m : List Host.Cell) (a : Word) (w : UnitWidth) (v : Word), Memory.wf m = true →
    readUnit (writeUnit m a w v) a w = truncUnit w v
    ∧ Memory.wf (writeUnit m a w v) = true
    ∧ ∀ b : Word, (∀ k : Nat, k < w.bytes → b ≠ a + BitVec.ofNat 32 k) →
        readByte (writeUnit m a w v) b = readByte m b

end Statements
end

