-- ==== Sys2Proof/Laws/State.lean ====
section
/-!
SUPPORT. One lemma per field per update of the state, so that no proof unfolds a record update.
-/
namespace Sys2Proof

@[simp] theorem PerCore.get_set_same {α : Type} (p : PerCore α) (c : CoreId) (a : α) : (p.set c a).get c = a := by
  cases c <;> rfl

theorem PerCore.get_set_other {α : Type} (p : PerCore α) {c c' : CoreId} (a : α) (h : c' ≠ c) :
    (p.set c a).get c' = p.get c' := by
  cases c <;> cases c' <;> first | rfl | exact absurd rfl h

@[simp] theorem PerCore.set_get_same {α : Type} (p : PerCore α) (c : CoreId) : p.set c (p.get c) = p := by
  cases c <;> rfl

@[simp] theorem PerCore.set_set_same {α : Type} (p : PerCore α) (c : CoreId) (a b : α) :
    (p.set c a).set c b = p.set c b := by
  cases c <;> rfl

theorem PerCore.ext_get {α : Type} {p q : PerCore α} (h : ∀ c, p.get c = q.get c) : p = q := by
  cases p; cases q
  have h0 := h .core0
  have h1 := h .core1
  simp only [PerCore.get] at h0 h1
  rw [h0, h1]

@[simp] theorem PerChan.get_set_same {α : Type} (p : PerChan α) (n : ChanId) (a : α) : (p.set n a).get n = a := by
  cases n <;> rfl

theorem PerChan.get_set_other {α : Type} (p : PerChan α) {n m : ChanId} (a : α) (h : m ≠ n) :
    (p.set n a).get m = p.get m := by
  cases n <;> cases m <;> first | rfl | exact absurd rfl h

@[simp] theorem PerChan.set_get_same {α : Type} (p : PerChan α) (n : ChanId) : p.set n (p.get n) = p := by
  cases n <;> rfl

@[simp] theorem PerChan.set_set_same {α : Type} (p : PerChan α) (n : ChanId) (a b : α) :
    (p.set n a).set n b = p.set n b := by
  cases n <;> rfl

@[simp] theorem PerChan.get_mapIdx {α β : Type} (p : PerChan α) (f : ChanId → α → β) (n : ChanId) :
    (p.mapIdx f).get n = f n (p.get n) := by
  cases n <;> rfl

theorem PerChan.ext_get {α : Type} {p q : PerChan α} (h : ∀ n, p.get n = q.get n) : p = q := by
  cases p; cases q
  have h0 := h .ch0
  have h1 := h .ch1
  have h2 := h .ch2
  have h3 := h .ch3
  simp only [PerChan.get] at h0 h1 h2 h3
  rw [h0, h1, h2, h3]

theorem ChanId.below_irrefl (n : ChanId) : n.below n = false := by cases n <;> rfl

theorem ChanId.ne_of_below {m n : ChanId} (h : m.below n = true) : m ≠ n := by
  rintro rfl
  simp [ChanId.below_irrefl] at h

namespace Machine

/-! ## Channel sets -/

@[simp] theorem chan_setChan_same (S : ChannelSet) (n : ChanId) (ch : Channel) : (S.setChan n ch).chan n = ch := by
  simp [ChannelSet.chan, ChannelSet.setChan]

theorem chan_setChan_other (S : ChannelSet) {n m : ChanId} (ch : Channel) (h : m ≠ n) :
    (S.setChan n ch).chan m = S.chan m := by
  simp [ChannelSet.chan, ChannelSet.setChan, PerChan.get_set_other _ _ h]

theorem chan_setChan (S : ChannelSet) (n m : ChanId) (ch : Channel) :
    (S.setChan n ch).chan m = if m = n then ch else S.chan m := by
  by_cases h : m = n
  · subst h; simp
  · simp [h, chan_setChan_other S ch h]

@[simp] theorem setChan_setChan_same (S : ChannelSet) (n : ChanId) (a b : Channel) :
    (S.setChan n a).setChan n b = S.setChan n b := by
  simp [ChannelSet.setChan]

@[simp] theorem setChan_chan_same (S : ChannelSet) (n : ChanId) : S.setChan n (S.chan n) = S := by
  simp [ChannelSet.setChan, ChannelSet.chan]

@[simp] theorem setChan_executing (S : ChannelSet) (n : ChanId) (ch : Channel) :
    (S.setChan n ch).executing = S.executing := rfl
@[simp] theorem setChan_stallBits (S : ChannelSet) (n : ChanId) (ch : Channel) :
    (S.setChan n ch).stallBits = S.stallBits := rfl
@[simp] theorem setChan_share (S : ChannelSet) (n : ChanId) (ch : Channel) : (S.setChan n ch).share = S.share := rfl
@[simp] theorem setChan_slot (S : ChannelSet) (n : ChanId) (ch : Channel) : (S.setChan n ch).slot = S.slot := rfl

@[simp] theorem chan_stallCpu (S : ChannelSet) (n m : ChanId) : (stallCpu n S).chan m = S.chan m := rfl
@[simp] theorem stallCpu_executing (S : ChannelSet) (n : ChanId) : (stallCpu n S).executing = S.executing := rfl
@[simp] theorem stallCpu_share (S : ChannelSet) (n : ChanId) : (stallCpu n S).share = S.share := rfl
@[simp] theorem stallCpu_slot (S : ChannelSet) (n : ChanId) : (stallCpu n S).slot = S.slot := rfl
@[simp] theorem stallCpu_stallBits (S : ChannelSet) (n : ChanId) :
    (stallCpu n S).stallBits = S.stallBits ||| chanMask n := rfl

@[simp] theorem chan_resumeCpu (S : ChannelSet) (n m : ChanId) : (resumeCpu n S).chan m = S.chan m := rfl
@[simp] theorem resumeCpu_executing (S : ChannelSet) (n : ChanId) : (resumeCpu n S).executing = S.executing := rfl
@[simp] theorem resumeCpu_share (S : ChannelSet) (n : ChanId) : (resumeCpu n S).share = S.share := rfl
@[simp] theorem resumeCpu_slot (S : ChannelSet) (n : ChanId) : (resumeCpu n S).slot = S.slot := rfl
@[simp] theorem resumeCpu_stallBits (S : ChannelSet) (n : ChanId) :
    (resumeCpu n S).stallBits = S.stallBits &&& ~~~(chanMask n) := rfl

/-! ## Operations of one set on the whole state -/

section
variable (s : State) (c : CoreId) (f : ChannelSet → ChannelSet × List Event) (g : ChannelSet → ChannelSet)

@[simp] theorem onSet_cfg : (s.onSet c f).cfg = s.cfg := rfl
@[simp] theorem onSet_ts : (s.onSet c f).ts = s.ts := rfl
@[simp] theorem onSet_target : (s.onSet c f).target = s.target := rfl
@[simp] theorem onSet_mem : (s.onSet c f).mem = s.mem := rfl
@[simp] theorem onSet_busReplies : (s.onSet c f).busReplies = s.busReplies := rfl
@[simp] theorem onSet_freeIx : (s.onSet c f).freeIx = s.freeIx := rfl
@[simp] theorem onSet_events : (s.onSet c f).events = s.events ++ (f (s.set c)).2 := rfl
@[simp] theorem onSet_reply : (s.onSet c f).reply = s.reply := rfl
@[simp] theorem onSet_refusedCommand : (s.onSet c f).refusedCommand = s.refusedCommand := rfl
@[simp] theorem onSet_inbox : (s.onSet c f).inbox = s.inbox := rfl
@[simp] theorem onSet_delivered : (s.onSet c f).delivered = s.delivered := rfl
@[simp] theorem onSet_set_same : (s.onSet c f).set c = (f (s.set c)).1 := by simp [State.onSet, State.set]
theorem onSet_set_other {c' : CoreId} (h : c' ≠ c) : (s.onSet c f).set c' = s.set c' := by
  simp [State.onSet, State.set, PerCore.get_set_other _ _ h]

@[simp] theorem onSetQuiet_cfg : (s.onSetQuiet c g).cfg = s.cfg := rfl
@[simp] theorem onSetQuiet_ts : (s.onSetQuiet c g).ts = s.ts := rfl
@[simp] theorem onSetQuiet_target : (s.onSetQuiet c g).target = s.target := rfl
@[simp] theorem onSetQuiet_mem : (s.onSetQuiet c g).mem = s.mem := rfl
@[simp] theorem onSetQuiet_busReplies : (s.onSetQuiet c g).busReplies = s.busReplies := rfl
@[simp] theorem onSetQuiet_freeIx : (s.onSetQuiet c g).freeIx = s.freeIx := rfl
@[simp] theorem onSetQuiet_events : (s.onSetQuiet c g).events = s.events := by
  simp [State.onSetQuiet, State.onSet]
@[simp] theorem onSetQuiet_reply : (s.onSetQuiet c g).reply = s.reply := rfl
@[simp] theorem onSetQuiet_refusedCommand : (s.onSetQuiet c g).refusedCommand = s.refusedCommand := rfl
@[simp] theorem onSetQuiet_inbox : (s.onSetQuiet c g).inbox = s.inbox := rfl
@[simp] theorem onSetQuiet_delivered : (s.onSetQuiet c g).delivered = s.delivered := rfl
@[simp] theorem onSetQuiet_set_same : (s.onSetQuiet c g).set c = g (s.set c) := by simp [State.onSetQuiet]
theorem onSetQuiet_set_other {c' : CoreId} (h : c' ≠ c) : (s.onSetQuiet c g).set c' = s.set c' :=
  onSet_set_other s c _ h

/-- An operation that makes no call replaces the set and nothing else. -/
theorem onSetQuiet_eq_putSet : s.onSetQuiet c g = s.putSet c (g (s.set c)) := by
  simp [State.onSetQuiet, State.onSet, State.putSet]
end

/-! ## The refusal mark and the directives -/

section
variable (s : State) (c : CoreId) (v : Time) (a : Word) (w : UnitWidth) (d : Word)

@[simp] theorem refuse_set (c' : CoreId) : s.refuse.set c' = s.set c' := rfl
@[simp] theorem refuse_cfg : s.refuse.cfg = s.cfg := rfl
@[simp] theorem refuse_mem : s.refuse.mem = s.mem := rfl
@[simp] theorem refuse_ts : s.refuse.ts = s.ts := rfl
@[simp] theorem refuse_target : s.refuse.target = s.target := rfl
@[simp] theorem refuse_events : s.refuse.events = s.events := rfl
@[simp] theorem refuse_refusedCommand : s.refuse.refusedCommand = true := rfl

@[simp] theorem setTs_set (c' : CoreId) : (s.setTs c v).set c' = s.set c' := rfl
@[simp] theorem setTs_cfg : (s.setTs c v).cfg = s.cfg := rfl
@[simp] theorem setTs_mem : (s.setTs c v).mem = s.mem := rfl
@[simp] theorem setTarget_set (c' : CoreId) : (s.setTarget c v).set c' = s.set c' := rfl
@[simp] theorem setTarget_cfg : (s.setTarget c v).cfg = s.cfg := rfl
@[simp] theorem setTarget_mem : (s.setTarget c v).mem = s.mem := rfl
@[simp] theorem setMem_set (c' : CoreId) : (s.setMem c a w d).set c' = s.set c' := rfl
@[simp] theorem setMem_cfg : (s.setMem c a w d).cfg = s.cfg := rfl
@[simp] theorem setMem_mem : (s.setMem c a w d).mem = s.mem.set c (writeUnit (s.mem.get c) a w d) := rfl
end

/-! ## The bus -/

section
variable (s : State) (c : CoreId) (a : Word) (w : UnitWidth) (v : Word)

@[simp] theorem afterRead_set (c' : CoreId) : (s.afterRead c a w).set c' = s.set c' := rfl
@[simp] theorem afterRead_cfg : (s.afterRead c a w).cfg = s.cfg := rfl
@[simp] theorem afterRead_ts : (s.afterRead c a w).ts = s.ts := rfl
@[simp] theorem afterRead_target : (s.afterRead c a w).target = s.target := rfl
@[simp] theorem afterRead_mem : (s.afterRead c a w).mem = s.mem := rfl
@[simp] theorem afterRead_busReplies : (s.afterRead c a w).busReplies = s.busReplies := rfl
@[simp] theorem afterRead_freeIx : (s.afterRead c a w).freeIx = s.freeIx + 1 := rfl
@[simp] theorem afterRead_events :
    (s.afterRead c a w).events = s.events ++ [.memRead c a w (s.readValue c a w)] := rfl
@[simp] theorem afterRead_reply : (s.afterRead c a w).reply = s.reply := rfl
@[simp] theorem afterRead_refusedCommand : (s.afterRead c a w).refusedCommand = s.refusedCommand := rfl
@[simp] theorem afterRead_inbox : (s.afterRead c a w).inbox = s.inbox := rfl
@[simp] theorem afterRead_delivered : (s.afterRead c a w).delivered = s.delivered := rfl

@[simp] theorem busStore_sets : (s.busStore c a w v).sets = s.sets := by
  unfold State.busStore; split <;> [split; skip] <;> rfl
@[simp] theorem busStore_set (c' : CoreId) : (s.busStore c a w v).set c' = s.set c' := by simp [State.set]
@[simp] theorem busStore_cfg : (s.busStore c a w v).cfg = s.cfg := by
  unfold State.busStore; split <;> [split; skip] <;> rfl
@[simp] theorem busStore_ts : (s.busStore c a w v).ts = s.ts := by
  unfold State.busStore; split <;> [split; skip] <;> rfl
@[simp] theorem busStore_target : (s.busStore c a w v).target = s.target := by
  unfold State.busStore; split <;> [split; skip] <;> rfl
@[simp] theorem busStore_events : (s.busStore c a w v).events = s.events := by
  unfold State.busStore; split <;> [split; skip] <;> rfl
@[simp] theorem busStore_busReplies : (s.busStore c a w v).busReplies = s.busReplies := by
  unfold State.busStore; split <;> [split; skip] <;> rfl
@[simp] theorem busStore_freeIx : (s.busStore c a w v).freeIx = s.freeIx := by
  unfold State.busStore; split <;> [split; skip] <;> rfl
@[simp] theorem busStore_reply : (s.busStore c a w v).reply = s.reply := by
  unfold State.busStore; split <;> [split; skip] <;> rfl
@[simp] theorem busStore_refusedCommand : (s.busStore c a w v).refusedCommand = s.refusedCommand := by
  unfold State.busStore; split <;> [split; skip] <;> rfl
@[simp] theorem busStore_inbox : (s.busStore c a w v).inbox = s.inbox := by
  unfold State.busStore; split <;> [split; skip] <;> rfl
theorem busStore_mem_other {c' : CoreId} (h : c' ≠ c) : (s.busStore c a w v).mem.get c' = s.mem.get c' := by
  unfold State.busStore; split <;> [split; skip] <;> simp [PerCore.get_set_other _ _ h]

@[simp] theorem afterWrite_set (c' : CoreId) : (s.afterWrite c a w v).set c' = s.set c' := busStore_set s c a w v c'
@[simp] theorem afterWrite_cfg : (s.afterWrite c a w v).cfg = s.cfg := busStore_cfg s c a w v
@[simp] theorem afterWrite_ts : (s.afterWrite c a w v).ts = s.ts := busStore_ts s c a w v
@[simp] theorem afterWrite_target : (s.afterWrite c a w v).target = s.target := busStore_target s c a w v
@[simp] theorem afterWrite_mem : (s.afterWrite c a w v).mem = (s.busStore c a w v).mem := rfl
@[simp] theorem afterWrite_delivered : (s.afterWrite c a w v).delivered = (s.busStore c a w v).delivered := rfl
@[simp] theorem afterWrite_events : (s.afterWrite c a w v).events = s.events ++ [.memWrite c a w v] := by
  simp [State.afterWrite]
@[simp] theorem afterWrite_busReplies : (s.afterWrite c a w v).busReplies = s.busReplies.tail := by
  simp [State.afterWrite]
@[simp] theorem afterWrite_freeIx : (s.afterWrite c a w v).freeIx = s.freeIx + 1 := by simp [State.afterWrite]
@[simp] theorem afterWrite_reply : (s.afterWrite c a w v).reply = s.reply := busStore_reply s c a w v
@[simp] theorem afterWrite_refusedCommand : (s.afterWrite c a w v).refusedCommand = s.refusedCommand :=
  busStore_refusedCommand s c a w v
@[simp] theorem afterWrite_inbox : (s.afterWrite c a w v).inbox = s.inbox := busStore_inbox s c a w v
end

section
variable (s : State) (c : CoreId) (src dst : Word) (w : UnitWidth)

@[simp] theorem moveUnit_set (c' : CoreId) : (s.moveUnit c src dst w).set c' = s.set c' := by simp [State.moveUnit]
@[simp] theorem moveUnit_cfg : (s.moveUnit c src dst w).cfg = s.cfg := by simp [State.moveUnit]
@[simp] theorem moveUnit_ts : (s.moveUnit c src dst w).ts = s.ts := by simp [State.moveUnit]
@[simp] theorem moveUnit_target : (s.moveUnit c src dst w).target = s.target := by simp [State.moveUnit]
@[simp] theorem moveUnit_busReplies : (s.moveUnit c src dst w).busReplies = s.busReplies.tail := by
  simp [State.moveUnit]
@[simp] theorem moveUnit_reply : (s.moveUnit c src dst w).reply = s.reply := by simp [State.moveUnit]
@[simp] theorem moveUnit_refusedCommand : (s.moveUnit c src dst w).refusedCommand = s.refusedCommand := by
  simp [State.moveUnit]
@[simp] theorem moveUnit_inbox : (s.moveUnit c src dst w).inbox = s.inbox := by simp [State.moveUnit]
@[simp] theorem moveUnit_events : (s.moveUnit c src dst w).events =
    s.events ++ [.memRead c src w (s.readValue c src w), .memWrite c dst w (s.readValue c src w)] := by
  simp [State.moveUnit]
end

/-! ## Triggers -/

section
variable (s : State) (evs : List (CoreId × StartEvent))

@[simp] theorem trigger_cfg (c : CoreId) (ev : StartEvent) : (s.trigger c ev).cfg = s.cfg := rfl
@[simp] theorem trigger_ts (c : CoreId) (ev : StartEvent) : (s.trigger c ev).ts = s.ts := rfl
@[simp] theorem trigger_target (c : CoreId) (ev : StartEvent) : (s.trigger c ev).target = s.target := rfl
@[simp] theorem trigger_mem (c : CoreId) (ev : StartEvent) : (s.trigger c ev).mem = s.mem := rfl

@[simp] theorem triggers_nil : s.triggers [] = s := rfl

@[simp] theorem triggers_cfg : (s.triggers evs).cfg = s.cfg := by
  induction evs generalizing s with
  | nil => rfl
  | cons e r ih => exact ih _
@[simp] theorem triggers_ts : (s.triggers evs).ts = s.ts := by
  induction evs generalizing s with
  | nil => rfl
  | cons e r ih => exact ih _
@[simp] theorem triggers_target : (s.triggers evs).target = s.target := by
  induction evs generalizing s with
  | nil => rfl
  | cons e r ih => exact ih _
@[simp] theorem triggers_mem : (s.triggers evs).mem = s.mem := by
  induction evs generalizing s with
  | nil => rfl
  | cons e r ih => exact ih _
@[simp] theorem triggers_busReplies : (s.triggers evs).busReplies = s.busReplies := by
  induction evs generalizing s with
  | nil => rfl
  | cons e r ih => exact ih _
@[simp] theorem triggers_freeIx : (s.triggers evs).freeIx = s.freeIx := by
  induction evs generalizing s with
  | nil => rfl
  | cons e r ih => exact ih _
@[simp] theorem triggers_reply : (s.triggers evs).reply = s.reply := by
  induction evs generalizing s with
  | nil => rfl
  | cons e r ih => exact ih _
@[simp] theorem triggers_refusedCommand : (s.triggers evs).refusedCommand = s.refusedCommand := by
  induction evs generalizing s with
  | nil => rfl
  | cons e r ih => exact ih _
@[simp] theorem triggers_inbox : (s.triggers evs).inbox = s.inbox := by
  induction evs generalizing s with
  | nil => rfl
  | cons e r ih => exact ih _
@[simp] theorem triggers_delivered : (s.triggers evs).delivered = s.delivered := by
  induction evs generalizing s with
  | nil => rfl
  | cons e r ih => exact ih _
end

end Machine
end Sys2Proof
end

