-- ==== Sys2Proof/Laws/Sparse.lean ====
section
/-!
SUPPORT. The laws of the sparse stores and of the bus memories built on them: read after write, and that
every operation keeps the canonical form.
-/
namespace Sys2Proof.Machine

section
variable {α : Type} {d : α}

/-- Below every listed key a store reads as if unlisted. -/
theorem storeGet_of_above {m : List (Nat × α)} {j k : Nat} (h : storeAbove j m = true) (hk : k ≤ j) :
    storeGet d m k = d := by
  induction m with
  | nil => rfl
  | cons p r ih =>
    obtain ⟨i, v⟩ := p
    simp only [storeAbove, Bool.and_eq_true, decide_eq_true_eq] at h
    have hne : i ≠ k := by omega
    simp [storeGet, hne, ih h.2]

theorem storeAbove_mono {m : List (Nat × α)} {j k : Nat} (h : storeAbove j m = true) (hk : k ≤ j) :
    storeAbove k m = true := by
  induction m with
  | nil => rfl
  | cons p r ih =>
    obtain ⟨i, v⟩ := p
    simp only [storeAbove, Bool.and_eq_true, decide_eq_true_eq] at h ⊢
    exact ⟨by omega, ih h.2⟩

theorem storeAbove_set [DecidableEq α] {m : List (Nat × α)} {i k : Nat} {v : α} (h : storeAbove i m = true) (hk : i < k) :
    storeAbove i (storeSet d m k v) = true := by
  induction m with
  | nil => by_cases hv : v = d <;> simp [storeSet, hv, storeAbove, hk]
  | cons p r ih =>
    obtain ⟨j, u⟩ := p
    simp only [storeAbove, Bool.and_eq_true, decide_eq_true_eq] at h
    simp only [storeSet]
    split
    · split <;> simp [storeAbove, h, hk]
    · split
      · split <;> simp [storeAbove, h.2, hk]
      · simp [storeAbove, h.1, ih h.2]

/-- Writing keeps the canonical form. -/
theorem storeWf_set [DecidableEq α] {m : List (Nat × α)} (k : Nat) (v : α) (h : storeWf d m = true) :
    storeWf d (storeSet d m k v) = true := by
  induction m with
  | nil => by_cases hv : v = d <;> simp [storeSet, hv, storeWf, storeAbove]
  | cons p r ih =>
    obtain ⟨j, u⟩ := p
    simp only [storeWf, Bool.and_eq_true, decide_eq_true_eq] at h
    obtain ⟨⟨hu, ha⟩, hr⟩ := h
    simp only [storeSet]
    split
    next hkj =>
      split
      next => simp [storeWf, hu, ha, hr]
      next hv => simp [storeWf, storeAbove, hu, ha, hr, hv, hkj, storeAbove_mono ha (Nat.le_of_lt hkj)]
    next hkj =>
      split
      next hk =>
        subst hk
        split
        next => exact hr
        next hv => simp [storeWf, ha, hr, hv]
      next hne =>
        simp [storeWf, hu, ih hr, storeAbove_set ha (by omega : j < k)]

/-- Reading the key just written. -/
theorem storeGet_set_same [DecidableEq α] {m : List (Nat × α)} (k : Nat) (v : α) (h : storeWf d m = true) :
    storeGet d (storeSet d m k v) k = v := by
  induction m with
  | nil => by_cases hv : v = d <;> simp [storeSet, hv, storeGet]
  | cons p r ih =>
    obtain ⟨j, u⟩ := p
    simp only [storeWf, Bool.and_eq_true, decide_eq_true_eq] at h
    obtain ⟨⟨_, ha⟩, hr⟩ := h
    simp only [storeSet]
    split
    next hkj =>
      split
      next hv =>
        have hne : j ≠ k := by omega
        simp [storeGet, hne, hv, storeGet_of_above (d := d) ha (Nat.le_of_lt hkj)]
      next => simp [storeGet]
    next =>
      split
      next hk =>
        subst hk
        split
        next hv => simp [hv, storeGet_of_above (d := d) ha (Nat.le_refl _)]
        next => simp [storeGet]
      next hne =>
        have : j ≠ k := fun e => hne e.symm
        simp [storeGet, this, ih hr]

/-- Reading any other key. -/
theorem storeGet_set_other [DecidableEq α] {m : List (Nat × α)} {k k' : Nat} (v : α) (h : storeWf d m = true) (hk : k' ≠ k) :
    storeGet d (storeSet d m k v) k' = storeGet d m k' := by
  induction m with
  | nil => by_cases hv : v = d <;> simp [storeSet, hv, storeGet, hk.symm]
  | cons p r ih =>
    obtain ⟨j, u⟩ := p
    simp only [storeWf, Bool.and_eq_true, decide_eq_true_eq] at h
    obtain ⟨⟨_, ha⟩, hr⟩ := h
    simp only [storeSet]
    split
    · split <;> simp [storeGet, hk.symm]
    · split
      next hkj =>
        subst hkj
        split <;> simp [storeGet, hk.symm]
      · by_cases hj : j = k' <;> simp [storeGet, hj, ih hr]

/-- Two stores in canonical form that read alike are equal. -/
theorem store_ext [DecidableEq α] {m m' : List (Nat × α)} (h : storeWf d m = true) (h' : storeWf d m' = true)
    (hg : ∀ k, storeGet d m k = storeGet d m' k) : m = m' := by
  induction m generalizing m' with
  | nil =>
    cases m' with
    | nil => rfl
    | cons p r =>
      obtain ⟨j, u⟩ := p
      simp only [storeWf, Bool.and_eq_true, decide_eq_true_eq] at h'
      have := hg j
      simp [storeGet] at this
      exact absurd this.symm h'.1.1
  | cons p r ih =>
    obtain ⟨j, u⟩ := p
    simp only [storeWf, Bool.and_eq_true, decide_eq_true_eq] at h
    obtain ⟨⟨hu, ha⟩, hr⟩ := h
    cases m' with
    | nil =>
      have := hg j
      simp [storeGet] at this
      exact absurd this hu
    | cons p' r' =>
      obtain ⟨j', u'⟩ := p'
      simp only [storeWf, Bool.and_eq_true, decide_eq_true_eq] at h'
      obtain ⟨⟨hu', ha'⟩, hr'⟩ := h'
      have hjj : j = j' := by
        by_contra hne
        rcases Nat.lt_or_gt_of_ne hne with hlt | hgt
        · have := hg j
          have hne' : j' ≠ j := by omega
          simp [storeGet, hne', storeGet_of_above (d := d) ha' (Nat.le_of_lt hlt)] at this
          exact hu this
        · have := hg j'
          simp [storeGet, hne, storeGet_of_above (d := d) ha (Nat.le_of_lt hgt)] at this
          exact hu' this.symm
      subst hjj
      have huu : u = u' := by simpa [storeGet] using hg j
      subst huu
      congr 1
      refine ih hr hr' fun k => ?_
      by_cases hk : j = k
      · subst hk
        rw [storeGet_of_above (d := d) ha (Nat.le_refl _), storeGet_of_above (d := d) ha' (Nat.le_refl _)]
      · simpa [storeGet, hk] using hg k

/-- The keys of a store after a write are old keys or the key written. -/
theorem mem_storeSet [DecidableEq α] {m : List (Nat × α)} {k : Nat} {v : α} {p : Nat × α} (h : p ∈ storeSet d m k v) :
    p.1 = k ∨ p ∈ m := by
  induction m with
  | nil =>
    simp only [storeSet] at h
    split at h <;> simp at h
    exact .inl (by rw [h])
  | cons q r ih =>
    obtain ⟨j, u⟩ := q
    simp only [storeSet] at h
    split at h
    · split at h
      · exact .inr h
      · rcases List.mem_cons.1 h with h | h
        · exact .inl (by rw [h])
        · exact .inr h
    · split at h
      · split at h
        · exact .inr (List.mem_cons_of_mem _ h)
        · rcases List.mem_cons.1 h with h | h
          · exact .inl (by rw [h])
          · exact .inr (List.mem_cons_of_mem _ h)
      · rcases List.mem_cons.1 h with h | h
        · exact .inr (by rw [h]; exact List.mem_cons_self)
        · exact (ih h).imp id (List.mem_cons_of_mem _)

/-- A map of the values that keeps the unlisted value reads as the mapped value. -/
theorem storeGet_map (f : α → α) (hf : f d = d) (m : List (Nat × α)) (k : Nat) :
    storeGet d (m.map fun p => (p.1, f p.2)) k = f (storeGet d m k) := by
  induction m with
  | nil => simp [storeGet, hf]
  | cons p r ih =>
    obtain ⟨j, u⟩ := p
    by_cases h : j = k <;> simp [storeGet, h, ih]

theorem storeAbove_map {β : Type} (f : α → β) (m : List (Nat × α)) (j : Nat) :
    storeAbove j (m.map fun p => (p.1, f p.2)) = storeAbove j m := by
  induction m with
  | nil => rfl
  | cons p r ih => simp [storeAbove, ih]

/-- A map of the values that makes none of them the unlisted value keeps the canonical form. -/
theorem storeWf_map [DecidableEq α] (f : α → α) (hf : ∀ v, v ≠ d → f v ≠ d) {m : List (Nat × α)} (h : storeWf d m = true) :
    storeWf d (m.map fun p => (p.1, f p.2)) = true := by
  induction m with
  | nil => rfl
  | cons p r ih =>
    obtain ⟨j, u⟩ := p
    simp only [storeWf, Bool.and_eq_true, decide_eq_true_eq] at h
    simp only [List.map_cons, storeWf, Bool.and_eq_true, decide_eq_true_eq]
    exact ⟨⟨hf u h.1.1, by rw [storeAbove_map]; exact h.1.2⟩, ih h.2⟩
end

/-! ## Bus memories -/

theorem Memory.wf_iff (m : List Host.Cell) :
    Memory.wf m = true ↔ storeWf 0 m = true ∧ ∀ p ∈ m, p.1 < 2 ^ 32 := by
  simp [Memory.wf, List.all_eq_true]

/-- The canonical form without the address range. -/
theorem Memory.store_wf {m : List Host.Cell} (h : Memory.wf m = true) : storeWf 0 m = true :=
  ((Memory.wf_iff m).1 h).1

/-- Writing a byte keeps the memory's canonical form. -/
theorem writeByte_wf {m : List Host.Cell} (a : Word) (b : Byte) (h : Memory.wf m = true) :
    Memory.wf (writeByte m a b) = true := by
  rw [Memory.wf_iff] at h ⊢
  refine ⟨storeWf_set _ _ h.1, fun p hp => ?_⟩
  rcases mem_storeSet hp with e | hp
  · rw [e]; exact a.isLt
  · exact h.2 p hp

/-- Reading the byte just written. -/
theorem readByte_writeByte_same {m : List Host.Cell} (a : Word) (b : Byte) (h : Memory.wf m = true) :
    readByte (writeByte m a b) a = b :=
  storeGet_set_same _ _ (Memory.store_wf h)

/-- Writing a byte leaves every other byte alone. -/
theorem readByte_writeByte_other {m : List Host.Cell} {a a' : Word} (b : Byte) (h : Memory.wf m = true)
    (ha : a' ≠ a) : readByte (writeByte m a b) a' = readByte m a' :=
  storeGet_set_other _ (Memory.store_wf h) fun e => ha (BitVec.eq_of_toNat_eq e)

/-- Writing a unit keeps the memory's canonical form. -/
theorem writeUnit_wf {m : List Host.Cell} (a : Word) (w : UnitWidth) (v : Word) (h : Memory.wf m = true) :
    Memory.wf (writeUnit m a w v) = true := by
  have h2 : Memory.wf (writeByte (writeByte m a (bitField 0 8 v)) (a + 1) (bitField 8 8 v)) = true :=
    writeByte_wf _ _ (writeByte_wf _ _ h)
  cases w with
  | w16 => exact h2
  | w32 => exact writeByte_wf _ _ (writeByte_wf _ _ h2)

/-- What a misaligned write leaves is in canonical form too. -/
theorem writeCells_wf {m : List Host.Cell} (l : List (Nat × Byte)) (h : Memory.wf m = true) :
    Memory.wf (writeCells m l) = true := by
  induction l generalizing m with
  | nil => exact h
  | cons p r ih => exact ih (writeByte_wf _ _ h)

/-- Writing a unit leaves every byte outside the unit's alone. -/
theorem readByte_writeUnit_other {m : List Host.Cell} {a a' : Word} (w : UnitWidth) (v : Word)
    (h : Memory.wf m = true) (ha : ∀ k, k < w.bytes → a' ≠ a + BitVec.ofNat 32 k) :
    readByte (writeUnit m a w v) a' = readByte m a' := by
  have h0 : a' ≠ a := by
    have := ha 0 (by cases w <;> decide)
    simpa using this
  have h1 : a' ≠ a + 1 := ha 1 (by cases w <;> decide)
  have hw1 := writeByte_wf a (bitField 0 8 v) h
  have hw2 := writeByte_wf (a + 1) (bitField 8 8 v) hw1
  have low : readByte (writeByte (writeByte m a (bitField 0 8 v)) (a + 1) (bitField 8 8 v)) a' = readByte m a' := by
    rw [readByte_writeByte_other _ hw1 h1, readByte_writeByte_other _ h h0]
  cases w with
  | w16 => exact low
  | w32 =>
    have h2 : a' ≠ a + 2 := ha 2 (by decide)
    have h3 : a' ≠ a + 3 := ha 3 (by decide)
    have hw3 := writeByte_wf (a + 2) (bitField 16 8 v) hw2
    show readByte (writeByte (writeByte _ (a + 2) _) (a + 3) _) a' = _
    rw [readByte_writeByte_other _ hw3 h3, readByte_writeByte_other _ hw2 h2, low]

theorem word_add_ne (a : Word) {i j : Nat} (hi : i < 4) (hj : j < 4) (h : i ≠ j) :
    a + BitVec.ofNat 32 i ≠ a + BitVec.ofNat 32 j := by
  intro e
  have := congrArg BitVec.toNat (add_left_cancel e)
  simp only [BitVec.toNat_ofNat] at this
  omega

/-- The bytes of the unit just written. -/
theorem readByte_writeUnit_same {m : List Host.Cell} (a : Word) (w : UnitWidth) (v : Word) (h : Memory.wf m = true)
    {k : Nat} (hk : k < w.bytes) :
    readByte (writeUnit m a w v) (a + BitVec.ofNat 32 k) = bitField (8 * k) 8 v := by
  have n01 : (a : Word) ≠ a + 1 := by
    simpa only [BitVec.ofNat_eq_ofNat, BitVec.add_zero] using word_add_ne a (i := 0) (j := 1) (by decide) (by decide) (by decide)
  have n02 : (a : Word) ≠ a + 2 := by
    simpa only [BitVec.ofNat_eq_ofNat, BitVec.add_zero] using word_add_ne a (i := 0) (j := 2) (by decide) (by decide) (by decide)
  have n03 : (a : Word) ≠ a + 3 := by
    simpa only [BitVec.ofNat_eq_ofNat, BitVec.add_zero] using word_add_ne a (i := 0) (j := 3) (by decide) (by decide) (by decide)
  have n12 : (a + 1 : Word) ≠ a + 2 := word_add_ne a (i := 1) (j := 2) (by decide) (by decide) (by decide)
  have n13 : (a + 1 : Word) ≠ a + 3 := word_add_ne a (i := 1) (j := 3) (by decide) (by decide) (by decide)
  have n23 : (a + 2 : Word) ≠ a + 3 := word_add_ne a (i := 2) (j := 3) (by decide) (by decide) (by decide)
  have e0 : (a + BitVec.ofNat 32 0 : Word) = a := BitVec.add_zero a
  have hw1 := writeByte_wf a (bitField 0 8 v) h
  have hw2 := writeByte_wf (a + 1) (bitField 8 8 v) hw1
  have hw3 := writeByte_wf (a + 2) (bitField 16 8 v) hw2
  have l0 : readByte (writeByte (writeByte m a (bitField 0 8 v)) (a + 1) (bitField 8 8 v)) a = bitField 0 8 v := by
    rw [readByte_writeByte_other _ hw1 n01, readByte_writeByte_same _ _ h]
  have l1 : readByte (writeByte (writeByte m a (bitField 0 8 v)) (a + 1) (bitField 8 8 v)) (a + 1)
      = bitField 8 8 v := readByte_writeByte_same _ _ hw1
  cases w with
  | w16 =>
    match k, hk with
    | 0, _ => rw [e0]; exact l0
    | 1, _ => exact l1
  | w32 =>
    match k, hk with
    | 0, _ =>
      rw [e0]
      show readByte (writeByte (writeByte _ (a + 2) _) (a + 3) _) a = _
      rw [readByte_writeByte_other _ hw3 n03, readByte_writeByte_other _ hw2 n02, l0]
    | 1, _ =>
      show readByte (writeByte (writeByte _ (a + 2) _) (a + 3) _) (a + 1) = _
      rw [readByte_writeByte_other _ hw3 n13, readByte_writeByte_other _ hw2 n12, l1]
    | 2, _ =>
      show readByte (writeByte (writeByte _ (a + 2) _) (a + 3) _) (a + 2) = _
      rw [readByte_writeByte_other _ hw3 n23, readByte_writeByte_same _ _ hw2]
    | 3, _ => exact readByte_writeByte_same _ _ hw3

/-- What the bus does with a write keeps every core's memory in canonical form. -/
theorem busStore_wf (s : State) (c c' : CoreId) (a : Word) (w : UnitWidth) (v : Word)
    (h : ∀ c, Memory.wf (s.mem.get c) = true) : Memory.wf ((s.busStore c a w v).mem.get c') = true := by
  unfold State.busStore
  by_cases hc : c' = c
  · subst hc
    split
    · split
      · exact h c'
      · simpa using writeUnit_wf a w v (h c')
    · simpa using writeCells_wf _ (h c')
  · split
    · split
      · exact h c'
      · simpa [PerCore.get_set_other _ _ hc] using h c'
    · simpa [PerCore.get_set_other _ _ hc] using h c'

/-- A unit keeps every core's memory in canonical form. -/
theorem moveUnit_wf (s : State) (c c' : CoreId) (src dst : Word) (w : UnitWidth)
    (h : ∀ c, Memory.wf (s.mem.get c) = true) : Memory.wf ((s.moveUnit c src dst w).mem.get c') = true := by
  unfold State.moveUnit
  rw [afterWrite_mem]
  exact busStore_wf _ _ _ _ _ _ h

/-- A directive keeps every core's memory in canonical form. -/
theorem setMem_wf (s : State) (c c' : CoreId) (a : Word) (w : UnitWidth) (v : Word)
    (h : ∀ c, Memory.wf (s.mem.get c) = true) : Memory.wf ((s.setMem c a w v).mem.get c') = true := by
  by_cases hc : c' = c
  · subst hc; simpa using writeUnit_wf a w v (h c')
  · simpa [PerCore.get_set_other _ _ hc] using h c'

/-- The memories after reset are in canonical form. -/
theorem reset_memory_wf (c : CoreId) : Memory.wf (State.reset.mem.get c) = true := by cases c <;> rfl

end Sys2Proof.Machine
end

