-- ==== Sys2Proof/Laws/Block.lean ====
section
/-!
SUPPORT. What the shared operations of a channel set do, field by field, and that each keeps the set's
invariant. The provers cite these instead of unfolding the operations.
-/
namespace Sys2Proof.Machine

/-! ## Operands -/

/-- The effective length never passes COUNT_MASK+1 (R47). -/
theorem effLen_le (cfg : Config) (c : CoreId) (n : ChanId) (cw : Word) :
    (effLen cfg c n cw).toNat ≤ (countMask cfg c n).toNat + 1 := by
  unfold effLen countField
  split
  · rw [BitVec.toNat_and]
    exact Nat.le_succ_of_le Nat.and_le_right
  · rw [BitVec.toNat_add]
    exact Nat.mod_le _ _

/-- A slice is never longer than what is left of the transfer (R235). -/
theorem sliceCap_le (mode : StartEvent) (r : Word) : sliceCap mode r ≤ r := by
  unfold sliceCap
  split
  next h => exact BitVec.le_of_lt h.2
  next => exact BitVec.le_refl r

/-- A decoded start mode is one the core's decode can produce (R366). -/
theorem decodeStart_producible (v : Variant) (cw : Word) : producible v (decodeStart v cw) = true := by
  cases v with
  | wide =>
    simp only [decodeStart]
    generalize (bitField 27 3 cw).toNat = k
    unfold wideStart
    split <;> rfl
  | narrow =>
    simp only [decodeStart]
    generalize (bitField 28 2 cw).toNat = k
    unfold narrowStart
    split <;> rfl

/-! ## Share tables -/

theorem shareSet_form {share : List (Nat × ShareEntry)} (b : Nat) (e : ShareEntry)
    (h : storeWf ShareEntry.reset share = true) : storeWf ShareEntry.reset (shareSet share b e) = true :=
  storeWf_set _ _ h

theorem shareClose_form {share : List (Nat × ShareEntry)} (b : Nat) (h : storeWf ShareEntry.reset share = true) :
    storeWf ShareEntry.reset (shareClose share b) = true :=
  storeWf_set _ _ h

theorem shareSet_banks {share : List (Nat × ShareEntry)} {l : List Nat} {b : Nat} (e : ShareEntry) (hb : b ∈ l)
    (h : ∀ p ∈ share, p.1 ∈ l) : ∀ p ∈ shareSet share b e, p.1 ∈ l := by
  intro p hp
  rcases mem_storeSet hp with e | hp
  · rw [e]; exact hb
  · exact h p hp

/-- An entry that was closed keeps its owner; the invalidation of R237, bank by bank. -/
theorem shareAt_invalidate (n : ChanId) (share : List (Nat × ShareEntry)) (b : Nat) :
    shareAt (shareInvalidate n share) b =
      if (shareAt share b).valid && (shareAt share b).owner.below n then
        { shareAt share b with valid := false } else shareAt share b := by
  unfold shareAt shareInvalidate
  exact storeGet_map (d := ShareEntry.reset) (fun e => if e.valid && e.owner.below n then { e with valid := false } else e)
    (by cases n <;> rfl) share b

theorem shareInvalidate_form (n : ChanId) {share : List (Nat × ShareEntry)}
    (h : storeWf ShareEntry.reset share = true) : storeWf ShareEntry.reset (shareInvalidate n share) = true := by
  refine storeWf_map (fun e => if e.valid && e.owner.below n then { e with valid := false } else e) ?_ h
  rintro ⟨v, o⟩ hne
  cases v <;> cases o <;> cases n <;> first | exact hne | decide

theorem shareInvalidate_banks (n : ChanId) {share : List (Nat × ShareEntry)} {l : List Nat}
    (h : ∀ p ∈ share, p.1 ∈ l) : ∀ p ∈ shareInvalidate n share, p.1 ∈ l := by
  intro p hp
  obtain ⟨q, hq, rfl⟩ := List.mem_map.1 hp
  exact h q hq

theorem mem_insertRising {k j : Nat} {l : List Nat} : j ∈ insertRising k l ↔ j = k ∨ j ∈ l := by
  induction l with
  | nil => simp [insertRising]
  | cons i r ih =>
    simp only [insertRising]
    split
    · simp
    · split
      next h => subst h; simp
      next => simp only [List.mem_cons, ih]; tauto

theorem mem_banks {cfg : Config} {r : Nat} (h : r ∈ regionIds cfg) : bankOfRegion cfg r ∈ banks cfg := by
  unfold banks
  revert h
  generalize regionIds cfg = ids
  intro h
  induction ids with
  | nil => cases h
  | cons i l ih =>
    rw [List.foldr_cons, mem_insertRising]
    rcases List.mem_cons.1 h with rfl | h
    · exact .inl rfl
    · exact .inr (ih h)

theorem tableRowsGet_mem {α : Type} (d : α) (rows : List (TableRow α)) (k : Nat) :
    tableRowsGet d rows k = d ∨ tableRowsGet d rows k ∈ rows.map (·.value) := by
  induction rows with
  | nil => exact .inl rfl
  | cons r rs ih =>
    simp only [tableRowsGet]
    split
    · exact .inr (by simp)
    · exact ih.imp id fun h => by simp only [List.map_cons, List.mem_cons]; exact .inr h

theorem regionOf_mem (cfg : Config) (c : CoreId) (a : Word) : regionOf cfg c a ∈ regionIds cfg := by
  have h := tableRowsGet_mem (cfg.tables.regionTable.get c).other (cfg.tables.regionTable.get c).rows
    (tableIndex cfg c a)
  unfold regionIds
  rw [List.mem_append]
  cases c with
  | core0 => exact .inl (List.mem_cons.2 h)
  | core1 => exact .inr (List.mem_cons.2 h)

/-- The bank of an address is a bank of the configuration (R60). -/
theorem bankAt_mem (cfg : Config) (c : CoreId) (a : Word) : bankAt cfg c a ∈ banks cfg :=
  mem_banks (regionOf_mem cfg c a)

theorem updateShare_form (cfg : Config) (c : CoreId) (n : ChanId) (s d : Word) (i j : Inc)
    {share : List (Nat × ShareEntry)} (h : storeWf ShareEntry.reset share = true) :
    storeWf ShareEntry.reset (updateShare cfg c n s d i j share) = true := by
  unfold updateShare
  split
  · exact shareSet_form _ _ (shareSet_form _ _ h)
  · exact shareClose_form _ (shareClose_form _ h)

theorem updateShare_banks (cfg : Config) (c : CoreId) (n : ChanId) (s d : Word) (i j : Inc)
    {share : List (Nat × ShareEntry)} (h : ∀ p ∈ share, p.1 ∈ banks cfg) :
    ∀ p ∈ updateShare cfg c n s d i j share, p.1 ∈ banks cfg := by
  unfold updateShare
  split
  · exact shareSet_banks _ (bankAt_mem cfg c d) (shareSet_banks _ (bankAt_mem cfg c s) h)
  · exact shareSet_banks _ (bankAt_mem cfg c d) (shareSet_banks _ (bankAt_mem cfg c s) h)

/-! ## Start -/

/-- What a Start of channel `n` leaves of another channel `m` of its core (R240, R241). -/
def afterOtherStart (n m : ChanId) (executing : Option ChanId) (ch : Channel) : Channel :=
  { ch with
    running := if m.below n && decide (ch.running ≠ .idle) then .interrupted else ch.running
    extStall := ch.extStall || (m.below n && decide (executing = some m)) }

theorem chan_interruptLower (n m : ChanId) (S : ChannelSet) :
    ({ S with chans := interruptLower n S.chans } : ChannelSet).chan m =
      if m.below n && decide ((S.chan m).running ≠ .idle) then { S.chan m with running := .interrupted }
      else S.chan m := by
  unfold interruptLower
  cases m <;> rfl

theorem chan_preempt (n m : ChanId) (S : ChannelSet) :
    (preempt n S).chan m =
      if m.below n && decide (S.executing = some m) then { S.chan m with extStall := true } else S.chan m := by
  unfold preempt
  split
  next k hk =>
    by_cases hb : k.below n = true
    · rw [if_pos hb, chan_setChan]
      by_cases hm : m = k
      · subst hm; simp [hb, hk]
      · have : ¬ k = m := fun e => hm e.symm
        simp [hk, hm, this]
    · have hb' : k.below n = false := by simpa using hb
      rw [if_neg hb]
      by_cases hm : m = k
      · subst hm; simp [hb']
      · have : ¬ k = m := fun e => hm e.symm
        simp [hk, this]
  next hk => simp [hk]

@[simp] theorem preempt_executing (n : ChanId) (S : ChannelSet) : (preempt n S).executing = S.executing := by
  unfold preempt; split <;> [split; skip] <;> rfl
@[simp] theorem preempt_stallBits (n : ChanId) (S : ChannelSet) : (preempt n S).stallBits = S.stallBits := by
  unfold preempt; split <;> [split; skip] <;> rfl
@[simp] theorem preempt_share (n : ChanId) (S : ChannelSet) : (preempt n S).share = S.share := by
  unfold preempt; split <;> [split; skip] <;> rfl
@[simp] theorem preempt_slot (n : ChanId) (S : ChannelSet) : (preempt n S).slot = S.slot := by
  unfold preempt; split <;> [split; skip] <;> rfl

section
variable (cfg : Config) (c : CoreId) (n : ChanId) (S : ChannelSet)

@[simp] theorem startIdle_executing : (startIdle cfg c n S).executing = S.executing := by simp [startIdle]
@[simp] theorem startIdle_stallBits : (startIdle cfg c n S).stallBits = S.stallBits ||| chanMask n := by
  simp [startIdle]
@[simp] theorem startIdle_share : (startIdle cfg c n S).share = shareInvalidate n S.share := by simp [startIdle]
@[simp] theorem startIdle_slot : (startIdle cfg c n S).slot = S.slot := by simp [startIdle]

/-- The channel that Starts (R233 to R236, R238, R239, R243). -/
theorem startIdle_chan_same : (startIdle cfg c n S).chan n =
    { beginTransfer cfg c n (S.chan n) with
      running := initialMarker cfg c (shareInvalidate n S.share) (beginTransfer cfg c n (S.chan n))
      inProgress := true } := by
  have h1 : (preempt n { (stallCpu n (S.setChan n (beginTransfer cfg c n (S.chan n)))) with
      chans := interruptLower n (stallCpu n (S.setChan n (beginTransfer cfg c n (S.chan n)))).chans }).chan n
      = beginTransfer cfg c n (S.chan n) := by
    rw [chan_preempt, chan_interruptLower]
    simp [ChanId.below_irrefl]
  unfold startIdle
  dsimp only
  rw [chan_setChan_same]
  show ({ (preempt n _).chan n with
      running := initialMarker cfg c (shareInvalidate n (preempt n _).share) ((preempt n _).chan n),
      inProgress := true } : Channel) = _
  rw [h1]
  simp

/-- The other channels of the core (R240, R241). -/
theorem startIdle_chan_other {m : ChanId} (h : m ≠ n) :
    (startIdle cfg c n S).chan m = afterOtherStart n m S.executing (S.chan m) := by
  unfold startIdle
  dsimp only
  rw [chan_setChan_other _ _ h]
  show (preempt n _).chan m = _
  rw [chan_preempt, chan_interruptLower]
  simp only [stallCpu_executing, setChan_executing, chan_stallCpu, chan_setChan_other _ _ h, afterOtherStart]
  cases hb : m.below n <;> cases hr : (S.chan m).running <;> by_cases he : S.executing = some m <;> simp [he] <;>
    simp [← hr]

/-- A Start either finds the channel Running, or not (R233). -/
theorem startSet_running (h : (S.chan n).running ≠ .idle) : startSet cfg c n S = (startRunning cfg n S, []) := by
  simp [startSet, h]

theorem startSet_idle (h : (S.chan n).running = .idle) :
    startSet cfg c n S = (startIdle cfg c n S, [.stall c (chanMask n)]) := by
  simp [startSet, h]

theorem startRunning_chan (m : ChanId) : (startRunning cfg n S).chan m =
    if m = n ∧ (S.chan n).startMode ∈ cfg.queueModes then { S.chan n with queued := true } else S.chan m := by
  unfold startRunning
  by_cases hq : (S.chan n).startMode ∈ cfg.queueModes
  · rw [if_pos hq, chan_setChan]; simp [hq]
  · rw [if_neg hq]; simp [hq]

@[simp] theorem startRunning_executing : (startRunning cfg n S).executing = S.executing := by
  unfold startRunning; split <;> rfl
@[simp] theorem startRunning_stallBits : (startRunning cfg n S).stallBits = S.stallBits := by
  unfold startRunning; split <;> rfl
@[simp] theorem startRunning_share : (startRunning cfg n S).share = S.share := by
  unfold startRunning; split <;> rfl
@[simp] theorem startRunning_slot : (startRunning cfg n S).slot = S.slot := by
  unfold startRunning; split <;> rfl

@[simp] theorem startSet_executing : (startSet cfg c n S).1.executing = S.executing := by
  unfold startSet; split <;> simp
@[simp] theorem startSet_slot : (startSet cfg c n S).1.slot = S.slot := by
  unfold startSet; split <;> simp
end

theorem initialMarker_ne_idle (cfg : Config) (c : CoreId) (share : List (Nat × ShareEntry)) (ch : Channel) :
    initialMarker cfg c share ch ≠ .idle := by
  unfold initialMarker; split <;> decide

/-! ## The invariant of a set -/

theorem slotOk_iff (S : ChannelSet) : slotOk S = true ↔
    (S.slot.busy = true → (S.chan S.slot.channel).running ≠ .idle ∧ (S.chan S.slot.channel).iterationCount ≠ 0) := by
  unfold slotOk
  cases S.slot.busy <;> simp

/-- A change of one channel keeps the invariant if the channel's new value meets its own and does not break
the slot's. -/
theorem SetInv.setChan {cfg : Config} {c : CoreId} {S : ChannelSet} (h : SetInv cfg c S) {n : ChanId} {ch : Channel}
    (hch : ChannelInv cfg c n ch)
    (hslot : S.slot.busy = true → S.slot.channel = n → ch.running ≠ .idle ∧ ch.iterationCount ≠ 0) :
    SetInv cfg c (S.setChan n ch) where
  chans m := by
    rw [chan_setChan]
    split
    next hm => exact hm ▸ hch
    next => exact h.chans m
  slot_ok := by
    rw [slotOk_iff]
    intro hb
    simp only [setChan_slot] at hb ⊢
    rw [chan_setChan]
    split
    next he => exact hslot hb he
    next => exact (slotOk_iff S).1 h.slot_ok hb
  share_form := h.share_form
  share_banks := h.share_banks

theorem SetInv.withStall {cfg : Config} {c : CoreId} {S : ChannelSet} (h : SetInv cfg c S) (b : BitVec 4) :
    SetInv cfg c { S with stallBits := b } := ⟨h.chans, h.slot_ok, h.share_form, h.share_banks⟩

theorem SetInv.withExecuting {cfg : Config} {c : CoreId} {S : ChannelSet} (h : SetInv cfg c S) (e : Option ChanId) :
    SetInv cfg c { S with executing := e } := ⟨h.chans, h.slot_ok, h.share_form, h.share_banks⟩

theorem SetInv.withShare {cfg : Config} {c : CoreId} {S : ChannelSet} (h : SetInv cfg c S)
    {share : List (Nat × ShareEntry)} (hf : storeWf ShareEntry.reset share = true)
    (hb : ∀ p ∈ share, p.1 ∈ banks cfg) : SetInv cfg c { S with share := share } :=
  ⟨h.chans, h.slot_ok, hf, hb⟩

/-- The channel the busy slot names is running with units left. -/
theorem SetInv.slot_busy {cfg : Config} {c : CoreId} {S : ChannelSet} (h : SetInv cfg c S)
    (hb : S.slot.busy = true) :
    (S.chan S.slot.channel).running ≠ .idle ∧ (S.chan S.slot.channel).iterationCount ≠ 0 :=
  (slotOk_iff S).1 h.slot_ok hb

theorem beginTransfer_inv {cfg : Config} {c : CoreId} {n : ChanId} {ch : Channel} (h : ChannelInv cfg c n ch)
    (m : Marker) : ChannelInv cfg c n { beginTransfer cfg c n ch with running := m, inProgress := true } where
  remaining_le := by
    simp only [beginTransfer]
    split
    · exact h.remaining_le
    · exact effLen_le _ _ _ _
  iteration_le := sliceCap_le _ _
  running_inProgress _ := rfl
  mode_producible := h.mode_producible
  core_eq := h.core_eq
  chan_eq := h.chan_eq

theorem afterOtherStart_inv {cfg : Config} {c : CoreId} {m : ChanId} {ch : Channel} (h : ChannelInv cfg c m ch)
    (n : ChanId) (e : Option ChanId) : ChannelInv cfg c m (afterOtherStart n m e ch) where
  remaining_le := h.remaining_le
  iteration_le := h.iteration_le
  running_inProgress hr := h.running_inProgress (by
    intro he
    apply hr
    simp [afterOtherStart, he])
  mode_producible := h.mode_producible
  core_eq := h.core_eq
  chan_eq := h.chan_eq

theorem afterOtherStart_running {n m : ChanId} {e : Option ChanId} {ch : Channel} :
    (afterOtherStart n m e ch).running = .idle ↔ ch.running = .idle := by
  simp only [afterOtherStart]
  cases m.below n <;> cases ch.running <;> simp

theorem startIdle_inv {cfg : Config} {c : CoreId} {S : ChannelSet} (h : SetInv cfg c S) {n : ChanId}
    (hr : (S.chan n).running = .idle) : SetInv cfg c (startIdle cfg c n S) where
  chans m := by
    by_cases hm : m = n
    · subst hm
      rw [startIdle_chan_same]
      exact beginTransfer_inv (h.chans m) _
    · rw [startIdle_chan_other _ _ _ _ hm]
      exact afterOtherStart_inv (h.chans m) _ _
  slot_ok := by
    rw [slotOk_iff]
    intro hb
    simp only [startIdle_slot] at hb ⊢
    have hs := h.slot_busy hb
    have hne : S.slot.channel ≠ n := fun e => hs.1 (e ▸ hr)
    rw [startIdle_chan_other _ _ _ _ hne]
    exact ⟨fun e => hs.1 (afterOtherStart_running.1 e), hs.2⟩
  share_form := by rw [startIdle_share]; exact shareInvalidate_form n h.share_form
  share_banks := by rw [startIdle_share]; exact shareInvalidate_banks n h.share_banks

/-- A Start keeps the set's invariant. -/
theorem startSet_inv {cfg : Config} {c : CoreId} {S : ChannelSet} (h : SetInv cfg c S) (n : ChanId) :
    SetInv cfg c (startSet cfg c n S).1 := by
  by_cases hr : (S.chan n).running = .idle
  · rw [startSet_idle _ _ _ _ hr]
    exact startIdle_inv h hr
  · rw [startSet_running _ _ _ _ hr]
    show SetInv cfg c (startRunning cfg n S)
    unfold startRunning
    split
    · have hc := h.chans n
      refine h.setChan ⟨hc.remaining_le, hc.iteration_le, hc.running_inProgress, hc.mode_producible, hc.core_eq,
        hc.chan_eq⟩ fun hb he => ?_
      have := h.slot_busy hb
      rw [he] at this
      exact this
    · exact h

/-! ## Triggers -/

/-- An induction over the channels a Trigger visits: what every Start keeps, a Trigger keeps. -/
theorem triggerSet_induction {cfg : Config} {c : CoreId} {ev : StartEvent} {S : ChannelSet}
    (P : ChannelSet → Prop) (h0 : P S) (hs : ∀ T n, P T → P (startSet cfg c n T).1) :
    P (triggerSet cfg c ev S).1 := by
  have hstep : ∀ r n, P r.1 → P (triggerChan cfg c ev r n).1 := by
    intro r n hr
    unfold triggerChan
    split
    · exact hs _ _ hr
    · exact hr
  have hfold : ∀ (l : List ChanId) r, P r.1 → P (l.foldl (triggerChan cfg c ev) r).1 := by
    intro l
    induction l with
    | nil => exact fun r hr => hr
    | cons n l ih => exact fun r hr => ih _ (hstep r n hr)
  unfold triggerSet
  split
  · exact h0
  · exact hfold _ _ h0

@[simp] theorem triggerSet_executing (cfg : Config) (c : CoreId) (ev : StartEvent) (S : ChannelSet) :
    (triggerSet cfg c ev S).1.executing = S.executing :=
  triggerSet_induction (fun T => T.executing = S.executing) rfl fun T n h => by simp [h]

@[simp] theorem triggerSet_slot (cfg : Config) (c : CoreId) (ev : StartEvent) (S : ChannelSet) :
    (triggerSet cfg c ev S).1.slot = S.slot :=
  triggerSet_induction (fun T => T.slot = S.slot) rfl fun T n h => by simp [h]

theorem triggerSet_inv {cfg : Config} {c : CoreId} {S : ChannelSet} (h : SetInv cfg c S) (ev : StartEvent) :
    SetInv cfg c (triggerSet cfg c ev S).1 :=
  triggerSet_induction (SetInv cfg c) h fun _ n hT => startSet_inv hT n

/-- A channel that is Running through a Start keeps running, with its counts, addresses, increments, control
word and mode. -/
theorem startSet_chan_running {cfg : Config} {c : CoreId} {S : ChannelSet} (n : ChanId) {m : ChanId}
    (hr : (S.chan m).running ≠ .idle) :
    ∃ r q x, r ≠ Marker.idle ∧
      (startSet cfg c n S).1.chan m = { S.chan m with running := r, queued := q, extStall := x } := by
  by_cases hn : (S.chan n).running = .idle
  · have hm : m ≠ n := fun e => hr (e ▸ hn)
    rw [startSet_idle _ _ _ _ hn]
    refine ⟨_, _, _, ?_, startIdle_chan_other cfg c n S hm⟩
    exact fun e => hr ((afterOtherStart_running (n := n) (m := m) (e := S.executing)).1 e)
  · rw [startSet_running _ _ _ _ hn]
    show ∃ r q x, r ≠ Marker.idle ∧ (startRunning cfg n S).chan m = _
    rw [startRunning_chan]
    split
    next hc =>
      obtain ⟨rfl, _⟩ := hc
      exact ⟨(S.chan m).running, true, (S.chan m).extStall, hr, rfl⟩
    next => exact ⟨(S.chan m).running, (S.chan m).queued, (S.chan m).extStall, hr, rfl⟩

theorem triggerSet_chan_running {cfg : Config} {c : CoreId} {ev : StartEvent} {S : ChannelSet} {m : ChanId}
    (hr : (S.chan m).running ≠ .idle) :
    ∃ r q x, r ≠ Marker.idle ∧
      (triggerSet cfg c ev S).1.chan m = { S.chan m with running := r, queued := q, extStall := x } := by
  refine triggerSet_induction (P := fun T => ∃ r q x, r ≠ Marker.idle ∧
    T.chan m = { S.chan m with running := r, queued := q, extStall := x }) ?_ ?_
  · exact ⟨(S.chan m).running, (S.chan m).queued, (S.chan m).extStall, hr, rfl⟩
  · rintro T n ⟨r, q, x, hne, hT⟩
    obtain ⟨r', q', x', hne', h'⟩ := startSet_chan_running (cfg := cfg) (c := c) (S := T) n (m := m)
      (by rw [hT]; exact hne)
    exact ⟨r', q', x', hne', by rw [h', hT]⟩

/-! ## WriteCnt -/

/-- A control word replaced: nothing of the invariant speaks of it. -/
theorem ChannelInv.withControl {cfg : Config} {c : CoreId} {n : ChanId} {ch : Channel} (h : ChannelInv cfg c n ch)
    (w : Word) : ChannelInv cfg c n { ch with controlWord := w } :=
  ⟨h.remaining_le, h.iteration_le, h.running_inProgress, h.mode_producible, h.core_eq, h.chan_eq⟩

theorem latchEnable_inv {cfg : Config} {c : CoreId} {n : ChanId} {ch : Channel} (h : ChannelInv cfg c n ch)
    (w : Word) : ChannelInv cfg c n (latchEnable cfg c w ch) :=
  ⟨h.remaining_le, h.iteration_le, h.running_inProgress, decodeStart_producible _ _, h.core_eq, h.chan_eq⟩

/-- A write of the control word keeps the set's invariant. -/
theorem writeCnt_inv {cfg : Config} {c : CoreId} {S : ChannelSet} (h : SetInv cfg c S) (n : ChanId) (val : Word) :
    SetInv cfg c (writeCnt cfg c n val S).1 := by
  have hslot : ∀ ch : Channel, ch.running = (S.chan n).running → ch.iterationCount = (S.chan n).iterationCount →
      S.slot.busy = true → S.slot.channel = n → ch.running ≠ .idle ∧ ch.iterationCount ≠ 0 := by
    intro ch h1 h2 hb he
    have := h.slot_busy hb
    rw [he] at this
    rwa [h1, h2]
  have h1 : SetInv cfg c (S.setChan n (latchEnable cfg c val (S.chan n))) :=
    h.setChan (latchEnable_inv (h.chans n) val) (hslot _ rfl rfl)
  unfold writeCnt
  dsimp only
  split
  · split
    · exact h1
    · split
      · exact startSet_inv h1 n
      · split <;> exact h1
  · exact h.setChan ((h.chans n).withControl val) (hslot _ rfl rfl)

@[simp] theorem writeCnt_executing (cfg : Config) (c : CoreId) (n : ChanId) (val : Word) (S : ChannelSet) :
    (writeCnt cfg c n val S).1.executing = S.executing := by
  unfold writeCnt
  dsimp only
  split
  · split
    · rfl
    · split
      · simp
      · split <;> rfl
  · rfl

/-! ## The end of a slice -/

theorem sliceBoundary_inv {cfg : Config} {c : CoreId} {S : ChannelSet} (h : SetInv cfg c S) {n : ChanId}
    (hn : S.slot.busy = true → S.slot.channel ≠ n) : SetInv cfg c (sliceBoundary c n S).1 := by
  have hc := h.chans n
  exact (h.setChan (ch := { S.chan n with running := .idle }) ⟨hc.remaining_le, hc.iteration_le,
    fun hr => absurd rfl hr, hc.mode_producible, hc.core_eq, hc.chan_eq⟩ fun hb he => absurd he (hn hb)).withStall _

/-- A completion keeps the set's invariant, if the channel's own unit is not in the slot. -/
theorem complete_inv {cfg : Config} {c : CoreId} {S : ChannelSet} (h : SetInv cfg c S) {n : ChanId}
    (hn : S.slot.busy = true → S.slot.channel ≠ n) : SetInv cfg c (complete cfg c n S).1 := by
  have hc := h.chans n
  have h1 : SetInv cfg c (resumeCpu n (S.setChan n { S.chan n with
      controlWord := completedWord (S.chan n).controlWord, inProgress := false, running := .idle,
      queued := false })) :=
    (h.setChan (ch := { S.chan n with
      controlWord := completedWord (S.chan n).controlWord, inProgress := false, running := .idle,
      queued := false }) ⟨hc.remaining_le, hc.iteration_le, fun hr => absurd rfl hr, hc.mode_producible,
      hc.core_eq, hc.chan_eq⟩ fun hb he => absurd he (hn hb)).withStall _
  unfold complete
  dsimp only
  split
  · exact startSet_inv h1 n
  · exact h1

@[simp] theorem complete_executing (cfg : Config) (c : CoreId) (n : ChanId) (S : ChannelSet) :
    (complete cfg c n S).1.executing = S.executing := by
  unfold complete
  dsimp only
  split <;> simp

@[simp] theorem sliceBoundary_executing (c : CoreId) (n : ChanId) (S : ChannelSet) :
    (sliceBoundary c n S).1.executing = S.executing := rfl

@[simp] theorem leaveRun_executing (n : ChanId) (S : ChannelSet) : (leaveRun n S).executing = none := rfl
@[simp] theorem leaveRun_slot (n : ChanId) (S : ChannelSet) : (leaveRun n S).slot = S.slot := rfl
@[simp] theorem leaveRun_share (n : ChanId) (S : ChannelSet) : (leaveRun n S).share = S.share := rfl
@[simp] theorem leaveRun_stallBits (n : ChanId) (S : ChannelSet) : (leaveRun n S).stallBits = S.stallBits := rfl

theorem chan_leaveRun (n m : ChanId) (S : ChannelSet) :
    (leaveRun n S).chan m = if m = n then { S.chan n with extStall := false } else S.chan m := by
  unfold leaveRun
  rw [chan_setChan]
  rfl

theorem leaveRun_inv {cfg : Config} {c : CoreId} {S : ChannelSet} (h : SetInv cfg c S) (n : ChanId) :
    SetInv cfg c (leaveRun n S) := by
  have hc := h.chans n
  refine (h.withExecuting none).setChan ⟨hc.remaining_le, hc.iteration_le, hc.running_inProgress,
    hc.mode_producible, hc.core_eq, hc.chan_eq⟩ fun hb he => ?_
  have := h.slot_busy hb
  rw [show S.slot.channel = n from he] at this
  exact this

/-- The post-loop steps keep the set's invariant (R317 to R321). -/
theorem endSlice_inv {cfg : Config} {c : CoreId} {S : ChannelSet} (h : SetInv cfg c S) {n : ChanId} (e : SliceEnd)
    (hp : (S.chan n).inProgress = true) (hn : S.slot.busy = true → S.slot.channel ≠ n) :
    SetInv cfg c (endSlice cfg c n e S).1 := by
  have hc := h.chans n
  have h1 : SetInv cfg c (leaveRun n (S.setChan n { S.chan n with running := endMarker e })) :=
    leaveRun_inv (h.setChan (ch := { S.chan n with running := endMarker e }) ⟨hc.remaining_le, hc.iteration_le,
      fun _ => hp, hc.mode_producible, hc.core_eq, hc.chan_eq⟩ fun hb he => absurd he (hn hb)) n
  unfold endSlice
  dsimp only
  split
  · split
    · exact sliceBoundary_inv h1 hn
    · exact h1
  · exact complete_inv h1 hn

@[simp] theorem endSlice_executing (cfg : Config) (c : CoreId) (n : ChanId) (e : SliceEnd) (S : ChannelSet) :
    (endSlice cfg c n e S).1.executing = none := by
  unfold endSlice
  dsimp only
  split
  · split <;> simp
  · simp

/-! ## Units -/

theorem commitUnit_inv {cfg : Config} {c : CoreId} {n : ChanId} {ch : Channel} (h : ChannelInv cfg c n ch)
    (hi : ch.iterationCount ≠ 0) (w : UnitWidth) : ChannelInv cfg c n (commitUnit w ch) := by
  have hi' : ch.iterationCount.toNat ≠ 0 := fun e => hi (BitVec.eq_of_toNat_eq e)
  have hle : ch.iterationCount.toNat ≤ ch.remainingCount.toNat := h.iteration_le
  refine ⟨?_, ?_, h.running_inProgress, h.mode_producible, h.core_eq, h.chan_eq⟩
  · have := h.remaining_le
    simp only [commitUnit]
    bv_omega
  · simp only [commitUnit]
    bv_omega

theorem afterUnit_inv {cfg : Config} {c : CoreId} {S : ChannelSet} (h : SetInv cfg c S) {n : ChanId}
    (hi : (S.chan n).iterationCount ≠ 0) (hn : S.slot.busy = true → S.slot.channel ≠ n) (w : UnitWidth) :
    SetInv cfg c (afterUnit cfg c n w S) :=
  (h.withShare (updateShare_form _ _ _ _ _ _ _ h.share_form) (updateShare_banks _ _ _ _ _ _ _ h.share_banks)).setChan
    (commitUnit_inv (h.chans n) hi w) fun hb he => absurd he (hn hb)

theorem handOffOrWait_inv {cfg : Config} {c : CoreId} {S : ChannelSet} (h : SetInv cfg c S) {n : ChanId}
    (hi : (S.chan n).iterationCount ≠ 0) (hp : (S.chan n).inProgress = true) :
    SetInv cfg c (handOffOrWait cfg c n S) := by
  have hc := h.chans n
  have hch : ChannelInv cfg c n { S.chan n with running := .interrupted } :=
    ⟨hc.remaining_le, hc.iteration_le, fun _ => hp, hc.mode_producible, hc.core_eq, hc.chan_eq⟩
  have h1 : SetInv cfg c (S.setChan n { S.chan n with running := .interrupted }) :=
    h.setChan hch fun _ _ => ⟨by simp, hi⟩
  unfold handOffOrWait
  dsimp only
  split
  · exact h1
  · refine ⟨h1.chans, ?_, shareClose_form _ (shareClose_form _ h.share_form),
      shareSet_banks _ (bankAt_mem cfg c _) (shareSet_banks _ (bankAt_mem cfg c _) h.share_banks)⟩
    rw [slotOk_iff]
    intro _
    show ((S.setChan n { S.chan n with running := .interrupted }).chan n).running ≠ .idle ∧ _
    refine ⟨by simp, ?_⟩
    show ((S.setChan n { S.chan n with running := .interrupted }).chan n).iterationCount ≠ 0
    simpa using hi

theorem commitSlot_inv {cfg : Config} {c : CoreId} {S : ChannelSet} (h : SetInv cfg c S) (hb : S.slot.busy = true) :
    SetInv cfg c (commitSlot S) := by
  have hs := h.slot_busy hb
  refine ⟨fun m => ?_, by simp [slotOk, commitSlot], h.share_form, h.share_banks⟩
  show ChannelInv cfg c m ((S.setChan S.slot.channel _).chan m)
  rw [chan_setChan]
  split
  next hm => rw [hm]; exact commitUnit_inv (h.chans _) hs.2 _
  next => exact h.chans m

end Sys2Proof.Machine
end

