-- ==== Sys2Proof/Laws/HostPorts.lean ====
section
/-!
SUPPORT. Reading a section of a state vector back: a section that was written reads as what was written
(R365, R367), and a section that is accepted is the one its value writes (R366).
-/
namespace Sys2Proof.Machine

/-! ## Words -/

theorem wordBool_eq_some {w : Word} {b : Bool} : wordBool w = some b ↔ w = boolWord b := by
  unfold wordBool boolWord
  split
  next h => subst h; cases b <;> simp
  next h =>
    split
    next h' => subst h'; cases b <;> simp
    next h' => cases b <;> simp <;> assumption

theorem wordInc_eq_some {w : Word} {i : Inc} : wordInc w = some i ↔ w = incWord i := by
  unfold wordInc
  split
  next h => subst h; cases i <;> simp [incWord]
  next h =>
    split
    next h' => subst h'; cases i <;> simp [incWord]
    next h' =>
      split
      next h'' => subst h''; cases i <;> simp [incWord]
      next h'' => cases i <;> simp [incWord] <;> assumption

theorem word_eq_ofNat {w : Word} {k : Nat} (hk : k < 2 ^ 32) : w.toNat = k ↔ w = BitVec.ofNat 32 k := by
  constructor
  · intro h; rw [← h, BitVec.ofNat_toNat, BitVec.setWidth_eq]
  · intro h; rw [h, BitVec.toNat_ofNat, Nat.mod_eq_of_lt hk]

theorem wordMarker_eq_some {w : Word} {m : Marker} :
    wordMarker w = some m ↔ w = BitVec.ofNat 32 m.toNat := by
  rw [← word_eq_ofNat (by cases m <;> decide)]
  unfold wordMarker
  split
  next h => rw [h]; cases m <;> simp [Marker.toNat]
  next h => rw [h]; cases m <;> simp [Marker.toNat]
  next h => rw [h]; cases m <;> simp [Marker.toNat]
  next h => rw [h]; cases m <;> simp [Marker.toNat]
  next h0 h1 h2 h3 => cases m <;> simp only [Marker.toNat, reduceCtorEq, false_iff] <;> assumption

theorem wordChan_eq_some {w : Word} {n : ChanId} : wordChan w = some n ↔ w = BitVec.ofNat 32 n.toNat := by
  rw [← word_eq_ofNat (by cases n <;> decide)]
  unfold wordChan
  split
  next h => rw [h]; cases n <;> simp [ChanId.toNat]
  next h => rw [h]; cases n <;> simp [ChanId.toNat]
  next h => rw [h]; cases n <;> simp [ChanId.toNat]
  next h => rw [h]; cases n <;> simp [ChanId.toNat]
  next h0 h1 h2 h3 => cases n <;> simp only [ChanId.toNat, reduceCtorEq, false_iff] <;> assumption

theorem wordWidth_eq_some {w : Word} {u : UnitWidth} :
    wordWidth w = some u ↔ w = BitVec.ofNat 32 u.bits := by
  unfold wordWidth
  split
  next h => subst h; cases u <;> simp [UnitWidth.bits]
  next h =>
    split
    next h' => subst h'; cases u <;> simp [UnitWidth.bits]
    next h' => cases u <;> simp [UnitWidth.bits] <;> assumption

theorem eventOfCode_eq_some {k : Nat} {ev : StartEvent} : eventOfCode k = some ev ↔ k = ev.code := by
  unfold eventOfCode
  split <;> cases ev <;> simp_all [StartEvent.code]

theorem wordEvent_eq_some {v : Variant} {w : Word} {ev : StartEvent} :
    wordEvent v w = some ev ↔ w = BitVec.ofNat 32 ev.code ∧ producible v ev = true := by
  unfold wordEvent
  rw [Option.filter_eq_some_iff, eventOfCode_eq_some, word_eq_ofNat (by cases ev <;> decide)]

/-! ## Sections -/

/-- An accepted channel section is the one its channel writes; the channel meets what R366 checks and has the
identity of its place. -/
theorem readChannel_eq_some {cfg : Config} {c : CoreId} {n : ChanId} {ws rest : List Word} {ch : Channel} :
    readChannel cfg c n ws = some (ch, rest) ↔
      ws = channelSection c n ch ++ rest ∧ channelOk cfg c n ch = true
        ∧ producible (cfg.variant.get c) ch.startMode = true ∧ ch.cpuCore = c ∧ ch.channelNumber = n := by
  constructor
  · intro h
    unfold readChannel at h
    split at h
    next w0 w1 w2 w3 w4 w5 w6 w7 w8 w9 w10 w11 w12 w13 w14 w15 w16 w17 rest' =>
      split at h
      next hid =>
        obtain ⟨h0, h1, h2⟩ := hid
        simp only [Option.bind_eq_bind, Option.bind_eq_some_iff] at h
        obtain ⟨i, hi, j, hj, r, hr, p, hp, q, hq, f, hf, m, hm, x, hx, h⟩ := h
        split at h
        next hok =>
          cases h
          rw [wordInc_eq_some] at hi hj
          rw [wordMarker_eq_some] at hr
          rw [wordBool_eq_some] at hp hq hf hx
          rw [wordEvent_eq_some] at hm
          refine ⟨?_, hok, hm.2, rfl, rfl⟩
          rw [h0, h1, h2, hi, hj, hr, hp, hq, hf, hm.1, hx]
          rfl
        · cases h
      · cases h
    · cases h
  · rintro ⟨rfl, hok, hm, hc, hn⟩
    obtain ⟨a1, a2, a3, ev, si, di, a4, a5, a6, a7, r, p, q, f, x, c', n'⟩ := ch
    cases hc
    cases hn
    simp only [channelSection, List.cons_append, List.nil_append, readChannel]
    rw [if_pos ⟨trivial, trivial, trivial⟩, wordInc_eq_some.2 rfl, wordInc_eq_some.2 rfl,
      wordMarker_eq_some.2 rfl, wordBool_eq_some.2 rfl, wordBool_eq_some.2 rfl, wordBool_eq_some.2 rfl,
      wordEvent_eq_some.2 ⟨rfl, hm⟩, wordBool_eq_some.2 rfl]
    simp [hok]

/-- What R366 checks of a channel, as the invariant says it. -/
theorem channelOk_iff {cfg : Config} {c : CoreId} {n : ChanId} {ch : Channel} :
    channelOk cfg c n ch = true ↔ ch.remainingCount.toNat ≤ (countMask cfg c n).toNat + 1
      ∧ ch.iterationCount ≤ ch.remainingCount ∧ (ch.running ≠ .idle → ch.inProgress = true) := by
  unfold channelOk
  rw [Bool.and_eq_true, Bool.and_eq_true, decide_eq_true_eq, decide_eq_true_eq, Bool.or_eq_true,
    decide_eq_true_eq, and_assoc]
  refine and_congr Iff.rfl (and_congr Iff.rfl ?_)
  by_cases h : ch.running = .idle <;> simp [h]

theorem readChannels_eq_some {cfg : Config} {c : CoreId} {ws rest : List Word} {chans : PerChan Channel} :
    readChannels cfg c ws = some (chans, rest) ↔
      ws = channelSection c .ch0 chans.ch0 ++ (channelSection c .ch1 chans.ch1
          ++ (channelSection c .ch2 chans.ch2 ++ (channelSection c .ch3 chans.ch3 ++ rest)))
        ∧ ∀ n, ChannelInv cfg c n (chans.get n) := by
  have key : ∀ n ch, (channelOk cfg c n ch = true ∧ producible (cfg.variant.get c) ch.startMode = true
      ∧ ch.cpuCore = c ∧ ch.channelNumber = n) ↔ ChannelInv cfg c n ch := by
    intro n ch
    rw [channelOk_iff]
    constructor
    · rintro ⟨⟨h1, h2, h3⟩, h4, h5, h6⟩; exact ⟨h1, h2, h3, h4, h5, h6⟩
    · rintro ⟨h1, h2, h3, h4, h5, h6⟩; exact ⟨⟨h1, h2, h3⟩, h4, h5, h6⟩
  obtain ⟨x0, x1, x2, x3⟩ := chans
  unfold readChannels
  simp only [Option.bind_eq_bind, Option.bind_eq_some_iff, Prod.exists, readChannel_eq_some, key,
    Option.some.injEq, Prod.mk.injEq, PerChan.mk.injEq]
  constructor
  · rintro ⟨y0, r0, ⟨rfl, h0⟩, y1, r1, ⟨rfl, h1⟩, y2, r2, ⟨rfl, h2⟩, y3, r3, ⟨rfl, h3⟩, ⟨rfl, rfl, rfl, rfl⟩, rfl⟩
    exact ⟨rfl, fun n => by cases n <;> assumption⟩
  · rintro ⟨rfl, h⟩
    exact ⟨x0, _, ⟨rfl, h .ch0⟩, x1, _, ⟨rfl, h .ch1⟩, x2, _, ⟨rfl, h .ch2⟩, x3, _, ⟨rfl, h .ch3⟩,
      ⟨rfl, rfl, rfl, rfl⟩, rfl⟩

/-- An accepted share table: the words are those of its entries, bank by bank, and it lists no other bank. -/
theorem readShare_some {l : List Nat} (hl : l.Pairwise (· < ·)) {ws rest : List Word}
    {share : List (Nat × ShareEntry)} (h : readShare l ws = some (share, rest)) :
    ws = shareSection share l ++ rest ∧ storeWf ShareEntry.reset share = true ∧ ∀ p ∈ share, p.1 ∈ l := by
  induction l generalizing ws rest share with
  | nil => cases h; exact ⟨rfl, rfl, by simp⟩
  | cons b bs ih =>
    match ws, h with
    | v :: o :: ws', h =>
      simp only [readShare, Option.bind_eq_bind, Option.bind_eq_some_iff, wordBool_eq_some,
        wordChan_eq_some, Prod.exists, Option.some.injEq, Prod.mk.injEq] at h
      obtain ⟨va, rfl, ow, rfl, sh, re, hre, rfl, rfl⟩ := h
      obtain ⟨rfl, hwf, hmem⟩ := ih (List.pairwise_cons.1 hl).2 hre
      have hne : ∀ b' ∈ bs, b' ≠ b := fun b' hb => Nat.ne_of_gt ((List.pairwise_cons.1 hl).1 b' hb)
      have hsec : ∀ l' : List Nat, (∀ b' ∈ l', b' ≠ b) →
          shareSection (shareSet sh b ⟨va, ow⟩) l' = shareSection sh l' := by
        intro l'
        induction l' with
        | nil => intro _; rfl
        | cons a l' ih' =>
          intro ha
          simp only [shareSection]
          rw [ih' fun b' hb => ha b' (List.mem_cons_of_mem _ hb)]
          unfold shareAt shareSet
          rw [storeGet_set_other _ hwf (ha a List.mem_cons_self)]
      refine ⟨?_, shareSet_form _ _ hwf, ?_⟩
      · rw [shareSection, hsec _ hne]
        unfold shareAt shareSet
        rw [storeGet_set_same _ _ hwf]
        simp [shareWords]
      · exact shareSet_banks _ List.mem_cons_self fun p hp => List.mem_cons_of_mem _ (hmem p hp)
    | [], h => cases h
    | [_], h => cases h

/-- The share words of a table read back as the table, where it lists only the banks read. -/
theorem readShare_section {l : List Nat} {share : List (Nat × ShareEntry)}
    (hwf : storeWf ShareEntry.reset share = true) (hmem : ∀ p ∈ share, p.1 ∈ l) (rest : List Word) :
    readShare l (shareSection share l ++ rest) = some (share, rest) := by
  have key : ∀ l' : List Nat, ∃ sh, readShare l' (shareSection share l' ++ rest) = some (sh, rest)
      ∧ storeWf ShareEntry.reset sh = true
      ∧ ∀ b, shareAt sh b = if b ∈ l' then shareAt share b else ShareEntry.reset := by
    intro l'
    induction l' with
    | nil => exact ⟨[], rfl, rfl, fun b => by simp [shareAt, storeGet]⟩
    | cons a l' ih =>
      obtain ⟨sh, h1, h2, h3⟩ := ih
      refine ⟨shareSet sh a (shareAt share a), ?_, shareSet_form _ _ h2, fun b => ?_⟩
      · simp only [shareSection, shareWords, List.cons_append, List.nil_append, readShare]
        rw [wordBool_eq_some.2 rfl, wordChan_eq_some.2 rfl]
        simp [h1]
      · unfold shareAt shareSet at *
        by_cases hb : b = a
        · subst hb; rw [storeGet_set_same _ _ h2]; simp
        · rw [storeGet_set_other _ h2 hb, h3]; simp [hb]
  obtain ⟨sh, h1, h2, h3⟩ := key l
  have hunlisted : ∀ (m : List (Nat × ShareEntry)) b, (∀ p ∈ m, p.1 ≠ b) →
      storeGet ShareEntry.reset m b = ShareEntry.reset := by
    intro m b
    induction m with
    | nil => intro _; rfl
    | cons p m ih =>
      intro h
      simp only [storeGet]
      rw [if_neg (h p List.mem_cons_self)]
      exact ih fun q hq => h q (List.mem_cons_of_mem _ hq)
  have : sh = share := by
    refine store_ext h2 hwf fun b => ?_
    have := h3 b
    unfold shareAt at this
    rw [this]
    split
    · rfl
    next hb => exact (hunlisted share b fun p hp e => hb (e ▸ hmem p hp)).symm
  rw [h1, this]

theorem pairwise_insertRising (k : Nat) {l : List Nat} (h : l.Pairwise (· < ·)) :
    (insertRising k l).Pairwise (· < ·) := by
  induction l with
  | nil => simp [insertRising]
  | cons j r ih =>
    have hj := List.pairwise_cons.1 h
    simp only [insertRising]
    split
    next hk =>
      refine List.pairwise_cons.2 ⟨fun b hb => ?_, h⟩
      rcases List.mem_cons.1 hb with rfl | hb
      · exact hk
      · exact Nat.lt_trans hk (hj.1 b hb)
    next hk =>
      split
      · exact h
      next hne =>
        refine List.pairwise_cons.2 ⟨fun b hb => ?_, ih hj.2⟩
        rcases mem_insertRising.1 hb with rfl | hb
        · omega
        · exact hj.1 b hb

/-- The banks are listed in increasing order, each once (R60, R363). -/
theorem pairwise_banks (cfg : Config) : (banks cfg).Pairwise (· < ·) := by
  unfold banks
  generalize regionIds cfg = l
  induction l with
  | nil => simp
  | cons r l ih => exact pairwise_insertRising _ ih

/-- An accepted set section is the one its set writes; the set meets its invariants and performs no slice
(R363, R366). -/
theorem readSet_eq_some {cfg : Config} {c : CoreId} {chans : PerChan Channel} {ws rest : List Word} {S : ChannelSet}
    (hc : ∀ n, ChannelInv cfg c n (chans.get n)) :
    readSet (banks cfg) c chans ws = some (S, rest) ↔
      ws = setSection (banks cfg) c S ++ rest ∧ S.chans = chans ∧ SetInv cfg c S ∧ S.executing = none := by
  constructor
  · intro h
    unfold readSet at h
    split at h
    next w0 w1 w2 w3 w4 rest' =>
      split at h
      next hid =>
        simp only [Option.bind_eq_bind, Option.bind_eq_some_iff] at h
        obtain ⟨b, hb, w, hw, ch, hch, r, hr, h⟩ := h
        split at h
        next hok =>
          cases h
          rw [wordBool_eq_some] at hb
          rw [wordWidth_eq_some] at hw
          rw [wordChan_eq_some] at hch
          obtain ⟨h1, h2, h3⟩ := readShare_some (pairwise_banks cfg) 
            (show readShare (banks cfg) rest' = some (r.1, r.2) from hr)
          refine ⟨?_, rfl, ⟨hc, hok, h2, h3⟩, rfl⟩
          have : (w1.setWidth 4).setWidth 32 = w1 := by
            have := hid.2; bv_omega
          simp [setSection, hid.1, this, hb, hw, hch, h1]
        · cases h
      · cases h
    · cases h
  · rintro ⟨rfl, rfl, hS, he⟩
    obtain ⟨chs, ex, st, sh, sl⟩ := S
    obtain ⟨bu, wi, cn⟩ := sl
    cases he
    simp only [setSection, List.cons_append, List.nil_append, readSet]
    rw [if_pos ⟨trivial, by bv_omega⟩, wordBool_eq_some.2 rfl, wordWidth_eq_some.2 rfl, wordChan_eq_some.2 rfl,
      readShare_section hS.share_form hS.share_banks]
    have : (BitVec.setWidth 32 st).setWidth 4 = st := by bv_omega
    simp [this]
    exact hS.slot_ok

/-- An accepted vector is the one its sets write, and the sets meet their invariants; every vector that SAVE
writes of such sets is accepted (R366, R367). -/
theorem readVector_eq_some {cfg : Config} {vec : List Word} {sets : PerCore ChannelSet} :
    readVector cfg vec = some sets ↔ vec = saveVector cfg sets ∧ (∀ c, SetInv cfg c (sets.get c))
      ∧ ∀ c, (sets.get c).executing = none := by
  obtain ⟨S0, S1⟩ := sets
  unfold readVector
  simp only [Option.bind_eq_bind, Option.bind_eq_some_iff, Prod.exists, readChannels_eq_some]
  constructor
  · rintro ⟨c0, r0, ⟨rfl, h0⟩, c1, r1, ⟨rfl, h1⟩, T0, r2, hT0, T1, r3, hT1, h⟩
    rw [readSet_eq_some h0] at hT0
    rw [readSet_eq_some h1] at hT1
    obtain ⟨rfl, rfl, i0, e0⟩ := hT0
    obtain ⟨rfl, rfl, i1, e1⟩ := hT1
    split at h
    next hr =>
      cases h
      subst hr
      exact ⟨by simp [saveVector, channelSections], fun c => by cases c <;> assumption,
        fun c => by cases c <;> assumption⟩
    · cases h
  · rintro ⟨rfl, h, he⟩
    refine ⟨S0.chans, _, ⟨by simp only [saveVector, channelSections, List.append_assoc]; rfl, (h .core0).chans⟩,
      S1.chans, _, ⟨rfl, (h .core1).chans⟩, S0, setSection (banks cfg) .core1 S1, ?_, S1, [], ?_, ?_⟩
    · exact (readSet_eq_some (h .core0).chans).2 ⟨rfl, rfl, h .core0, he .core0⟩
    · exact (readSet_eq_some (h .core1).chans).2 ⟨(List.append_nil _).symm, rfl, h .core1, he .core1⟩
    · simp

end Sys2Proof.Machine
end

