-- ==== Sys2Proof/Laws/Operands.lean ====
section
/-!
SUPPORT. The operand forms bit by bit.
-/
namespace Sys2Proof.Machine

theorem bitField_one_eq (k : Nat) (w : Word) : (bitField k 1 w == 1) = w.getLsbD k := by
  have h : (bitField k 1 w).getLsbD 0 = w.getLsbD k := by simp [bitField]
  have hb : ∀ b : BitVec 1, (b == 1) = b.getLsbD 0 := by decide
  rw [hb, h]

/-- R149. -/
theorem enableBit_eq (w : Word) : enableBit w = w.getLsbD 31 := bitField_one_eq 31 w

/-- R148. -/
theorem irqEnBit_eq (w : Word) : irqEnBit w = w.getLsbD 30 := bitField_one_eq 30 w

/-- R145. -/
theorem repeatBit_eq (w : Word) : repeatBit w = w.getLsbD 25 := bitField_one_eq 25 w

theorem byteMask_bit : ∀ (be : BitVec 4) (i : Fin 32),
    (byteMask be).getLsbD i.val = be.getLsbD (i.val / 8) := by decide

/-- A byte-enabled write, bit by bit (R201). -/
theorem mergeBytes_lanes (old : Word) (be : BitVec 4) (d : Word) : MergedLanes old be d (mergeBytes old be d) := by
  intro i hi
  have hm := byteMask_bit be ⟨i, hi⟩
  simp only [mergeBytes, BitVec.getLsbD_or, BitVec.getLsbD_and, BitVec.getLsbD_not, hm, hi, decide_true,
    Bool.true_and]
  cases be.getLsbD (i / 8) <;> simp

/-- The merged word is the only one with its lanes. -/
theorem MergedLanes.eq {old : Word} {be : BitVec 4} {d m : Word} (h : MergedLanes old be d m) :
    m = mergeBytes old be d := by
  apply BitVec.eq_of_getLsbD_eq
  intro i hi
  rw [h i hi, mergeBytes_lanes old be d i hi]

/-- A mask of low bits keeps the remainder (R10, R142). -/
theorem countField_toNat (cfg : Config) (c : CoreId) (n : ChanId) (w : Word) :
    (countField cfg c n w).toNat = w.toNat % 2 ^ ((cfg.countBits.get c).get n).val := by
  have hb := ((cfg.countBits.get c).get n).isLt
  have h1 : 2 ^ ((cfg.countBits.get c).get n).val ≤ 2 ^ 21 := Nat.pow_le_pow_right (by decide) (by omega)
  have h2 : 0 < 2 ^ ((cfg.countBits.get c).get n).val := Nat.pow_pos (by decide)
  unfold countField countMask
  rw [BitVec.toNat_and, BitVec.toNat_ofNat, Nat.mod_eq_of_lt (by omega), Nat.and_two_pow_sub_one_eq_mod]

/-- COUNT_MASK+1 is a power of two (R10). -/
theorem countMask_succ (cfg : Config) (c : CoreId) (n : ChanId) :
    (countMask cfg c n + 1).toNat = 2 ^ ((cfg.countBits.get c).get n).val := by
  have hb := ((cfg.countBits.get c).get n).isLt
  have h1 : 2 ^ ((cfg.countBits.get c).get n).val ≤ 2 ^ 21 := Nat.pow_le_pow_right (by decide) (by omega)
  have h2 : 0 < 2 ^ ((cfg.countBits.get c).get n).val := Nat.pow_pos (by decide)
  unfold countMask
  rw [BitVec.toNat_add, BitVec.toNat_ofNat, show (1 : Word).toNat = 1 from rfl]
  omega

/-- A row's word with the row's code already in place is the word itself. -/
theorem rowWord_eq {mask code w : Word} (h : w &&& mask = code) : rowWord mask code w = w := by
  rw [← h]
  apply BitVec.eq_of_getLsbD_eq
  intro i hi
  simp only [rowWord, BitVec.getLsbD_or, BitVec.getLsbD_and, BitVec.getLsbD_not, hi, decide_true, Bool.true_and]
  cases w.getLsbD i <;> cases mask.getLsbD i <;> rfl

/-- A write with every byte enabled stores the data. -/
theorem mergeBytes_all (old d : Word) : mergeBytes old 0xF d = d := by
  apply BitVec.eq_of_getLsbD_eq
  intro i hi
  have h15 : ∀ j : Fin 32, (0xF : BitVec 4).getLsbD (j.val / 8) = true := by decide
  rw [mergeBytes_lanes old 0xF d i hi, h15 ⟨i, hi⟩]
  rfl

end Sys2Proof.Machine
end

