-- ==== Sys2Proof/Laws/PerInstr.lean ====
section
/-!
SUPPORT. A statement for every instruction: what it encodes to matches its row of spec/opcode_table.json.
-/
namespace Sys2Proof.Laws.MatchesTable

/-- The table's (mask, match) of an instruction's row, written out from spec/opcode_table.json. -/
def row : Instr → Word × Word
  | .wrSad _ _ _ _ => (0xFFFFE18F, 0x00000000)
  | .wrDad _ _ _ _ => (0xFFFFE18F, 0x00000080)
  | .wrCnt _ _ _ _ => (0xFFFFE18F, 0x00000100)
  | .rdSad _ _ => (0xFFFFFF8F, 0x00000001)
  | .rdDad _ _ => (0xFFFFFF8F, 0x00000081)
  | .rdCnt _ _ => (0xFFFFFF8F, 0x00000101)
  | .trig _ _ => (0xFFFE1FEF, 0x00000002)
  | .tick _ => (0xFFFFFFEF, 0x00000003)
  | .mramDone _ => (0xFFFFFFEF, 0x00000004)
  | .xstall _ _ => (0xFFFFFF8F, 0x00000005)
  | .resetBlock => (0xFFFFFFFF, 0x00000006)
  | .save => (0xFFFFFFFF, 0x00000007)
  | .restore _ => (0xFFFFFFFF, 0x00000008)
  | .cntStartImmediateWide _ _ _ => (0x38000000, 0x00000000)
  | .cntStartVblankWide _ _ _ => (0x38000000, 0x08000000)
  | .cntStartHblankWide _ _ _ => (0x38000000, 0x10000000)
  | .cntStartDisplayStartWide _ _ _ => (0x38000000, 0x18000000)
  | .cntStartMainMemDisplayWide _ _ _ => (0x38000000, 0x20000000)
  | .cntStartCartWide _ _ _ => (0x38000000, 0x28000000)
  | .cntStartGbaSlotWide _ _ _ => (0x38000000, 0x30000000)
  | .cntStartGxFifoWide _ _ _ => (0x38000000, 0x38000000)
  | .cntStartImmediateNarrow _ _ _ => (0x30000000, 0x00000000)
  | .cntStartVblankNarrow _ _ _ => (0x30000000, 0x10000000)
  | .cntStartCartNarrow _ _ _ => (0x30000000, 0x20000000)
  | .cntStartWifiGbaNarrow _ _ _ => (0x30000000, 0x30000000)
  | .cntDstIncrement _ _ _ => (0x00600000, 0x00000000)
  | .cntDstDecrement _ _ _ => (0x00600000, 0x00200000)
  | .cntDstFixed _ _ _ => (0x00600000, 0x00400000)
  | .cntDstIncrementReload _ _ _ => (0x00600000, 0x00600000)
  | .cntSrcIncrement _ _ _ => (0x01800000, 0x00000000)
  | .cntSrcDecrement _ _ _ => (0x01800000, 0x00800000)
  | .cntSrcFixed _ _ _ => (0x01800000, 0x01000000)
  | .cntSrcReservedAsIncrement _ _ _ => (0x01800000, 0x01800000)
  | .cntWidth16 _ _ _ => (0x04000000, 0x00000000)
  | .cntWidth32 _ _ _ => (0x04000000, 0x04000000)
  | .cntRepeat _ _ _ => (0x02000000, 0x02000000)
  | .cntIrqEn _ _ _ => (0x40000000, 0x40000000)
  | .cntEnable _ _ _ => (0x80000000, 0x80000000)
  | .cntCount _ _ _ => (0x00000000, 0x00000000)

/-- The 32 bits a table row speaks of: a command's header, or the control word. -/
def tableBits : Input → Word
  | .command (h :: _) => h
  | .command [] => 0
  | .busWrite _ _ _ d => d
  | .busRead _ _ => 0
  | .control _ _ _ w => w
  | .setTs _ _ => 0
  | .setTarget _ _ => 0
  | .setMem _ _ _ _ => 0

/-- The encoding of the instruction, where it is well formed, matches its row of the opcode table. -/
def Statement (i : Instr) : Prop :=
  ∀ cfg : Config, i.wellFormed cfg = true → tableBits (encode i) &&& (row i).1 = (row i).2

/-- A field of a word, as the bits of the word under the field's mask. -/
theorem field_masked (lo len : Nat) (h : lo + len ≤ 32) (w : Word) :
    w &&& ((BitVec.allOnes len).setWidth 32 <<< lo) = (bitField lo len w).setWidth 32 <<< lo := by
  apply BitVec.eq_of_getLsbD_eq
  intro i hi
  simp only [bitField, BitVec.getLsbD_and, BitVec.getLsbD_shiftLeft, BitVec.getLsbD_setWidth,
    BitVec.getLsbD_allOnes, BitVec.getLsbD_extractLsb']
  by_cases h1 : i < lo
  · simp [h1]
  · by_cases h2 : i - lo < len
    · have h3 : i - lo < 32 := by omega
      have h4 : lo + (i - lo) = i := by omega
      simp [h1, h2, h3, h4, hi]
    · simp [h2]

theorem writeHeader_masked0 : ∀ (core : BitVec 1) (ch : BitVec 2) (be : BitVec 4),
    headerWord 0 core ch 0 be 0 &&& 0xFFFFE18F = 0x00000000 := by decide

theorem writeHeader_masked1 : ∀ (core : BitVec 1) (ch : BitVec 2) (be : BitVec 4),
    headerWord 0 core ch 1 be 0 &&& 0xFFFFE18F = 0x00000080 := by decide

theorem writeHeader_masked2 : ∀ (core : BitVec 1) (ch : BitVec 2) (be : BitVec 4),
    headerWord 0 core ch 2 be 0 &&& 0xFFFFE18F = 0x00000100 := by decide

theorem wrSad (c : CoreId) (n : ChanId) (be : BitVec 4) (d : Word) : Statement (.wrSad c n be d) := by
  intro _ _
  exact writeHeader_masked0 _ _ _

theorem wrDad (c : CoreId) (n : ChanId) (be : BitVec 4) (d : Word) : Statement (.wrDad c n be d) := by
  intro _ _
  exact writeHeader_masked1 _ _ _

theorem wrCnt (c : CoreId) (n : ChanId) (be : BitVec 4) (d : Word) : Statement (.wrCnt c n be d) := by
  intro _ _
  exact writeHeader_masked2 _ _ _

theorem rdSad (c : CoreId) (n : ChanId) : Statement (.rdSad c n) := by
  intro _ _
  cases c <;> cases n <;> rfl

theorem rdDad (c : CoreId) (n : ChanId) : Statement (.rdDad c n) := by
  intro _ _
  cases c <;> cases n <;> rfl

theorem rdCnt (c : CoreId) (n : ChanId) : Statement (.rdCnt c n) := by
  intro _ _
  cases c <;> cases n <;> rfl

theorem trig (c : CoreId) (ev : StartEvent) : Statement (.trig c ev) := by
  intro _ _
  cases c <;> cases ev <;> rfl

theorem tick (c : CoreId) : Statement (.tick c) := by
  intro _ _
  cases c <;> rfl

theorem mramDone (c : CoreId) : Statement (.mramDone c) := by
  intro _ _
  cases c <;> rfl

theorem xstall (c : CoreId) (n : ChanId) : Statement (.xstall c n) := by
  intro _ _
  cases c <;> cases n <;> rfl

theorem resetBlock : Statement (.resetBlock) := by
  intro _ _
  rfl

theorem save : Statement (.save) := by
  intro _ _
  rfl

theorem restore (vec : List Word) : Statement (.restore vec) := by
  intro _ _
  show headerWord 8 0 0 0 0 0 &&& 0xFFFFFFFF = 0x00000008
  decide

theorem cntStartImmediateWide (c : CoreId) (n : ChanId) (w : Word) : Statement (.cntStartImmediateWide c n w) := by
  intro cfg h
  have hf : bitField 27 3 w = 0 := of_decide_eq_true (Bool.and_eq_true_iff.1 h).2
  exact (field_masked 27 3 (by decide) w).trans (by rw [hf]; rfl)

theorem cntStartVblankWide (c : CoreId) (n : ChanId) (w : Word) : Statement (.cntStartVblankWide c n w) := by
  intro cfg h
  have hf : bitField 27 3 w = 1 := of_decide_eq_true (Bool.and_eq_true_iff.1 h).2
  exact (field_masked 27 3 (by decide) w).trans (by rw [hf]; rfl)

theorem cntStartHblankWide (c : CoreId) (n : ChanId) (w : Word) : Statement (.cntStartHblankWide c n w) := by
  intro cfg h
  have hf : bitField 27 3 w = 2 := of_decide_eq_true (Bool.and_eq_true_iff.1 h).2
  exact (field_masked 27 3 (by decide) w).trans (by rw [hf]; rfl)

theorem cntStartDisplayStartWide (c : CoreId) (n : ChanId) (w : Word) : Statement (.cntStartDisplayStartWide c n w) := by
  intro cfg h
  have hf : bitField 27 3 w = 3 := of_decide_eq_true (Bool.and_eq_true_iff.1 h).2
  exact (field_masked 27 3 (by decide) w).trans (by rw [hf]; rfl)

theorem cntStartMainMemDisplayWide (c : CoreId) (n : ChanId) (w : Word) : Statement (.cntStartMainMemDisplayWide c n w) := by
  intro cfg h
  have hf : bitField 27 3 w = 4 := of_decide_eq_true (Bool.and_eq_true_iff.1 h).2
  exact (field_masked 27 3 (by decide) w).trans (by rw [hf]; rfl)

theorem cntStartCartWide (c : CoreId) (n : ChanId) (w : Word) : Statement (.cntStartCartWide c n w) := by
  intro cfg h
  have hf : bitField 27 3 w = 5 := of_decide_eq_true (Bool.and_eq_true_iff.1 h).2
  exact (field_masked 27 3 (by decide) w).trans (by rw [hf]; rfl)

theorem cntStartGbaSlotWide (c : CoreId) (n : ChanId) (w : Word) : Statement (.cntStartGbaSlotWide c n w) := by
  intro cfg h
  have hf : bitField 27 3 w = 6 := of_decide_eq_true (Bool.and_eq_true_iff.1 h).2
  exact (field_masked 27 3 (by decide) w).trans (by rw [hf]; rfl)

theorem cntStartGxFifoWide (c : CoreId) (n : ChanId) (w : Word) : Statement (.cntStartGxFifoWide c n w) := by
  intro cfg h
  have hf : bitField 27 3 w = 7 := of_decide_eq_true (Bool.and_eq_true_iff.1 h).2
  exact (field_masked 27 3 (by decide) w).trans (by rw [hf]; rfl)

theorem cntStartImmediateNarrow (c : CoreId) (n : ChanId) (w : Word) : Statement (.cntStartImmediateNarrow c n w) := by
  intro cfg h
  have hf : bitField 28 2 w = 0 := of_decide_eq_true (Bool.and_eq_true_iff.1 h).2
  exact (field_masked 28 2 (by decide) w).trans (by rw [hf]; rfl)

theorem cntStartVblankNarrow (c : CoreId) (n : ChanId) (w : Word) : Statement (.cntStartVblankNarrow c n w) := by
  intro cfg h
  have hf : bitField 28 2 w = 1 := of_decide_eq_true (Bool.and_eq_true_iff.1 h).2
  exact (field_masked 28 2 (by decide) w).trans (by rw [hf]; rfl)

theorem cntStartCartNarrow (c : CoreId) (n : ChanId) (w : Word) : Statement (.cntStartCartNarrow c n w) := by
  intro cfg h
  have hf : bitField 28 2 w = 2 := of_decide_eq_true (Bool.and_eq_true_iff.1 h).2
  exact (field_masked 28 2 (by decide) w).trans (by rw [hf]; rfl)

theorem cntStartWifiGbaNarrow (c : CoreId) (n : ChanId) (w : Word) : Statement (.cntStartWifiGbaNarrow c n w) := by
  intro cfg h
  have hf : bitField 28 2 w = 3 := of_decide_eq_true (Bool.and_eq_true_iff.1 h).2
  exact (field_masked 28 2 (by decide) w).trans (by rw [hf]; rfl)

theorem cntDstIncrement (c : CoreId) (n : ChanId) (w : Word) : Statement (.cntDstIncrement c n w) := by
  intro cfg h
  have hf : bitField 21 2 w = 0 := of_decide_eq_true h
  exact (field_masked 21 2 (by decide) w).trans (by rw [hf]; rfl)

theorem cntDstDecrement (c : CoreId) (n : ChanId) (w : Word) : Statement (.cntDstDecrement c n w) := by
  intro cfg h
  have hf : bitField 21 2 w = 1 := of_decide_eq_true h
  exact (field_masked 21 2 (by decide) w).trans (by rw [hf]; rfl)

theorem cntDstFixed (c : CoreId) (n : ChanId) (w : Word) : Statement (.cntDstFixed c n w) := by
  intro cfg h
  have hf : bitField 21 2 w = 2 := of_decide_eq_true h
  exact (field_masked 21 2 (by decide) w).trans (by rw [hf]; rfl)

theorem cntDstIncrementReload (c : CoreId) (n : ChanId) (w : Word) : Statement (.cntDstIncrementReload c n w) := by
  intro cfg h
  have hf : bitField 21 2 w = 3 := of_decide_eq_true h
  exact (field_masked 21 2 (by decide) w).trans (by rw [hf]; rfl)

theorem cntSrcIncrement (c : CoreId) (n : ChanId) (w : Word) : Statement (.cntSrcIncrement c n w) := by
  intro cfg h
  have hf : bitField 23 2 w = 0 := of_decide_eq_true h
  exact (field_masked 23 2 (by decide) w).trans (by rw [hf]; rfl)

theorem cntSrcDecrement (c : CoreId) (n : ChanId) (w : Word) : Statement (.cntSrcDecrement c n w) := by
  intro cfg h
  have hf : bitField 23 2 w = 1 := of_decide_eq_true h
  exact (field_masked 23 2 (by decide) w).trans (by rw [hf]; rfl)

theorem cntSrcFixed (c : CoreId) (n : ChanId) (w : Word) : Statement (.cntSrcFixed c n w) := by
  intro cfg h
  have hf : bitField 23 2 w = 2 := of_decide_eq_true h
  exact (field_masked 23 2 (by decide) w).trans (by rw [hf]; rfl)

theorem cntSrcReservedAsIncrement (c : CoreId) (n : ChanId) (w : Word) : Statement (.cntSrcReservedAsIncrement c n w) := by
  intro cfg h
  have hf : bitField 23 2 w = 3 := of_decide_eq_true h
  exact (field_masked 23 2 (by decide) w).trans (by rw [hf]; rfl)

theorem cntWidth16 (c : CoreId) (n : ChanId) (w : Word) : Statement (.cntWidth16 c n w) := by
  intro cfg h
  have hf : bitField 26 1 w = 0 := of_decide_eq_true h
  exact (field_masked 26 1 (by decide) w).trans (by rw [hf]; rfl)

theorem cntWidth32 (c : CoreId) (n : ChanId) (w : Word) : Statement (.cntWidth32 c n w) := by
  intro cfg h
  have hf : bitField 26 1 w = 1 := of_decide_eq_true h
  exact (field_masked 26 1 (by decide) w).trans (by rw [hf]; rfl)

theorem cntRepeat (c : CoreId) (n : ChanId) (w : Word) : Statement (.cntRepeat c n w) := by
  intro cfg h
  have hf : bitField 25 1 w = 1 := of_decide_eq_true h
  exact (field_masked 25 1 (by decide) w).trans (by rw [hf]; rfl)

theorem cntIrqEn (c : CoreId) (n : ChanId) (w : Word) : Statement (.cntIrqEn c n w) := by
  intro cfg h
  have hf : bitField 30 1 w = 1 := of_decide_eq_true h
  exact (field_masked 30 1 (by decide) w).trans (by rw [hf]; rfl)

theorem cntEnable (c : CoreId) (n : ChanId) (w : Word) : Statement (.cntEnable c n w) := by
  intro cfg h
  have hf : bitField 31 1 w = 1 := of_decide_eq_true h
  exact (field_masked 31 1 (by decide) w).trans (by rw [hf]; rfl)

theorem cntCount (c : CoreId) (n : ChanId) (w : Word) : Statement (.cntCount c n w) := by
  intro _ _
  exact BitVec.and_zero

end Sys2Proof.Laws.MatchesTable
end

