-- ==== Sys2Proof/Laws/Sequencer.lean ====
section
/-!
SUPPORT. What a unit, a slice, a Run and a TICK can do: one inversion lemma per operation, one induction for
the loop of a slice, and that each keeps the invariant of the block and the environment it does not write.
-/
namespace Sys2Proof.Machine

/-! ## Triggers on the whole state -/

/-- What every Trigger keeps, a list of Triggers keeps (R312). -/
theorem triggers_induction {P : State → Prop} (evs : List (CoreId × StartEvent)) {s : State} (h0 : P s)
    (hs : ∀ t c ev, P t → P (t.trigger c ev)) : P (s.triggers evs) := by
  induction evs generalizing s with
  | nil => exact h0
  | cons e r ih => exact ih (hs _ _ _ h0)

theorem trigger_set_same (s : State) (c : CoreId) (ev : StartEvent) :
    (s.trigger c ev).set c = (triggerSet s.cfg c ev (s.set c)).1 := onSet_set_same s c _

theorem trigger_set_other (s : State) {c c' : CoreId} (ev : StartEvent) (h : c' ≠ c) :
    (s.trigger c ev).set c' = s.set c' := onSet_set_other s c _ h

/-- The invariant of both sets, within a slice too. -/
def SetsInv (s : State) : Prop := ∀ c, SetInv s.cfg c (s.set c)

/-- A change of one set that keeps its invariant. -/
theorem SetsInv.onSet {s : State} (h : SetsInv s) (c : CoreId) (f : ChannelSet → ChannelSet × List Event)
    (hf : SetInv s.cfg c (f (s.set c)).1) : SetsInv (s.onSet c f) := by
  intro c'
  by_cases hc : c' = c
  · subst hc; rw [onSet_set_same]; exact hf
  · rw [onSet_set_other s c f hc]; exact h c'

theorem SetsInv.trigger {s : State} (h : SetsInv s) (c : CoreId) (ev : StartEvent) : SetsInv (s.trigger c ev) :=
  h.onSet c _ (triggerSet_inv (h c) ev)

/-! ## One unit -/

/-- The state of a unit's time added (R307). -/
def State.spend (s : State) (c : CoreId) (cost : Nat) : State :=
  { s with ts := s.ts.set c (BitVec.ofNat 64 ((s.ts.get c).toNat + scaledCost s.cfg c cost)) }

/-- A unit's time is added exactly when it stays in range; else the model stops (R23, R276, R307). -/
theorem addCost_ok {s s1 : State} {c : CoreId} {cost : Nat} :
    s.addCost c cost = .ok s1 ↔
      cost < 2 ^ 32 ∧ (s.ts.get c).toNat + scaledCost s.cfg c cost < 2 ^ 64 ∧ s1 = s.spend c cost := by
  unfold State.addCost State.spend
  split
  next h => simp; omega
  next h =>
    split
    next h' => simp; omega
    next h' =>
      constructor
      · intro e; cases e; exact ⟨by omega, by omega, rfl⟩
      · rintro ⟨_, _, rfl⟩; rfl

/-- The state of a unit of channel (c, n) performed, before the start events of its write. -/
def State.unitDone (s : State) (c : CoreId) (n : ChanId) (pos : Int) : State :=
  ((s.spend c (s.nextCost c n pos)).moveUnit c (s.chan c n).curSrcAddr (s.chan c n).curDstAddr
    (widthOf (s.chan c n).controlWord)).onSetQuiet c (afterUnit s.cfg c n (widthOf (s.chan c n).controlWord))

/-- Everything a unit can do: it stops on an overflow, or it is done (R307 to R313). -/
theorem performUnit_ok {c : CoreId} {n : ChanId} {pos : Int} {s s' : State} :
    performUnit c n pos s = .ok s' ↔
      s.nextCost c n pos < 2 ^ 32
      ∧ (s.ts.get c).toNat + scaledCost s.cfg c (s.nextCost c n pos) < 2 ^ 64
      ∧ s' = (s.unitDone c n pos).triggers s.nextReply.events := by
  unfold performUnit
  dsimp only
  cases h : s.addCost c (s.nextCost c n pos) with
  | error f =>
    constructor
    · intro e; cases e
    · rintro ⟨h1, h2, _⟩
      rw [(addCost_ok (s1 := s.spend c (s.nextCost c n pos))).2 ⟨h1, h2, rfl⟩] at h
      cases h
  | ok s1 =>
    obtain ⟨h1, h2, rfl⟩ := addCost_ok.1 h
    constructor
    · intro e; cases e; exact ⟨h1, h2, rfl⟩
    · rintro ⟨_, _, rfl⟩; rfl

section
variable (s : State) (c : CoreId) (n : ChanId) (pos : Int)
@[simp] theorem unitDone_cfg : (s.unitDone c n pos).cfg = s.cfg := by simp [State.unitDone, State.spend]
@[simp] theorem unitDone_target : (s.unitDone c n pos).target = s.target := by simp [State.unitDone, State.spend]
@[simp] theorem unitDone_ts : (s.unitDone c n pos).ts = (s.spend c (s.nextCost c n pos)).ts := by
  simp [State.unitDone]
@[simp] theorem unitDone_reply : (s.unitDone c n pos).reply = s.reply := by simp [State.unitDone, State.spend]
@[simp] theorem unitDone_refusedCommand : (s.unitDone c n pos).refusedCommand = s.refusedCommand := by
  simp [State.unitDone, State.spend]
@[simp] theorem unitDone_inbox : (s.unitDone c n pos).inbox = s.inbox := by simp [State.unitDone, State.spend]

theorem unitDone_set_same : (s.unitDone c n pos).set c =
    afterUnit s.cfg c n (widthOf (s.chan c n).controlWord) (s.set c) := by
  unfold State.unitDone
  rw [onSetQuiet_set_same, moveUnit_set]
  rfl

theorem unitDone_set_other {c' : CoreId} (h : c' ≠ c) : (s.unitDone c n pos).set c' = s.set c' := by
  unfold State.unitDone
  rw [onSetQuiet_set_other _ _ _ h, moveUnit_set]
  rfl

theorem unitDone_wf (h : ∀ c, Memory.wf (s.mem.get c) = true) (c' : CoreId) :
    Memory.wf ((s.unitDone c n pos).mem.get c') = true := by
  unfold State.unitDone
  rw [onSetQuiet_mem]
  exact moveUnit_wf _ _ _ _ _ _ h
end

/-! ## The loop of a slice -/

/-- What a slice of channel (c, n) keeps at every unit: the block's invariants, the channel's Running state,
that its own unit is not in the slot, and the memories' form (R46, R303). -/
structure LoopInv (c : CoreId) (n : ChanId) (s : State) : Prop where
  sets : SetsInv s
  own : (s.set c).slot.busy = true → (s.set c).slot.channel ≠ n
  running : (s.chan c n).running ≠ .idle
  other : ∀ c', c' ≠ c → (s.set c').executing = none
  memory : ∀ c', Memory.wf (s.mem.get c') = true

theorem LoopInv.inProgress {c : CoreId} {n : ChanId} {s : State} (h : LoopInv c n s) :
    (s.chan c n).inProgress = true :=
  ((h.sets c).chans n).running_inProgress h.running

theorem LoopInv.trigger {c : CoreId} {n : ChanId} {s : State} (h : LoopInv c n s) (c' : CoreId)
    (ev : StartEvent) : LoopInv c n (s.trigger c' ev) := by
  have hm : ∀ c'', Memory.wf ((s.trigger c' ev).mem.get c'') = true := h.memory
  by_cases hc : c' = c
  · subst hc
    refine ⟨h.sets.trigger c' ev, ?_, ?_, ?_, hm⟩
    · rw [trigger_set_same, triggerSet_slot]; exact h.own
    · unfold State.chan
      rw [trigger_set_same]
      obtain ⟨r, q, x, hr, e⟩ := triggerSet_chan_running (cfg := s.cfg) (c := c') (ev := ev) h.running
      rw [e]; exact hr
    · intro c'' hc''
      rw [trigger_set_other s ev hc'']; exact h.other c'' hc''
  · have hs : (s.trigger c' ev).set c = s.set c := trigger_set_other s ev (Ne.symm hc)
    refine ⟨h.sets.trigger c' ev, ?_, ?_, ?_, hm⟩
    · rw [hs]; exact h.own
    · unfold State.chan; rw [hs]; exact h.running
    · intro c'' hc''
      by_cases he : c'' = c'
      · subst he; rw [trigger_set_same, triggerSet_executing]; exact h.other c'' hc''
      · rw [trigger_set_other s ev he]; exact h.other c'' hc''

theorem LoopInv.performUnit {c : CoreId} {n : ChanId} {pos : Int} {s s' : State} (h : LoopInv c n s)
    (hi : (s.chan c n).iterationCount ≠ 0) (hu : performUnit c n pos s = .ok s') : LoopInv c n s' := by
  obtain ⟨_, _, rfl⟩ := performUnit_ok.1 hu
  refine triggers_induction _ ?_ fun t c' ev ht => ht.trigger c' ev
  refine ⟨fun c' => ?_, ?_, ?_, ?_, unitDone_wf s c n pos h.memory⟩
  · by_cases hc : c' = c
    · subst hc; rw [unitDone_set_same, unitDone_cfg]; exact afterUnit_inv (h.sets c') hi h.own _
    · rw [unitDone_set_other _ _ _ _ hc, unitDone_cfg]; exact h.sets c'
  · rw [unitDone_set_same]; exact h.own
  · unfold State.chan
    rw [unitDone_set_same]
    simp only [afterUnit, chan_setChan_same, commitUnit]
    exact h.running
  · intro c' hc
    rw [unitDone_set_other _ _ _ _ hc]; exact h.other c' hc

/-- The states a slice's loop can end in: `P` is kept by every unit the loop performs, so it holds at the end;
of a slice left for main RAM it holds just before the hand-off (R304 to R316). -/
theorem sliceLoop_induction {c : CoreId} {n : ChanId} {P : State → Prop}
    (hP : ∀ pos s s', P s → (s.chan c n).iterationCount ≠ 0 → (s.chan c n).extStall = false →
      touchesMainRam s.cfg c (s.chan c n).curSrcAddr (s.chan c n).curDstAddr = false →
      performUnit c n pos s = .ok s' → P s') (k : Nat) (pos : Int) {s s1 : State} {e : SliceEnd} (h0 : P s)
    (h : sliceLoop c n k pos s = .ok (e, s1)) :
    (e ≠ .mainRam ∧ P s1) ∨
      (e = .mainRam ∧ ∃ s0, P s0 ∧ (s0.chan c n).iterationCount ≠ 0 ∧
        s1 = s0.onSetQuiet c (handOffOrWait s0.cfg c n)) := by
  induction k generalizing pos s with
  | zero =>
    cases h
    exact .inl ⟨by decide, h0⟩
  | succ k ih =>
    simp only [sliceLoop] at h
    split at h
    · cases h; exact .inl ⟨by decide, h0⟩
    next hi =>
      split at h
      · cases h; exact .inl ⟨by decide, h0⟩
      next hx =>
        split at h
        · cases h; exact .inr ⟨rfl, s, h0, hi, rfl⟩
        next hm =>
          split at h
          · cases h
          next s2 hu =>
            have h2 := hP pos s s2 h0 hi (by simpa using hx) (by simpa using hm) hu
            split at h
            · cases h; exact .inl ⟨by decide, h2⟩
            · exact ih _ h2 h

/-- What a Run keeps: what its entry, every unit, the hand-off and the steps after the loop keep. -/
theorem run_induction {c : CoreId} {n : ChanId} {P : State → Prop} {s s1 : State} (h0 : P s)
    (hf : ∀ t f, P t → P (t.onSet c f)) (hu : ∀ pos t t', P t → performUnit c n pos t = .ok t' → P t')
    (h : run c n s = .ok s1) : P s1 := by
  unfold run at h
  split at h
  · cases h; exact h0
  · split at h
    · cases h
    next e s2 hl =>
      cases h
      have hfin : ∀ t, P t → P (finishRun c n e t) := by
        intro t ht
        cases e with
        | mainRam => exact hf t (fun S => (leaveRun n S, [])) ht
        | cap => exact hf t _ ht
        | budget => exact hf t _ ht
        | stall => exact hf t _ ht
      have henter : P (enterRun c n s) := hf s (fun S => ({ S with executing := some n }, [])) h0
      rcases sliceLoop_induction (P := P) (fun pos t t' ht _ _ _ hu' => hu pos t t' ht hu') _ _ henter hl
        with ⟨_, hp⟩ | ⟨_, s0, hp, _, rfl⟩
      · exact hfin _ hp
      · exact hfin _ (hf s0 (fun S => (handOffOrWait s0.cfg c n S, [])) hp)

/-- What every Run keeps, a TICK keeps (R300). -/
theorem tickFrom_induction {c : CoreId} {P : State → Prop} (hr : ∀ n s s1, P s → run c n s = .ok s1 → P s1)
    (l : List ChanId) {s s1 : State} (h0 : P s) (h : tickFrom c l s = .ok s1) : P s1 := by
  induction l generalizing s with
  | nil => cases h; exact h0
  | cons n l ih =>
    simp only [tickFrom] at h
    split at h
    · split at h
      · cases h
      next s2 hrun =>
        have h2 := hr n s s2 h0 hrun
        split at h
        · cases h; exact h2
        · exact ih h2 h
    · exact ih h0 h

/-! ## The invariant -/

/-- A channel that is Running at Run's entry, and whose own unit is not in the slot, enters the loop with its
invariant. -/
theorem enterRun_inv {c : CoreId} {n : ChanId} {s : State} (h : Inv s) (hb : runBlocked c n s = false) :
    LoopInv c n (enterRun c n s) := by
  simp only [runBlocked, Bool.or_eq_false_iff, Bool.and_eq_false_iff, decide_eq_false_iff_not] at hb
  obtain ⟨⟨⟨_, hr⟩, _⟩, hs⟩ := hb
  have hset : (enterRun c n s).set c = { s.set c with executing := some n } := by simp [enterRun]
  refine ⟨?_, ?_, ?_, ?_, h.memory⟩
  · exact SetsInv.onSet h.sets c _ ((h.sets c).withExecuting _)
  · rw [hset]
    intro hbusy
    rcases hs with hs | hs
    · rw [show (s.set c).slot.busy = true from hbusy] at hs; cases hs
    · exact hs
  · unfold State.chan; rw [hset]; exact hr
  · intro c' hc
    unfold enterRun
    rw [onSetQuiet_set_other s c _ hc]; exact h.waiting c'

theorem LoopInv.finish {c : CoreId} {n : ChanId} {s : State} (h : LoopInv c n s)
    (f : ChannelSet → ChannelSet × List Event) (hf : SetInv s.cfg c (f (s.set c)).1)
    (he : (f (s.set c)).1.executing = none) : Inv (s.onSet c f) where
  sets := h.sets.onSet c f hf
  waiting c' := by
    by_cases hc : c' = c
    · subst hc; rw [onSet_set_same]; exact he
    · rw [onSet_set_other s c f hc]; exact h.other c' hc
  memory := h.memory

/-- A Run keeps the machine's invariant. -/
theorem run_inv {c : CoreId} {n : ChanId} {s s1 : State} (h : Inv s) (hr : run c n s = .ok s1) : Inv s1 := by
  unfold run at hr
  split at hr
  · cases hr; exact h
  next hb =>
    split at hr
    · cases hr
    next e s2 hl =>
      cases hr
      have h0 := enterRun_inv h (by simpa using hb)
      rcases sliceLoop_induction (P := LoopInv c n) (fun pos t t' ht hi _ _ hu => ht.performUnit hi hu) _ _ h0 hl
        with ⟨he, hp⟩ | ⟨rfl, s0, hp, hi, rfl⟩
      · cases e with
        | mainRam => exact absurd rfl he
        | cap => exact hp.finish _ (endSlice_inv (hp.sets c) _ hp.inProgress hp.own) (endSlice_executing ..)
        | budget => exact hp.finish _ (endSlice_inv (hp.sets c) _ hp.inProgress hp.own) (endSlice_executing ..)
        | stall => exact hp.finish _ (endSlice_inv (hp.sets c) _ hp.inProgress hp.own) (endSlice_executing ..)
      · have hset := handOffOrWait_inv (hp.sets c) hi hp.inProgress
        refine ⟨fun c' => ?_, fun c' => ?_, hp.memory⟩
        · by_cases hc : c' = c
          · subst hc
            unfold finishRun
            dsimp only
            rw [onSetQuiet_set_same, onSetQuiet_set_same]
            exact leaveRun_inv hset n
          · unfold finishRun
            dsimp only
            rw [onSetQuiet_set_other _ _ _ hc, onSetQuiet_set_other _ _ _ hc]
            exact hp.sets c'
        · by_cases hc : c' = c
          · subst hc
            unfold finishRun
            dsimp only
            rw [onSetQuiet_set_same]
            rfl
          · unfold finishRun
            dsimp only
            rw [onSetQuiet_set_other _ _ _ hc, onSetQuiet_set_other _ _ _ hc]
            exact hp.other c' hc

/-- A TICK keeps the machine's invariant. -/
theorem tick_inv {c : CoreId} {s s1 : State} (h : Inv s) (ht : tick c s = .ok s1) : Inv s1 :=
  tickFrom_induction (fun _ _ _ hp hr => run_inv hp hr) _ h ht

/-! ## What a slice does not write -/

/-- What core `c`'s slices leave as it was: the configuration, the budgets, what was answered, the refusal mark,
the inbox, and the other core's time and memory. -/
structure SliceFrame (c : CoreId) (s t : State) : Prop where
  cfg : t.cfg = s.cfg
  target : t.target = s.target
  reply : t.reply = s.reply
  refusedCommand : t.refusedCommand = s.refusedCommand
  inbox : t.inbox = s.inbox
  ts : ∀ c', c' ≠ c → t.ts.get c' = s.ts.get c'
  mem : ∀ c', c' ≠ c → t.mem.get c' = s.mem.get c'

theorem SliceFrame.refl (c : CoreId) (s : State) : SliceFrame c s s :=
  ⟨rfl, rfl, rfl, rfl, rfl, fun _ _ => rfl, fun _ _ => rfl⟩

theorem SliceFrame.trans {c : CoreId} {s t u : State} (h : SliceFrame c s t) (h' : SliceFrame c t u) :
    SliceFrame c s u :=
  ⟨h'.cfg.trans h.cfg, h'.target.trans h.target, h'.reply.trans h.reply,
    h'.refusedCommand.trans h.refusedCommand, h'.inbox.trans h.inbox, fun c' hc => (h'.ts c' hc).trans (h.ts c' hc),
    fun c' hc => (h'.mem c' hc).trans (h.mem c' hc)⟩

theorem SliceFrame.onSet (c c' : CoreId) (s : State) (f : ChannelSet → ChannelSet × List Event) :
    SliceFrame c s (s.onSet c' f) :=
  ⟨rfl, rfl, rfl, rfl, rfl, fun _ _ => rfl, fun _ _ => rfl⟩

theorem performUnit_frame {c : CoreId} {n : ChanId} {pos : Int} {s s' : State}
    (h : performUnit c n pos s = .ok s') : SliceFrame c s s' := by
  obtain ⟨_, _, rfl⟩ := performUnit_ok.1 h
  refine triggers_induction _ ?_ fun t c' ev ht => ht.trans (SliceFrame.onSet c c' t _)
  refine ⟨by simp, by simp, by simp, by simp, by simp, fun c' hc => ?_, fun c' hc => ?_⟩
  · rw [unitDone_ts]; exact PerCore.get_set_other _ _ hc
  · unfold State.unitDone State.moveUnit
    rw [onSetQuiet_mem, afterWrite_mem, busStore_mem_other _ _ _ _ _ hc]
    rfl

theorem run_frame {c : CoreId} {n : ChanId} {s s1 : State} (h : run c n s = .ok s1) : SliceFrame c s s1 :=
  run_induction (P := SliceFrame c s) (SliceFrame.refl c s) (fun t f ht => ht.trans (SliceFrame.onSet c c t f))
    (fun _ _ _ ht hu => ht.trans (performUnit_frame hu)) h

/-- What a TICK of core `c` does not write. -/
theorem tick_frame {c : CoreId} {s s1 : State} (h : tick c s = .ok s1) : SliceFrame c s s1 :=
  tickFrom_induction (P := SliceFrame c s) (fun _ _ _ ht hr => ht.trans (run_frame hr)) _ (SliceFrame.refl c s) h

end Sys2Proof.Machine
end

