-- ==== Sys2Proof/Laws/Slice.lean ====
section
/-!
SUPPORT. What a TICK does when one channel enters a slice: which Run it makes, how the Run's loop begins, and
what the steps after the loop leave.
-/
namespace Sys2Proof.Machine

/-! ## The arbiter -/

theorem tickFrom_quiet (c : CoreId) (l : List ChanId) (s : State)
    (h : ∀ m ∈ l, selectable (s.set c) m = false) : tickFrom c l s = .ok s := by
  induction l with
  | nil => rfl
  | cons a l ih =>
    simp only [tickFrom]
    rw [if_neg (by simp [h a (by simp)])]
    exact ih fun m hm => h m (by simp [hm])

theorem tickFrom_skip (c : CoreId) (l r : List ChanId) (s : State)
    (h : ∀ m ∈ l, selectable (s.set c) m = false) : tickFrom c (l ++ r) s = tickFrom c r s := by
  induction l with
  | nil => rfl
  | cons a l ih =>
    simp only [List.cons_append, tickFrom]
    rw [if_neg (by simp [h a (by simp)])]
    exact ih fun m hm => h m (by simp [hm])

/-- The channels around `n` in priority order (R300). -/
theorem allChans_split (n : ChanId) :
    ∃ l r, allChans = l ++ n :: r ∧ (∀ m ∈ l, m.toNat < n.toNat) ∧ ∀ m ∈ r, m ≠ n := by
  cases n with
  | ch0 => exact ⟨[], [.ch1, .ch2, .ch3], rfl, by decide, by decide⟩
  | ch1 => exact ⟨[.ch0], [.ch2, .ch3], rfl, by decide, by decide⟩
  | ch2 => exact ⟨[.ch0, .ch1], [.ch3], rfl, by decide, by decide⟩
  | ch3 => exact ⟨[.ch0, .ch1, .ch2], [], rfl, by decide, by decide⟩

section
variable {c : CoreId} {n : ChanId} {s : State} (hs : selectable (s.set c) n = true)
  (hf : ∀ m : ChanId, m.toNat < n.toNat → selectable (s.set c) m = false)
include hs hf

/-- The Run of the first selectable channel ends the TICK if it leaves the channel Running, or no other channel
selectable (R300). -/
theorem tick_first {s1 : State} (hr : run c n s = .ok s1)
    (h : (s1.chan c n).running ≠ .idle ∨ ∀ m, m ≠ n → selectable (s1.set c) m = false) :
    tick c s = .ok s1 := by
  obtain ⟨l, r, e, h1, h2⟩ := allChans_split n
  unfold tick
  rw [e, tickFrom_skip _ _ _ _ fun m hm => hf m (h1 m hm)]
  simp only [tickFrom, hs, if_true, hr]
  split
  · rfl
  next hh =>
    rcases h with h | h
    · exact absurd h hh
    · exact tickFrom_quiet _ _ _ fun m hm => h m (h2 m hm)

/-- A Run that leaves the channel idle lets the scan go on: the rest of the TICK is a TICK of the state it left
(R300). -/
theorem tick_first_resume {s1 : State} (hr : run c n s = .ok s1) (hi : (s1.chan c n).running = .idle)
    (hp : ∀ m : ChanId, m.toNat < n.toNat → selectable (s1.set c) m = false) : tick c s = tick c s1 := by
  obtain ⟨l, r, e, h1, _⟩ := allChans_split n
  have hn : selectable (s1.set c) n = false := by
    unfold selectable
    rw [show ((s1.set c).chan n).running = .idle from hi]
    rfl
  unfold tick
  rw [e, tickFrom_skip _ _ _ _ fun m hm => hf m (h1 m hm), tickFrom_skip _ _ _ _ fun m hm => hp m (h1 m hm)]
  simp [tickFrom, hs, hr, hi, hn]

theorem tick_first_fault {f : Fault} (hr : run c n s = .error f) : tick c s = .error f := by
  obtain ⟨l, r, e, h1, _⟩ := allChans_split n
  unfold tick
  rw [e, tickFrom_skip _ _ _ _ fun m hm => hf m (h1 m hm)]
  simp only [tickFrom, hs, if_true, hr]
end

theorem selectable_iff {S : ChannelSet} {n : ChanId} :
    selectable S n = true ↔ (S.chan n).running ≠ .idle ∧ (S.chan n).controlWord.getLsbD 31 = true := by
  simp [selectable, enableBit_eq]

/-! ## Run's entry -/

theorem Enters.not_blocked {s : State} {c : CoreId} {n : ChanId} (h : Enters s c n) :
    runBlocked c n s = false := by
  have h1 := selectable_iff.1 h.selectable
  have hb := h.budget
  rw [BitVec.lt_def] at hb
  have h2 : ¬ s.target.get c ≤ s.ts.get c := by rw [BitVec.le_def]; omega
  have h3 : ((s.set c).slot.busy && decide ((s.set c).slot.channel = n)) = false := by
    cases hb : (s.set c).slot.busy
    · rfl
    · simpa using h.ownSlot hb
  unfold runBlocked
  rw [h3, enableBit_eq]
  simp only [State.chan, h1.2, h1.1, h2, decide_false]
  rfl

theorem run_of_loop {s s1 : State} {c : CoreId} {n : ChanId} {e : SliceEnd} (h : Enters s c n)
    (hl : sliceLoop c n (s.chan c n).iterationCount.toNat (firstPos s.cfg (s.chan c n).running) (enterRun c n s)
      = .ok (e, s1)) : run c n s = .ok (finishRun c n e s1) := by
  unfold run
  rw [if_neg (by simp [h.not_blocked]), hl]

/-- A Run that leaves its channel idle, and the others as selectable as they were, lets TICK go on with the scan;
where no other channel is selectable, the TICK ends with it (R300). -/
theorem Enters.scanGoesOn {s u : State} {c : CoreId} {n : ChanId} (h : Enters s c n) (hr : run c n s = .ok u)
    (hi : (u.chan c n).running = .idle)
    (ho : ∀ m, m ≠ n → Machine.selectable (u.set c) m = Machine.selectable (s.set c) m) :
    ScanGoesOn s u c n ∧ (OthersQuiet s c n → exec (.tick c) s = .next u) := by
  have hb : ∀ m : ChanId, m.toNat < n.toNat → Machine.selectable (u.set c) m = false := fun m hm => by
    rw [ho m fun e => Nat.lt_irrefl _ (e ▸ hm)]
    exact h.first m hm
  refine ⟨⟨?_, fun m hm => ?_⟩, fun hq => ?_⟩
  · show outcome (tick c s) = outcome (tick c u)
    rw [tick_first_resume h.selectable h.first hr hi hb]
  · by_cases e : m = n
    · subst e
      unfold Machine.selectable
      rw [show ((u.set c).chan m).running = .idle from hi]
      rfl
    · have hne : m.toNat ≠ n.toNat := fun h' => e (by
        cases m <;> cases n <;> first | rfl | exact absurd h' (by decide))
      exact hb m (by omega)
  · show outcome (tick c s) = _
    rw [tick_first h.selectable h.first hr (.inr fun m hm => (ho m hm).trans (hq m hm))]
    rfl

theorem enterRun_eq (c : CoreId) (n : ChanId) (s : State) :
    enterRun c n s = s.putSet c { s.set c with executing := some n } := by
  unfold enterRun
  rw [onSetQuiet_eq_putSet]

@[simp] theorem enterRun_cfg (c : CoreId) (n : ChanId) (s : State) : (enterRun c n s).cfg = s.cfg := rfl
@[simp] theorem enterRun_ts (c : CoreId) (n : ChanId) (s : State) : (enterRun c n s).ts = s.ts := rfl
@[simp] theorem enterRun_target (c : CoreId) (n : ChanId) (s : State) : (enterRun c n s).target = s.target := rfl
@[simp] theorem enterRun_mem (c : CoreId) (n : ChanId) (s : State) : (enterRun c n s).mem = s.mem := rfl
@[simp] theorem enterRun_set (c : CoreId) (n : ChanId) (s : State) :
    (enterRun c n s).set c = { s.set c with executing := some n } := by simp [enterRun]
@[simp] theorem enterRun_chan (c : CoreId) (n m : ChanId) (s : State) :
    (enterRun c n s).chan c m = s.chan c m := by
  unfold State.chan
  rw [enterRun_set]
  rfl

/-! ## The steps after the loop -/

section
variable (cfg : Config) (c : CoreId) (n : ChanId) (e : SliceEnd) (S : ChannelSet)

/-- A set as the steps common to every slice's end leave it (R317, R318, R326). -/
theorem leaveRun_setChan (ch : Channel) : leaveRun n (S.setChan n ch) =
    { S.setChan n { ch with extStall := false } with executing := none } := by
  simp [leaveRun, ChannelSet.setChan, ChannelSet.chan]

/-- A slice cut off with units left in it: nothing more happens (R319). -/
theorem endSlice_cut (hi : (S.chan n).iterationCount ≠ 0) (hr : (S.chan n).remainingCount ≠ 0) :
    endSlice cfg c n e S =
      ({ S.setChan n { S.chan n with running := endMarker e, extStall := false } with executing := none },
        []) := by
  unfold endSlice
  rw [leaveRun_setChan]
  dsimp only
  rw [if_pos (by simpa [ChannelSet.chan, ChannelSet.setChan] using hr),
    if_neg (by simpa [ChannelSet.chan, ChannelSet.setChan] using hi)]

/-- A slice used up with units left in the transfer (R319). -/
theorem endSlice_boundary (hi : (S.chan n).iterationCount = 0) (hr : (S.chan n).remainingCount ≠ 0) :
    endSlice cfg c n e S =
      ({ S.setChan n { S.chan n with running := .idle, extStall := false } with
          executing := none, stallBits := S.stallBits &&& ~~~(chanMask n) },
        .resume c (chanMask n) :: (if (S.chan n).startMode = .gxFifo then [.notifyFifo c] else [])) := by
  unfold endSlice
  rw [leaveRun_setChan]
  dsimp only
  rw [if_pos (by simpa [ChannelSet.chan, ChannelSet.setChan] using hr),
    if_pos (by simpa [ChannelSet.chan, ChannelSet.setChan] using hi)]
  simp [sliceBoundary, resumeCpu, ChannelSet.chan, ChannelSet.setChan]
  rfl

/-- The set and the calls of a completion, before the queued Start (R320). -/
def completedSet : ChannelSet :=
  { S.setChan n { S.chan n with
      controlWord := completedWord (S.chan n).controlWord
      inProgress := false
      running := .idle
      queued := false
      extStall := false } with
    executing := none
    stallBits := S.stallBits &&& ~~~(chanMask n) }

def completedCalls : List Event :=
  (if irqEnBit (completedWord (S.chan n).controlWord) then [.raiseIrq c n] else []) ++ [.resume c (chanMask n)]

/-- A completion of an enabled channel restarts it exactly when a request is queued, the repeat bit is set and its
start mode is implemented (R159, R321). -/
theorem restarts_completed {ch : Channel} (h : ch.controlWord.getLsbD 31 = true) :
    restarts cfg (completedWord ch.controlWord) ch = true ↔
      ch.queued = true ∧ ch.controlWord.getLsbD 25 = true ∧ ch.startMode ∉ cfg.unimplementedModes := by
  have he : enableBit (completedWord ch.controlWord) = ch.controlWord.getLsbD 25 := by
    unfold completedWord
    rw [repeatBit_eq]
    split
    next hr => rw [enableBit_eq, h, hr]
    next hr =>
      rw [enableBit_eq]
      simp only [clearEnable, BitVec.getLsbD_and]
      rw [show (0x7FFFFFFF : Word).getLsbD 31 = false from rfl, Bool.and_false]
      simpa using hr
  unfold restarts
  rw [he]
  simp [and_assoc]

/-- A transfer used up (R320, R321). -/
theorem endSlice_complete (hr : (S.chan n).remainingCount = 0) :
    endSlice cfg c n e S =
      if restarts cfg (completedWord (S.chan n).controlWord) (S.chan n) then
        ((startSet cfg c n (completedSet n S)).1,
          completedCalls c n S ++ (startSet cfg c n (completedSet n S)).2)
      else (completedSet n S, completedCalls c n S) := by
  unfold endSlice
  rw [leaveRun_setChan]
  dsimp only
  rw [if_neg (by simpa [ChannelSet.chan, ChannelSet.setChan] using hr)]
  unfold complete completedSet completedCalls
  simp [resumeCpu, ChannelSet.chan, ChannelSet.setChan]
  rfl
end

end Sys2Proof.Machine
end

