-- ==== Sys2Proof/Laws/Unit.lean ====
section
/-!
SUPPORT. What one unit leaves that is aligned and answered by the memory with no start event: a plain unit, outside
the register window, and a unit whose destination lies in the window.
-/
namespace Sys2Proof.Machine

/-- The bytes of a unit's value, low byte first. -/
theorem readUnit_byte (m : List Host.Cell) (a : Word) (w : UnitWidth) {k : Nat} (hk : k < w.bytes) :
    bitField (8 * k) 8 (readUnit m a w) = readByte m (a + BitVec.ofNat 32 k) := by
  have h0 : a + BitVec.ofNat 32 0 = a := BitVec.add_zero a
  have h1 : a + BitVec.ofNat 32 1 = a + 1 := rfl
  have h2 : a + BitVec.ofNat 32 2 = a + 2 := rfl
  have h3 : a + BitVec.ofNat 32 3 = a + 3 := rfl
  apply BitVec.eq_of_getLsbD_eq
  intro i hi
  cases w with
  | w16 =>
    match k, hk with
    | 0, _ =>
      simp only [h0, readUnit, bitField, BitVec.getLsbD_extractLsb', BitVec.getLsbD_setWidth,
        BitVec.getLsbD_append]
      simp [hi, show i < 32 by omega]
    | 1, _ =>
      simp only [h1, readUnit, bitField, BitVec.getLsbD_extractLsb', BitVec.getLsbD_setWidth,
        BitVec.getLsbD_append]
      simp [hi, show 8 + i < 32 by omega]
  | w32 =>
    match k, hk with
    | 0, _ =>
      simp only [h0, readUnit, bitField, BitVec.getLsbD_extractLsb', BitVec.getLsbD_append]
      simp [hi]
    | 1, _ =>
      simp only [h1, readUnit, bitField, BitVec.getLsbD_extractLsb', BitVec.getLsbD_append]
      simp [hi]
    | 2, _ =>
      simp only [h2, readUnit, bitField, BitVec.getLsbD_extractLsb', BitVec.getLsbD_append]
      simp [hi, show ¬ 16 + i < 8 by omega, show 16 + i - 8 - 8 = i by omega, show ¬ 16 + i - 8 < 8 by omega]
    | 3, _ =>
      simp only [h3, readUnit, bitField, BitVec.getLsbD_extractLsb', BitVec.getLsbD_append]
      simp [hi, show ¬ 24 + i < 8 by omega, show ¬ 24 + i - 8 < 8 by omega, show ¬ 24 + i - 8 - 8 < 8 by omega,
        show 24 + i - 8 - 8 - 8 = i by omega]

/-- An aligned read outside the register window that no collaborator answers is the memory's (R109). -/
theorem readValue_memory {s : State} {src : Word} {w : UnitWidth} (h1 : s.nextReply = ⟨none, []⟩)
    (h2 : unitAligned src w = true) (h3 : windowSlot s.cfg src = none) (c : CoreId) :
    s.readValue c src w = readUnit (s.mem.get c) src w := by
  unfold State.readValue
  rw [h1]
  simp [h2, h3]

theorem PlainUnit.value {s : State} {src dst : Word} {w : UnitWidth} (h : PlainUnit s src dst w) (c : CoreId) :
    s.readValue c src w = readUnit (s.mem.get c) src w := readValue_memory h.1 h.2.1 h.2.2.2.1 c

theorem WindowUnit.value {s : State} {src dst : Word} {w : UnitWidth} (h : WindowUnit s src dst w) (c : CoreId) :
    s.readValue c src w = readUnit (s.mem.get c) src w := readValue_memory h.1 h.2.1 h.2.2.2.1 c

theorem PlainUnit.store {s : State} {src dst : Word} {w : UnitWidth} (h : PlainUnit s src dst w) (c : CoreId)
    (v : Word) : s.busStore c dst w v = { s with mem := s.mem.set c (writeUnit (s.mem.get c) dst w v) } := by
  obtain ⟨_, _, h3, _, h5⟩ := h
  unfold State.busStore
  simp [h3, h5]

theorem WindowUnit.store {s : State} {src dst : Word} {w : UnitWidth} (h : WindowUnit s src dst w) (c : CoreId)
    (v : Word) : s.busStore c dst w v =
      { s with delivered := s.delivered ++ [.busWrite c dst (laneEnables dst w) (laneData dst w v)] } := by
  obtain ⟨_, _, h3, _, h5⟩ := h
  unfold State.busStore
  simp [h3, h5]

/-- The two accesses of a unit (R107). -/
theorem unitDone_events {s : State} {c : CoreId} {n : ChanId} {src dst : Word} {w : UnitWidth} (pos : Int)
    (hv : s.readValue c src w = readUnit (s.mem.get c) src w) (hw : widthOf (s.chan c n).controlWord = w)
    (hs : (s.chan c n).curSrcAddr = src) (hd : (s.chan c n).curDstAddr = dst) :
    (s.unitDone c n pos).events = s.events ++ [.memRead c src w (readUnit (s.mem.get c) src w),
      .memWrite c dst w (readUnit (s.mem.get c) src w)] := by
  unfold State.unitDone
  rw [onSetQuiet_events, moveUnit_events, hw, hs, hd,
    show (s.spend c (s.nextCost c n pos)).readValue c src w = s.readValue c src w from rfl, hv]
  rfl

/-- The time after a unit (R307). -/
theorem unitDone_time {s : State} {c : CoreId} {n : ChanId} (pos : Int)
    (ht : (s.ts.get c).toNat + s.nextCost c n pos * 2 ^ (s.cfg.costShift.get c).val < 2 ^ 64) :
    ((s.unitDone c n pos).ts.get c).toNat
      = (s.ts.get c).toNat + s.nextCost c n pos * 2 ^ (s.cfg.costShift.get c).val := by
  rw [unitDone_ts]
  simp only [State.spend, PerCore.get_set_same, scaledCost, BitVec.toNat_ofNat]
  exact Nat.mod_eq_of_lt ht

section
variable {s : State} {c : CoreId} {n : ChanId} {src dst : Word} {w : UnitWidth} (pos : Int)
  (hp : WindowUnit s src dst w) (hw : widthOf (s.chan c n).controlWord = w)
  (hs : (s.chan c n).curSrcAddr = src) (hd : (s.chan c n).curDstAddr = dst)
include hp hw hs hd

/-- Everything outside core `c`'s set a unit into the register window leaves (R456). -/
theorem unitDone_window
    (ht : (s.ts.get c).toNat + s.nextCost c n pos * 2 ^ (s.cfg.costShift.get c).val < 2 ^ 64) :
    UnitDelivered s (s.unitDone c n pos) c w src dst (s.nextCost c n pos) where
  time := unitDone_time pos ht
  otherTime c' hc := by
    rw [unitDone_ts]
    exact PerCore.get_set_other _ _ hc
  delivered := by
    unfold State.unitDone State.moveUnit
    rw [onSetQuiet_delivered, afterWrite_delivered, hw, hs, hd]
    have h1 : WindowUnit ((s.spend c (s.nextCost c n pos)).afterRead c src w) src dst w := hp
    have h2 : WindowUnit (s.spend c (s.nextCost c n pos)) src dst w := hp
    rw [h1.store, h2.value]
    rfl
  mem := by
    unfold State.unitDone State.moveUnit
    rw [onSetQuiet_mem, afterWrite_mem, hw, hs, hd]
    have h1 : WindowUnit ((s.spend c (s.nextCost c n pos)).afterRead c src w) src dst w := hp
    rw [h1.store]
    rfl
  otherSet c' hc := unitDone_set_other _ _ _ _ hc
  target := by simp
  cfg := by simp
  reply := by simp
  refusedCommand := by simp
  inbox := by simp
end

section
variable {s : State} {c : CoreId} {n : ChanId} {src dst : Word} {w : UnitWidth} (pos : Int)
  (hp : PlainUnit s src dst w) (hw : widthOf (s.chan c n).controlWord = w)
  (hs : (s.chan c n).curSrcAddr = src) (hd : (s.chan c n).curDstAddr = dst)
include hp hw hs hd

theorem unitDone_mem : (s.unitDone c n pos).mem =
    s.mem.set c (writeUnit (s.mem.get c) dst w (readUnit (s.mem.get c) src w)) := by
  unfold State.unitDone State.moveUnit
  rw [onSetQuiet_mem, afterWrite_mem, hw, hs, hd]
  have h1 : PlainUnit ((s.spend c (s.nextCost c n pos)).afterRead c src w) src dst w := hp
  have h2 : PlainUnit (s.spend c (s.nextCost c n pos)) src dst w := hp
  rw [h1.store, h2.value]
  rfl

theorem unitDone_delivered : (s.unitDone c n pos).delivered = s.delivered := by
  unfold State.unitDone State.moveUnit
  rw [onSetQuiet_delivered, afterWrite_delivered, hw, hs, hd]
  have h1 : PlainUnit ((s.spend c (s.nextCost c n pos)).afterRead c src w) src dst w := hp
  rw [h1.store]
  rfl

/-- Everything outside core `c`'s set a plain unit leaves. -/
theorem unitDone_moved (hm : ∀ c, Memory.wf (s.mem.get c) = true)
    (ht : (s.ts.get c).toNat + s.nextCost c n pos * 2 ^ (s.cfg.costShift.get c).val < 2 ^ 64) :
    UnitMoved s (s.unitDone c n pos) c w src dst (s.nextCost c n pos) where
  time := unitDone_time pos ht
  otherTime c' hc := by
    rw [unitDone_ts]
    exact PerCore.get_set_other _ _ hc
  stored k hk := by
    rw [unitDone_mem pos hp hw hs hd, PerCore.get_set_same, readByte_writeUnit_same _ _ _ (hm c) hk,
      readUnit_byte _ _ _ hk]
  kept a ha := by
    rw [unitDone_mem pos hp hw hs hd, PerCore.get_set_same, readByte_writeUnit_other _ _ (hm c) ha]
  otherMem c' hc := by rw [unitDone_mem pos hp hw hs hd, PerCore.get_set_other _ _ hc]
  otherSet c' hc := unitDone_set_other _ _ _ _ hc
  target := by simp
  cfg := by simp
  reply := by simp
  refusedCommand := by simp
  inbox := by simp
  delivered := unitDone_delivered pos hp hw hs hd
end

/-- A unit whose time is in range and whose write returns no event is done. -/
theorem performUnit_silent {s : State} {c : CoreId} {n : ChanId} {pos : Int} (hr : s.nextReply = ⟨none, []⟩)
    (h1 : s.nextCost c n pos < 2 ^ 32)
    (ht : (s.ts.get c).toNat + s.nextCost c n pos * 2 ^ (s.cfg.costShift.get c).val < 2 ^ 64) :
    performUnit c n pos s = .ok (s.unitDone c n pos) := by
  rw [performUnit_ok]
  refine ⟨h1, ht, ?_⟩
  rw [hr]
  rfl

/-- The share table after a unit, bank by bank (R313). -/
theorem updateShare_updated {cfg : Config} {c : CoreId} {n : ChanId} {src dst : Word} {i j : Inc}
    {share : List (Nat × ShareEntry)} (h : storeWf ShareEntry.reset share = true) :
    ShareUpdated n i j (bankAt cfg c src) (bankAt cfg c dst) share (updateShare cfg c n src dst i j share) := by
  intro b
  unfold updateShare shareClose shareSet shareAt
  generalize bankAt cfg c src = x
  generalize bankAt cfg c dst = y
  split
  · by_cases h1 : b = y
    · subst h1
      rw [storeGet_set_same _ _ (storeWf_set _ _ h), if_pos (.inr rfl)]
    · rw [storeGet_set_other _ (storeWf_set _ _ h) h1]
      by_cases h2 : b = x
      · subst h2
        rw [storeGet_set_same _ _ h, if_pos (.inl rfl)]
      · rw [storeGet_set_other _ h h2, if_neg (by tauto)]
  · by_cases h1 : b = y
    · subst h1
      rw [storeGet_set_same _ _ (storeWf_set _ _ h), if_pos (.inr rfl)]
      by_cases h2 : b = x
      · subst h2
        rw [storeGet_set_same _ _ h]
      · rw [storeGet_set_other _ h h2]
    · rw [storeGet_set_other _ (storeWf_set _ _ h) h1]
      by_cases h2 : b = x
      · subst h2
        rw [storeGet_set_same _ _ h, if_pos (.inl rfl)]
      · rw [storeGet_set_other _ h h2, if_neg (by tauto)]

end Sys2Proof.Machine
end

