-- ==== Sys2Proof/Machine/Script.lean ====
section
/-!
DEFINITION. Command scripts as abstract syntax (30_encoding.md R174, R175): the lines and pseudo-commands a
script is made of, and the inputs they expand to.
-/
namespace Sys2Proof.Machine

/-- A line of a command script (R174) or a pseudo-command (R175). -/
inductive ScriptLine
  /-- A command of R174. -/
  | instr (i : Instr)
  /-- `WR16 c<x>.<n>.<REG>.L, v16`. -/
  | wr16Low (c : CoreId) (n : ChanId) (r : Reg) (v : BitVec 16)
  /-- `WR16 c<x>.<n>.<REG>.H, v16`. -/
  | wr16High (c : CoreId) (n : ChanId) (r : Reg) (v : BitVec 16)
  /-- `WR8 c<x>.<n>.<REG>.B<k>, v8`. -/
  | wr8 (c : CoreId) (n : ChanId) (r : Reg) (k : Fin 4) (v : Byte)
  /-- `ARM c<x>.<n>, sad, dad, cnt`. -/
  | arm (c : CoreId) (n : ChanId) (sad dad cnt : Word)
  /-- `.ts c<core>, <v>`. -/
  | ts (c : CoreId) (v : Time)
  /-- `.target c<core>, <v>`. -/
  | target (c : CoreId) (v : Time)
  /-- `.mem c<core>, <addr>, <16|32>, <v>`. -/
  | mem (c : CoreId) (addr : Word) (width : UnitWidth) (v : Word)
  deriving DecidableEq, Repr

/-- The inputs a line stands for, in order (R174, R175). -/
def expandLine : ScriptLine → List Input
  | .instr i => [encode i]
  | .wr16Low c n r v => [encode (writeInstr c n r 0x3 (v.setWidth 32))]
  | .wr16High c n r v => [encode (writeInstr c n r 0xC (v.setWidth 32 <<< 16))]
  | .wr8 c n r k v => [encode (writeInstr c n r (1 <<< k.val) (v.setWidth 32 <<< (8 * k.val)))]
  | .arm c n sad dad cnt =>
    [encode (.wrSad c n 0xF sad), encode (.wrDad c n 0xF dad), encode (.wrCnt c n 0xF cnt)]
  | .ts c v => [.setTs c v]
  | .target c v => [.setTarget c v]
  | .mem c a w v => [.setMem c a w v]

/-- The inputs of a whole script. -/
def expandScript (ls : List ScriptLine) : List Input := ls.flatMap expandLine

end Sys2Proof.Machine
end

