-- ==== Sys2Proof/Machine/ScriptText.lean ====
section
/-!
DEFINITION. Command scripts as text (30_encoding.md R174, R175): one line's characters as the line they
write. What the syntax leaves open is notes/assumptions/27.md's.
-/
namespace Sys2Proof.Machine

/-- A line's characters, before its comment (R174). -/
def beforeComment (l : List Char) : List Char := l.takeWhile (· != ';')

def isBlank (c : Char) : Bool := c == ' ' || c == '\t'

/-- The characters without blanks at either end. -/
def trimBlanks (l : List Char) : List Char := ((l.dropWhile isBlank).reverse.dropWhile isBlank).reverse

/-- The parts of a text between the occurrences of a character. -/
def splitAtChar (sep : Char) : List Char → List (List Char)
  | [] => [[]]
  | c :: cs =>
    match splitAtChar sep cs with
    | [] => [[c]]
    | p :: ps => if c == sep then [] :: p :: ps else (c :: p) :: ps

/-- The value of a hexadecimal digit. -/
def digitValue (c : Char) : Option Nat :=
  if '0' ≤ c ∧ c ≤ '9' then some (c.toNat - 48)
  else if 'a' ≤ c ∧ c ≤ 'f' then some (c.toNat - 87)
  else if 'A' ≤ c ∧ c ≤ 'F' then some (c.toNat - 55)
  else none

/-- The number the digits of a base write, on top of `acc`. -/
def digitsValue (base : Nat) : List Char → Nat → Option Nat
  | [], acc => some acc
  | c :: cs, acc =>
    match digitValue c with
    | some d => if d < base then digitsValue base cs (acc * base + d) else none
    | none => none

/-- A number, decimal or `0x` hex (R174). -/
def numberOf : List Char → Option Nat
  | [] => none
  | ['0', 'x'] => none
  | '0' :: 'x' :: ds => digitsValue 16 ds 0
  | ds => digitsValue 10 ds 0

/-- A number that fits in `w` bits. -/
def bitsOf (w : Nat) (l : List Char) : Option (BitVec w) :=
  (numberOf l).bind fun k => if k < 2 ^ w then some (BitVec.ofNat w k) else none

/-- `c<core>` (R174). -/
def coreName : List Char → Option CoreId
  | ['c', '0'] => some .core0
  | ['c', '1'] => some .core1
  | _ => none

/-- `<ch>`. -/
def chanName : List Char → Option ChanId
  | ['0'] => some .ch0
  | ['1'] => some .ch1
  | ['2'] => some .ch2
  | ['3'] => some .ch3
  | _ => none

/-- `<SAD|DAD|CNT>`. -/
def regName : List Char → Option Reg
  | ['S', 'A', 'D'] => some .sad
  | ['D', 'A', 'D'] => some .dad
  | ['C', 'N', 'T'] => some .cnt
  | _ => none

/-- The event names of R154, R174. -/
def eventNames : List (String × StartEvent) :=
  [ ("IMMEDIATE", .immediate), ("VBLANK", .vblank), ("HBLANK", .hblank), ("DISPLAY_START", .displayStart),
    ("MAIN_MEM_DISPLAY", .mainMemDisplay), ("CART", .cart), ("GBA_SLOT", .gbaSlot), ("GX_FIFO", .gxFifo),
    ("WIFI_GBA", .wifiGba) ]

def eventName (l : List Char) : Option StartEvent :=
  (eventNames.find? fun p => p.1.toList == l).map (·.2)

/-- `c<core>.<ch>`. -/
def channelName (l : List Char) : Option (CoreId × ChanId) :=
  match splitAtChar '.' l with
  | [c, n] => (coreName c).bind fun c => (chanName n).map fun n => (c, n)
  | _ => none

/-- `c<core>.<ch>.<REG>` and what follows another dot. -/
def registerName (l : List Char) : Option (CoreId × ChanId × Reg × List (List Char)) :=
  match splitAtChar '.' l with
  | c :: n :: r :: more =>
    (coreName c).bind fun c => (chanName n).bind fun n => (regName r).map fun r => (c, n, r, more)
  | _ => none

/-- `be=<0x0..0xF>` (R174). -/
def byteEnables : List Char → Option (BitVec 4)
  | 'b' :: 'e' :: '=' :: v => bitsOf 4 v
  | _ => none

/-- `.L`, `.H` of WR16 and `.B<k>` of WR8 (R175). -/
def lane : List Char → Option (Fin 4)
  | ['B', '0'] => some 0
  | ['B', '1'] => some 1
  | ['B', '2'] => some 2
  | ['B', '3'] => some 3
  | _ => none

/-- `<16|32>`. -/
def widthName (l : List Char) : Option UnitWidth :=
  match numberOf l with
  | some 16 => some .w16
  | some 32 => some .w32
  | _ => none

/-- All words of a list, if each is a 32-bit number. -/
def vectorOf : List (List Char) → Option (List Word)
  | [] => some []
  | v :: vs => (bitsOf 32 v).bind fun w => (vectorOf vs).map fun ws => w :: ws

def readWr : List (List Char) → Option ScriptLine
  | [t, v] => (registerName t).bind fun (c, n, r, more) => (bitsOf 32 v).bind fun d =>
    if more = [] then some (.instr (writeInstr c n r 0xF d)) else none
  | [t, v, b] => (registerName t).bind fun (c, n, r, more) => (bitsOf 32 v).bind fun d =>
    (byteEnables b).bind fun be => if more = [] then some (.instr (writeInstr c n r be d)) else none
  | _ => none

def readWr16 : List (List Char) → Option ScriptLine
  | [t, v] => (registerName t).bind fun (c, n, r, more) => (bitsOf 16 v).bind fun d =>
    if more = [['L']] then some (.wr16Low c n r d)
    else if more = [['H']] then some (.wr16High c n r d)
    else none
  | _ => none

def readWr8 : List (List Char) → Option ScriptLine
  | [t, v] => (registerName t).bind fun (c, n, r, more) => (bitsOf 8 v).bind fun d =>
    match more with
    | [l] => (lane l).map fun k => .wr8 c n r k d
    | _ => none
  | _ => none

def readRd : List (List Char) → Option ScriptLine
  | [t] => (registerName t).bind fun (c, n, r, more) => if more = [] then some (.instr (readInstr c n r)) else none
  | _ => none

def readTrig : List (List Char) → Option ScriptLine
  | [c, e] => (coreName c).bind fun c => (eventName e).map fun ev => .instr (.trig c ev)
  | _ => none

/-- A command of one core. -/
def readCoreLine (f : CoreId → Instr) : List (List Char) → Option ScriptLine
  | [c] => (coreName c).map fun c => .instr (f c)
  | _ => none

def readXstall : List (List Char) → Option ScriptLine
  | [t] => (channelName t).map fun (c, n) => .instr (.xstall c n)
  | _ => none

/-- A command without operands. -/
def readAlone (i : Instr) : List (List Char) → Option ScriptLine
  | [] => some (.instr i)
  | _ => none

def readArm : List (List Char) → Option ScriptLine
  | [t, s, d, w] => (channelName t).bind fun (c, n) => (bitsOf 32 s).bind fun sad =>
    (bitsOf 32 d).bind fun dad => (bitsOf 32 w).map fun cnt => .arm c n sad dad cnt
  | _ => none

/-- A `.ts` or `.target` directive. -/
def readTime (f : CoreId → Time → ScriptLine) : List (List Char) → Option ScriptLine
  | [c, v] => (coreName c).bind fun c => (bitsOf 64 v).map fun t => f c t
  | _ => none

def readMem : List (List Char) → Option ScriptLine
  | [c, a, w, v] => (coreName c).bind fun c => (bitsOf 32 a).bind fun a => (widthName w).bind fun w =>
    (bitsOf w.bits v).map fun v => .mem c a w (v.setWidth 32)
  | _ => none

/-- The line of a mnemonic and its operands, as the syntax of R174, R175 lists them. -/
def lineReaders : List (String × (List (List Char) → Option ScriptLine)) :=
  [ ("WR", readWr), ("RD", readRd), ("TRIG", readTrig), ("TICK", readCoreLine .tick),
    ("MRAM_DONE", readCoreLine .mramDone), ("XSTALL", readXstall), ("RESET", readAlone .resetBlock),
    ("SAVE", readAlone .save), ("RESTORE", fun ops => (vectorOf ops).map fun v => .instr (.restore v)),
    ("WR16", readWr16), ("WR8", readWr8), ("ARM", readArm), (".ts", readTime .ts), (".target", readTime .target),
    (".mem", readMem) ]

/-- The operands of a line: what stands between the commas. -/
def operandsOf (l : List Char) : List (List Char) :=
  if l = [] then [] else (splitAtChar ',' l).map trimBlanks

/-- One line of a script: `none` where it is malformed, no line where it is blank or a comment (R174). -/
def readLine (l : List Char) : Option (List ScriptLine) :=
  let text := trimBlanks (beforeComment l)
  if text = [] then some []
  else
    let name := text.takeWhile fun c => !isBlank c
    let operands := operandsOf (trimBlanks (text.dropWhile fun c => !isBlank c))
    match lineReaders.find? fun p => p.1.toList == name with
    | some p => (p.2 operands).map fun x => [x]
    | none => none

/-- The lines of a script, one command a line. -/
def readLines : List (List Char) → Option (List ScriptLine)
  | [] => some []
  | l :: ls => (readLine l).bind fun x => (readLines ls).map fun xs => x ++ xs

/-- A script's text as the inputs it stands for; `none` where a line is malformed. -/
def readScript (s : String) : Option (List Input) :=
  (readLines (splitAtChar '\n' s.toList)).map expandScript

end Sys2Proof.Machine
end

