-- ==== Sys2Proof/Tests/Slice0.lean ====
section
/-!
SUPPORT. The model's own tests: the well-formedness smoke, decoding, one step at a time, and for every
statement with hypotheses a state and operands that meet them. Expected results come from spec/ (the tables
and vectors of 30_encoding.md and 95_test_vectors.md, or hand calculation from the rules named).
-/
namespace Sys2Proof.Tests
open Sys2Proof.Machine

/-! ## The test configuration (95_test_vectors.md section 1) -/

/-- A table by the top byte of the address, under a region shift. -/
def byTopByte {α : Type} (shift : Nat) (rows : List (Nat × α)) (other : α) : Table α :=
  ⟨rows.map fun p => ⟨p.1 * 2 ^ (24 - shift), (p.1 + 1) * 2 ^ (24 - shift) - 1, p.2⟩, other⟩

def testRegions : List (Nat × Nat) := [(2, 1), (3, 2), (4, 3), (6, 4)]

def testCosts : List (Nat × AccessCosts) :=
  [(2, ⟨9, 2, 9, 2⟩), (3, ⟨3, 1, 3, 1⟩), (4, ⟨2, 2, 2, 2⟩), (6, ⟨4, 2, 5, 3⟩)]

def testConfig : Config :=
  { Config.default with
    tables :=
      { system := 0
        regionTable := ⟨byTopByte 15 testRegions 0, byTopByte 14 testRegions 0⟩
        costTable := ⟨byTopByte 15 testCosts ⟨1, 1, 1, 1⟩, byTopByte 14 testCosts ⟨1, 1, 1, 1⟩⟩
        mainRamRegion := ⟨1, 1⟩ } }

/-- The power-on state under the test configuration. -/
def idle : State := { State.reset with cfg := testConfig }

/-- A channel in the middle of a transfer of four 16-bit units from WRAM to WRAM. -/
def busyChannel (c : CoreId) (n : ChanId) : Channel :=
  { Channel.reset c n with
    controlWord := 0x80000004
    srcInc := .up
    dstInc := .up
    curSrcAddr := 0x03000000
    curDstAddr := 0x03004000
    remainingCount := 4
    iterationCount := 4
    running := .justStarted
    inProgress := true }

/-- Channel (c, n) as given, all others idle, and a budget of `budget` cycles. -/
def withChannel (c : CoreId) (n : ChanId) (ch : Channel) (budget : Time) : State :=
  { idle.putChan c n ch with target := ⟨budget, budget⟩ }

/-- The next state, or the state given where there is none. -/
def nextOr (s : State) (o : Host.Outcome State Fault Refusal) : State :=
  match o with
  | .next t => t
  | .fault _ => s
  | .refused _ => s

/-- One instruction on a state. -/
def after (i : Instr) (s : State) : State := nextOr s (exec i s)

/-! ## Well-formedness: an ill-formed term for each check, refused (30_encoding.md R141, R151, R152, R155, R156) -/

theorem test_wide_code_refused :
    (.cntStartImmediateWide .core1 .ch0 0x08000000 : Instr).wellFormed testConfig = false
      ∧ (.cntStartVblankWide .core1 .ch0 0x10000000 : Instr).wellFormed testConfig = false
      ∧ (.cntStartHblankWide .core1 .ch0 0x18000000 : Instr).wellFormed testConfig = false
      ∧ (.cntStartDisplayStartWide .core1 .ch0 0x20000000 : Instr).wellFormed testConfig = false
      ∧ (.cntStartMainMemDisplayWide .core1 .ch0 0x28000000 : Instr).wellFormed testConfig = false
      ∧ (.cntStartCartWide .core1 .ch0 0x30000000 : Instr).wellFormed testConfig = false
      ∧ (.cntStartGbaSlotWide .core1 .ch0 0x38000000 : Instr).wellFormed testConfig = false
      ∧ (.cntStartGxFifoWide .core1 .ch0 0x00000000 : Instr).wellFormed testConfig = false := by decide

theorem test_narrow_code_refused :
    (.cntStartImmediateNarrow .core0 .ch0 0x10000000 : Instr).wellFormed testConfig = false
      ∧ (.cntStartVblankNarrow .core0 .ch0 0x20000000 : Instr).wellFormed testConfig = false
      ∧ (.cntStartCartNarrow .core0 .ch0 0x30000000 : Instr).wellFormed testConfig = false
      ∧ (.cntStartWifiGbaNarrow .core0 .ch0 0x00000000 : Instr).wellFormed testConfig = false := by decide

theorem test_start_core_refused :
    (.cntStartVblankWide .core0 .ch0 0x08000000 : Instr).wellFormed testConfig = false
      ∧ (.cntStartVblankNarrow .core1 .ch0 0x10000000 : Instr).wellFormed testConfig = false := by decide

theorem test_dst_code_refused :
    (.cntDstIncrement .core0 .ch0 0x00200000 : Instr).wellFormed testConfig = false
      ∧ (.cntDstDecrement .core0 .ch0 0x00400000 : Instr).wellFormed testConfig = false
      ∧ (.cntDstFixed .core0 .ch0 0x00600000 : Instr).wellFormed testConfig = false
      ∧ (.cntDstIncrementReload .core0 .ch0 0x00000000 : Instr).wellFormed testConfig = false := by decide

theorem test_src_code_refused :
    (.cntSrcIncrement .core0 .ch0 0x00800000 : Instr).wellFormed testConfig = false
      ∧ (.cntSrcDecrement .core0 .ch0 0x01000000 : Instr).wellFormed testConfig = false
      ∧ (.cntSrcFixed .core0 .ch0 0x01800000 : Instr).wellFormed testConfig = false
      ∧ (.cntSrcReservedAsIncrement .core0 .ch0 0x00000000 : Instr).wellFormed testConfig = false := by decide

theorem test_live_bit_refused :
    (.cntWidth16 .core0 .ch0 0x04000000 : Instr).wellFormed testConfig = false
      ∧ (.cntWidth32 .core0 .ch0 0xFBFFFFFF : Instr).wellFormed testConfig = false
      ∧ (.cntRepeat .core0 .ch0 0xFDFFFFFF : Instr).wellFormed testConfig = false
      ∧ (.cntIrqEn .core0 .ch0 0xBFFFFFFF : Instr).wellFormed testConfig = false
      ∧ (.cntEnable .core0 .ch0 0x7FFFFFFF : Instr).wellFormed testConfig = false := by decide

theorem test_well_formed :
    (.cntStartVblankWide .core1 .ch0 0x88000001 : Instr).wellFormed testConfig = true
      ∧ (.cntStartVblankNarrow .core0 .ch0 0x90000001 : Instr).wellFormed testConfig = true
      ∧ (.cntWidth32 .core0 .ch3 0x04000000 : Instr).wellFormed testConfig = true
      ∧ (.restore [] : Instr).wellFormed testConfig = true := by decide

/-! ## Decoding of command words, written out from R170 and R171 (the accepted headers of 95_test_vectors.md 3.1) -/

theorem test_decode_wrSad :
    decodeCommand [0b00000000000000000000011000100000, 0xAABB] = .ok (.wrSad .core0 .ch1 0x3 0xAABB) := by decide

theorem test_decode_wrDad :
    decodeCommand [0b00000000000000000001111011000000, 0x04000400] = .ok (.wrDad .core0 .ch2 0xF 0x04000400) :=
  by decide

theorem test_decode_wrCnt :
    decodeCommand [0b00000000000000000001111101100000, 0x80000000] = .ok (.wrCnt .core0 .ch3 0xF 0x80000000) :=
  by decide

theorem test_decode_rdSad : decodeCommand [0b00000000000000000000000000100001] = .ok (.rdSad .core0 .ch1) := by decide

theorem test_decode_rdDad : decodeCommand [0b00000000000000000000000011010001] = .ok (.rdDad .core1 .ch2) := by decide

theorem test_decode_rdCnt : decodeCommand [0b00000000000000000000000100000001] = .ok (.rdCnt .core0 .ch0) := by decide

theorem test_decode_trig :
    decodeCommand [0b00000000000000001110000000010010] = .ok (.trig .core1 .gxFifo) := by decide

theorem test_decode_trigImmediate :
    decodeCommand [0b00000000000000000000000000000010] = .ok (.trig .core0 .immediate) := by decide

theorem test_decode_trigLast :
    decodeCommand [0b00000000000000010000000000000010] = .ok (.trig .core0 .wifiGba) := by decide

theorem test_decode_tick : decodeCommand [0b00000000000000000000000000010011] = .ok (.tick .core1) := by decide

theorem test_decode_mramDone :
    decodeCommand [0b00000000000000000000000000000100] = .ok (.mramDone .core0) := by decide

theorem test_decode_xstall :
    decodeCommand [0b00000000000000000000000000100101] = .ok (.xstall .core0 .ch1) := by decide

theorem test_decode_resetBlock : decodeCommand [0b00000000000000000000000000000110] = .ok (.resetBlock) := by decide

theorem test_decode_save : decodeCommand [0b00000000000000000000000000000111] = .ok (.save) := by decide

theorem test_decode_restore :
    decodeCommand [0b00000000000000000000000000001000, 1, 2] = .ok (.restore [1, 2]) := by decide

/-! ## Decoding of control words, written out from R141, R151, R152, R155 and R156 -/

theorem test_decode_start_immediate_wide :
    decodeControl testConfig .core1 .ch1 .start 0b10000000000000000000000000000001
      = .ok (.cntStartImmediateWide .core1 .ch1 0x80000001) := by decide

theorem test_decode_start_vblank_wide :
    decodeControl testConfig .core1 .ch1 .start 0b10001000000000000000000000000001
      = .ok (.cntStartVblankWide .core1 .ch1 0x88000001) := by decide

theorem test_decode_start_hblank_wide :
    decodeControl testConfig .core1 .ch1 .start 0b10010000000000000000000000000001
      = .ok (.cntStartHblankWide .core1 .ch1 0x90000001) := by decide

theorem test_decode_start_displayStart_wide :
    decodeControl testConfig .core1 .ch1 .start 0b10011000000000000000000000000001
      = .ok (.cntStartDisplayStartWide .core1 .ch1 0x98000001) := by decide

theorem test_decode_start_mainMemDisplay_wide :
    decodeControl testConfig .core1 .ch1 .start 0b10100000000000000000000000000001
      = .ok (.cntStartMainMemDisplayWide .core1 .ch1 0xA0000001) := by decide

theorem test_decode_start_cart_wide :
    decodeControl testConfig .core1 .ch1 .start 0b10101000000000000000000000000001
      = .ok (.cntStartCartWide .core1 .ch1 0xA8000001) := by decide

theorem test_decode_start_gbaSlot_wide :
    decodeControl testConfig .core1 .ch1 .start 0b10110000000000000000000000000001
      = .ok (.cntStartGbaSlotWide .core1 .ch1 0xB0000001) := by decide

theorem test_decode_start_gxFifo_wide :
    decodeControl testConfig .core1 .ch1 .start 0b10111000000000000000000000000001
      = .ok (.cntStartGxFifoWide .core1 .ch1 0xB8000001) := by decide

theorem test_decode_start_immediate_narrow :
    decodeControl testConfig .core0 .ch1 .start 0b10001000000000000000000000000001
      = .ok (.cntStartImmediateNarrow .core0 .ch1 0x88000001) := by decide

theorem test_decode_start_vblank_narrow :
    decodeControl testConfig .core0 .ch1 .start 0b10010000000000000000000000000001
      = .ok (.cntStartVblankNarrow .core0 .ch1 0x90000001) := by decide

theorem test_decode_start_cart_narrow :
    decodeControl testConfig .core0 .ch1 .start 0b10101000000000000000000000000001
      = .ok (.cntStartCartNarrow .core0 .ch1 0xA8000001) := by decide

theorem test_decode_start_wifiGba_narrow :
    decodeControl testConfig .core0 .ch1 .start 0b10111000000000000000000000000001
      = .ok (.cntStartWifiGbaNarrow .core0 .ch1 0xB8000001) := by decide

theorem test_decode_dst_increment :
    decodeControl testConfig .core0 .ch1 .dst 0b00000000000000000000000000000000
      = .ok (.cntDstIncrement .core0 .ch1 0x00000000) := by decide

theorem test_decode_dst_decrement :
    decodeControl testConfig .core0 .ch1 .dst 0b00000000001000000000000000000000
      = .ok (.cntDstDecrement .core0 .ch1 0x00200000) := by decide

theorem test_decode_dst_fixed :
    decodeControl testConfig .core0 .ch1 .dst 0b00000000010000000000000000000000
      = .ok (.cntDstFixed .core0 .ch1 0x00400000) := by decide

theorem test_decode_dst_incrementReload :
    decodeControl testConfig .core0 .ch1 .dst 0b00000000011000000000000000000000
      = .ok (.cntDstIncrementReload .core0 .ch1 0x00600000) := by decide

theorem test_decode_src_increment :
    decodeControl testConfig .core1 .ch1 .src 0b00000000000000000000000000000000
      = .ok (.cntSrcIncrement .core1 .ch1 0x00000000) := by decide

theorem test_decode_src_decrement :
    decodeControl testConfig .core1 .ch1 .src 0b00000000100000000000000000000000
      = .ok (.cntSrcDecrement .core1 .ch1 0x00800000) := by decide

theorem test_decode_src_fixed :
    decodeControl testConfig .core1 .ch1 .src 0b00000001000000000000000000000000
      = .ok (.cntSrcFixed .core1 .ch1 0x01000000) := by decide

theorem test_decode_src_reservedAsIncrement :
    decodeControl testConfig .core1 .ch1 .src 0b00000001100000000000000000000000
      = .ok (.cntSrcReservedAsIncrement .core1 .ch1 0x01800000) := by decide

theorem test_decode_width16 :
    decodeControl testConfig .core0 .ch1 .width 0b11111011111111111111111111111111
      = .ok (.cntWidth16 .core0 .ch1 0xFBFFFFFF) := by decide

theorem test_decode_width32 :
    decodeControl testConfig .core0 .ch1 .width 0b00000100000000000000000000000000
      = .ok (.cntWidth32 .core0 .ch1 0x04000000) := by decide

theorem test_decode_repeat :
    decodeControl testConfig .core0 .ch1 .repeatFlag 0b00000010000000000000000000000000
      = .ok (.cntRepeat .core0 .ch1 0x02000000) := by decide

theorem test_decode_irqEn :
    decodeControl testConfig .core0 .ch1 .irqEn 0b01000000000000000000000000000000
      = .ok (.cntIrqEn .core0 .ch1 0x40000000) := by decide

theorem test_decode_enable :
    decodeControl testConfig .core0 .ch1 .enable 0b10000000000000000000000000000000
      = .ok (.cntEnable .core0 .ch1 0x80000000) := by decide

theorem test_decode_count :
    decodeControl testConfig .core0 .ch1 .count 0b00000000000111111111111111111111
      = .ok (.cntCount .core0 .ch1 0x001FFFFF) := by decide

/-! ## Refused headers (95_test_vectors.md 3.1; R172) -/

theorem test_refuse_reserved_op : decodeCommand (0x9 :: []) = .error .reservedOp := by decide

theorem test_refuse_last_op : decodeCommand (0xF :: []) = .error .reservedOp := by decide

theorem test_refuse_reserved_reg : decodeCommand (0x1F80 :: [0]) = .error .reservedReg := by decide

theorem test_refuse_write_event : decodeCommand (0x3E00 :: [0]) = .error .unusedField := by decide

theorem test_refuse_read_enables : decodeCommand (0x301 :: []) = .error .unusedField := by decide

theorem test_refuse_reserved_event : decodeCommand (0x12002 :: []) = .error .reservedEvent := by decide

theorem test_refuse_tick_channel : decodeCommand (0x23 :: []) = .error .unusedField := by decide

theorem test_refuse_high_bit : decodeCommand (0x20003 :: []) = .error .highBits := by decide

theorem test_refuse_reset_core : decodeCommand (0x16 :: []) = .error .unusedField := by decide

theorem test_refuse_length :
    decodeCommand [] = .error .noHeader ∧ decodeCommand [0x1E00] = .error .wrongLength
      ∧ decodeCommand [0x1E00, 0, 0] = .error .wrongLength ∧ decodeCommand [0x3, 0] = .error .wrongLength := by decide

/-- R140: the window is 48 bytes from DMA_REG_BASE, 0x040000B0 by default (R22). -/
theorem test_window_ends :
    decodeInput Config.default (.busWrite .core0 0x040000B0 0xF 1) = .ok (.wrSad .core0 .ch0 0xF 1)
      ∧ decodeInput Config.default (.busRead .core1 0x040000DF) = .ok (.rdCnt .core1 .ch3)
      ∧ decodeInput Config.default (.busRead .core1 0x040000E0) = .error .outsideWindow
      ∧ decodeInput Config.default (.busRead .core1 0x040000AF) = .error .outsideWindow := by decide

theorem test_table_words :
    decodeTableWord 64 0x00000000000000A0 = some (.wrDad .core0 .ch1 0 0)
      ∧ decodeTableWord 32 0x00000003 = some (.tick .core0)
      ∧ decodeTableWord 32 0x08000000 = some (.cntStartVblankWide .core1 .ch0 0x08000000)
      ∧ decodeTableWord 32 0x00600000 = some (.cntDstIncrementReload .core1 .ch0 0x00600000)
      ∧ decodeTableWord 32 0x80000000 = some (.cntEnable .core1 .ch0 0x80000000) := by decide

theorem test_step_table_word :
    step (State.reset.withFetchWord 32 0x25)
      = .next (State.reset.putChan .core0 .ch1 { Channel.reset .core0 .ch1 with extStall := true }) := rfl

/-! ## One step of each kind (95_test_vectors.md 2 and 3) -/

/-- V-L2-REG-1. -/
theorem test_wr_sad :
    (after (.wrSad .core0 .ch1 0x3 0x0000AABB) (withChannel .core0 .ch1
      { Channel.reset .core0 .ch1 with srcAddr := 0x11223344 } 0)).chan .core0 .ch1
      = { Channel.reset .core0 .ch1 with srcAddr := 0x1122AABB } := by decide

/-- The example of R202. -/
theorem test_wr_dad :
    ((after (.wrDad .core1 .ch2 0xF 0x04000400) idle).chan .core1 .ch2).dstAddr = 0x04000400 := by decide

/-- V-L2-REG-2: the write of the high half starts the channel. -/
theorem test_wr_cnt_split :
    let s := after (.wrCnt .core0 .ch3 0xC 0x80000000)
        (withChannel .core0 .ch3 { Channel.reset .core0 .ch3 with controlWord := 0x00000010 } 0)
    (s.chan .core0 .ch3).controlWord = 0x80000010 ∧ (s.chan .core0 .ch3).remainingCount = 16
      ∧ s.events = [.stall .core0 8] := by decide

/-- V-L1-1. -/
theorem test_wr_cnt_zero_count :
    let s := after (.wrCnt .core0 .ch3 0xF 0x80000000) idle
    (s.chan .core0 .ch3).remainingCount = 65536 ∧ (s.chan .core0 .ch3).running = .justStarted
      ∧ (s.set .core0).stallBits = 8 := by decide

/-- R213. -/
theorem test_rd_cnt :
    (after (.rdCnt .core0 .ch1) (withChannel .core0 .ch1 (busyChannel .core0 .ch1) 0)).reply = [0x80000004] :=
  by decide

/-- R213. -/
theorem test_rd_sad_dad :
    let s := withChannel .core0 .ch1 { Channel.reset .core0 .ch1 with srcAddr := 7, dstAddr := 9 } 0
    (after (.rdSad .core0 .ch1) s).reply = [7] ∧ (after (.rdDad .core0 .ch1) s).reply = [9] := by decide

/-- V-L2-ST-1. -/
theorem test_trig_two_channels :
    let armed (n : ChanId) : Channel :=
      { Channel.reset .core1 n with controlWord := 0x88000001, startMode := .vblank }
    let s := after (.trig .core1 .vblank) ((idle.putChan .core1 .ch0 (armed .ch0)).putChan .core1 .ch2 (armed .ch2))
    s.events = [.stall .core1 1, .stall .core1 4] ∧ (s.set .core1).stallBits = 0b0101 := by decide

/-- V-L2-ST-3: CART is no queued mode. -/
theorem test_trig_discarded :
    let ch := { busyChannel .core1 .ch0 with startMode := .cart, running := .interrupted }
    after (.trig .core1 .cart) (withChannel .core1 .ch0 ch 0) = withChannel .core1 .ch0 ch 0 := by decide

/-- Program P1 (section 4) from its TICK on: units at positions 3, 2, 1, 0 cost 3, 3, 2, 3 (R274). -/
theorem test_tick_program :
    let s := after (.tick .core0) (withChannel .core0 .ch0
        { busyChannel .core0 .ch0 with controlWord := 0xC0000004 } 1000)
    s.ts.core0 = 11 ∧ (s.chan .core0 .ch0).controlWord = 0x40000004 ∧ (s.chan .core0 .ch0).curSrcAddr = 0x03000008
      ∧ s.events.drop 8 = [.raiseIrq .core0 .ch0, .resume .core0 1] := by decide

/-- The example of R322, at a spent budget. -/
theorem test_mram_done :
    let s := after (.mramDone .core0) { withChannel .core0 .ch0 { busyChannel .core0 .ch0 with
        controlWord := 0x84000004, curSrcAddr := 0x02000000, running := .interrupted } 0 with
        sets.core0.slot := ⟨true, .w32, .ch0⟩ }
    (s.chan .core0 .ch0).curSrcAddr = 0x02000004 ∧ (s.chan .core0 .ch0).remainingCount = 3
      ∧ (s.set .core0).slot.busy = false := by decide

/-- R324. -/
theorem test_xstall : ((after (.xstall .core0 .ch1) idle).chan .core0 .ch1).extStall = true := by decide

/-- R440, R443. -/
theorem test_reset_rd :
    after .resetBlock (withChannel .core0 .ch1 (busyChannel .core0 .ch1) 5)
      = { idle with target := ⟨5, 5⟩ } := by decide

/-- 95_test_vectors.md section 1: 174 words; the id of core 1 channel 2 (R364) and of set 1. -/
theorem test_save_words :
    let v := (after .save idle).reply
    v.length = 174 ∧ v[108]? = some 0x36414D44 ∧ v[159]? = some 0x31534D44 := by decide +kernel

/-- R366. -/
theorem test_restore_refused : exec (.restore []) idle = .next { idle with refusedCommand := true } := rfl

/-- V-L2-REG-4. -/
theorem test_control_row :
    let s := after (.cntStartVblankNarrow .core0 .ch0 0x90000001) idle
    (s.chan .core0 .ch0).startMode = .vblank ∧ (s.chan .core0 .ch0).controlWord = 0x90000001 ∧ s.events = [] :=
  by decide

/-- V-L2-REG-3. -/
theorem test_control_row_log :
    (after (.cntStartGbaSlotWide .core1 .ch0 0xB0000000) idle).events
      = [.log ⟨.warn, .unimplStart, .core1, .ch0, .gbaSlot, 0, 0⟩] := by decide

/-- R174, R175. -/
theorem test_script :
    readScript "WR c0.1.SAD, 0x0000AABB, be=0x3 ; merge\nWR16 c0.3.CNT.H, 0x8000\nTICK c1"
      = some [.command [0x620, 0xAABB], .command [0x1960, 0x80000000], .command [0x13]] := by decide +kernel

theorem test_script_malformed : readScript "WR c0.1.SAD" = none ∧ readScript "TICK c2" = none := by decide +kernel

/-! ## Witnesses: states and operands that meet the hypotheses of the statements, clause by clause -/

theorem channelInv_busy (c : CoreId) (n : ChanId) : ChannelInv testConfig c n (busyChannel c n) := by
  cases c <;> cases n <;> constructor <;> decide

theorem channelInv_reset (c : CoreId) (n : ChanId) : ChannelInv testConfig c n (Channel.reset c n) := by
  cases c <;> cases n <;> constructor <;> decide

theorem setInv_reset (c : CoreId) : SetInv testConfig c (ChannelSet.reset c) :=
  ⟨fun n => by cases n <;> exact channelInv_reset c _, by cases c <;> rfl, rfl, fun p hp => nomatch hp⟩

/-- A state whose only busy channel meets the invariant, with an empty slot, meets the machine's. -/
theorem inv_withChannel {c : CoreId} {n : ChanId} {ch : Channel} (budget : Time)
    (h : ChannelInv testConfig c n ch) : Inv (withChannel c n ch budget) := by
  refine ⟨fun c' => ?_, fun c' => ?_, fun c' => ?_⟩
  · have hs : SetInv testConfig c ((ChannelSet.reset c).setChan n ch) :=
      (setInv_reset c).setChan h (by cases c <;> exact fun hb => nomatch hb)
    cases c <;> cases c' <;> first | exact hs | exact setInv_reset _
  · cases c <;> cases c' <;> rfl
  · cases c <;> cases c' <;> rfl

theorem enters_withChannel (c : CoreId) (n : ChanId) (ch : Channel) (budget : Time)
    (h : ch.running ≠ .idle ∧ enableBit ch.controlWord = true ∧ 0 < budget) :
    Enters (withChannel c n ch budget) c n ∧ OthersQuiet (withChannel c n ch budget) c n := by
  have hsel : ∀ m : ChanId, m ≠ n → selectable ((withChannel c n ch budget).set c) m = false := by
    intro m hm
    cases c <;> cases n <;> cases m <;> first | rfl | exact absurd rfl hm
  refine ⟨⟨?_, fun m hm => hsel m ?_, ?_, ?_⟩, hsel⟩
  · cases c <;> cases n <;> simp [withChannel, selectable, State.putChan, State.set, ChannelSet.chan,
      ChannelSet.setChan, PerCore.get, PerCore.set, PerChan.get, PerChan.set, h.1, h.2.1]
  · intro e; subst e; exact Nat.lt_irrefl _ hm
  · cases c <;> exact h.2.2
  · cases c <;> exact fun hb => nomatch hb

/-! ### Decoding and the step -/

theorem witness_StepRunsDecodedInstruction :
    (Instr.wrCnt .core0 .ch3 0xF 1).wellFormed idle.cfg = true
      ∧ decodeInput idle.cfg (.busWrite .core0 0x040000DC 0xF 1) = .ok (.wrCnt .core0 .ch3 0xF 1)
      ∧ { idle with delivered := [.busWrite .core0 0x040000DC 0xF 1] }.delivered
        = .busWrite .core0 0x040000DC 0xF 1 :: []
      ∧ { idle with inbox := [.busWrite .core0 0x040000DC 0xF 1] }.delivered = []
      ∧ { idle with inbox := [.busWrite .core0 0x040000DC 0xF 1] }.inbox
        = .busWrite .core0 0x040000DC 0xF 1 :: [] := by decide

theorem witness_DecodedInstructionIsWellFormed :
    decodeInput testConfig (.control .core1 .ch0 .start 0xB8000000) 
      = .ok (.cntStartGxFifoWide .core1 .ch0 0xB8000000) := by
  decide

theorem witness_RefusedCommandSetsOnlyTheMark :
    (RefusedHeader 0x00000009 ∧ RefusedHeader 0x00020003 ∧ RefusedHeader 0x00001F80 ∧ RefusedHeader 0x00012002
      ∧ RefusedHeader 0x00000016 ∧ RefusedHeader 0x00000023 ∧ RefusedHeader 0x00000082
      ∧ RefusedHeader 0x00000301 ∧ RefusedHeader 0x00003E00)
    ∧ { idle with inbox := [.command [0x9]] }.delivered = []
    ∧ { idle with inbox := [.command [0x9]] }.inbox = .command (0x9 :: []) :: []
    ∧ (step { idle with refusedCommand := true } = .next { idle with refusedCommand := true }
      ∧ { idle with refusedCommand := true }.refusedCommand = true) := by
  refine ⟨⟨?_, ?_, ?_, ?_, ?_, ?_, ?_, ?_, ?_⟩, rfl, rfl, rfl, rfl⟩ <;> unfold RefusedHeader <;> decide

theorem witness_UnrefusedHeaderDecodes :
    ¬ RefusedHeader 0x00001F60 ∧ ((bitField 0 4 (0x00001F60 : Word)).toNat = 0 → [(5 : Word)].length = 1)
    ∧ ¬ RefusedHeader 0x00010002 ∧ ((bitField 0 4 (0x00010002 : Word)).toNat ≠ 0 → ([] : List Word) = []) := by
  refine ⟨?_, fun _ => rfl, ?_, fun _ => rfl⟩ <;> unfold RefusedHeader <;> decide

theorem witness_EncodedInstructionDecodesToItself :
    (Instr.cntStartWifiGbaNarrow .core0 .ch3 0xB0000001).wellFormed testConfig = true := by decide

theorem witness_AcceptedCommandEncodesBack : decodeCommand [0x00010012] = .ok (.trig .core1 .wifiGba) := by decide

/-- Inside the window, at its last byte, and just outside it on both sides. -/
theorem witness_RegisterWindowAnswersAtItsOffsets :
    (∃ k : Nat, k < 4 ∧ (0x040000DF : Word)
      = testConfig.regBase + BitVec.ofNat 32 (12 * ChanId.ch3.toNat + 4 * Reg.cnt.bits.toNat + k))
    ∧ (∀ (n : ChanId) (r : Reg), ¬ ∃ k : Nat, k < 4 ∧ (0x040000E0 : Word)
      = testConfig.regBase + BitVec.ofNat 32 (12 * n.toNat + 4 * r.bits.toNat + k))
    ∧ ∀ (n : ChanId) (r : Reg), ¬ ∃ k : Nat, k < 4 ∧ (0x040000AF : Word)
      = testConfig.regBase + BitVec.ofNat 32 (12 * n.toNat + 4 * r.bits.toNat + k) := by
  refine ⟨⟨3, by decide, by decide⟩, fun n r => ?_, fun n r => ?_⟩ <;> cases n <;> cases r <;> decide

/-! ### Register writes -/

/-- An idle core 1 channel with base addresses. -/
def programmed (sad dad cw : Word) : State :=
  withChannel .core1 .ch3 { Channel.reset .core1 .ch3 with srcAddr := sad, dstAddr := dad, controlWord := cw } 100

theorem witness_WrCntWithoutEnableEdgeOnlyStores :
    (MergedLanes ((programmed 1 2 0x80000005).chan .core1 .ch3).controlWord 0x7 0x00001234 0x80001234
      ∧ ¬ EnableEdge (programmed 1 2 0x80000005) .core1 .ch3 0x80001234)
    ∧ (MergedLanes ((programmed 1 2 5).chan .core1 .ch3).controlWord 0x0 0x80001234 0x5
      ∧ ¬ EnableEdge (programmed 1 2 5) .core1 .ch3 0x5) := by
  unfold MergedLanes EnableEdge
  decide

theorem witness_EnablingWriteLatches :
    (MergedLanes ((programmed 1 2 5).chan .core1 .ch3).controlWord 0xC 0x88000000 0x88000005
      ∧ EnableEdge (programmed 1 2 5) .core1 .ch3 0x88000005)
    ∧ (MergedLanes ((programmed 1 2 0x80000005).chan .core1 .ch3).controlWord 0xC 0x88000000 0x88000005
      ∧ ((programmed 1 2 0x80000005).chan .core1 .ch3).controlWord.getLsbD 31 = true) := by
  unfold MergedLanes EnableEdge
  decide

theorem witness_EnablingWriteOfDeferredModeArms :
    (MergedLanes ((programmed 1 2 0).chan .core1 .ch3).controlWord 0xF 0xB8000001 0xB8000001
      ∧ EnableEdge (programmed 1 2 0) .core1 .ch3 0xB8000001
      ∧ decodeStart ((programmed 1 2 0).cfg.variant.get .core1) 0xB8000001 = .gxFifo
      ∧ StartEvent.gxFifo ≠ .immediate ∧ StartEvent.gxFifo ∉ (programmed 1 2 0).cfg.unimplementedModes)
    ∧ decodeStart ((programmed 1 2 0).cfg.variant.get .core1) 0x88000001 = .vblank
    ∧ StartEvent.vblank ≠ .immediate ∧ StartEvent.vblank ∉ (programmed 1 2 0).cfg.unimplementedModes := by
  unfold MergedLanes EnableEdge
  decide

theorem witness_EnablingWriteOfUnimplementedModeOnlyLogs :
    MergedLanes ((programmed 1 2 0).chan .core1 .ch3).controlWord 0xF 0xB0000001 0xB0000001
      ∧ EnableEdge (programmed 1 2 0) .core1 .ch3 0xB0000001
      ∧ decodeStart ((programmed 1 2 0).cfg.variant.get .core1) 0xB0000001 = .gbaSlot
      ∧ StartEvent.gbaSlot ∈ (programmed 1 2 0).cfg.unimplementedModes
      ∧ idle.cfg = (programmed 1 2 0).cfg := by
  unfold MergedLanes EnableEdge
  decide

theorem witness_EnablingWriteOfImmediateModeStarts :
    MergedLanes ((programmed 1 2 0).chan .core1 .ch3).controlWord 0xF 0x80000001 0x80000001
      ∧ EnableEdge (programmed 1 2 0) .core1 .ch3 0x80000001
      ∧ decodeStart ((programmed 1 2 0).cfg.variant.get .core1) 0x80000001 = .immediate
      ∧ StartEvent.immediate ∉ (programmed 1 2 0).cfg.unimplementedModes := by
  unfold MergedLanes EnableEdge
  decide

/-! ### The control-word rows -/

theorem witness_ControlRowsOnlyStoreWithoutEnableEdge :
    (Instr.cntStartGxFifoWide .core1 .ch3 0x38000000).wellFormed (programmed 1 2 0).cfg = true
      ∧ ¬ EnableEdge (programmed 1 2 0) .core1 .ch3 0x38000000
      ∧ (Instr.cntEnable .core1 .ch3 0x80000000).wellFormed (programmed 1 2 0x80000000).cfg = true
      ∧ ¬ EnableEdge (programmed 1 2 0x80000000) .core1 .ch3 0x80000000 := by
  unfold EnableEdge
  decide

theorem witness_StartRowsLatchTheirEvent :
    ((Instr.cntStartGbaSlotWide .core1 .ch3 0xB0000000).wellFormed (programmed 1 2 0).cfg = true
      ∧ EnableEdge (programmed 1 2 0) .core1 .ch3 0xB0000000)
    ∧ (Instr.cntStartImmediateNarrow .core0 .ch3 0x88000000).wellFormed idle.cfg = true
      ∧ EnableEdge idle .core0 .ch3 0x88000000 := by
  unfold EnableEdge
  decide

theorem witness_IncrementRowsLatchTheirIncrement :
    (EnableEdge (programmed 1 2 0) .core1 .ch3 0x80600000
      ∧ (Instr.cntDstIncrementReload .core1 .ch3 0x80600000).wellFormed (programmed 1 2 0).cfg = true)
    ∧ EnableEdge (programmed 1 2 0) .core1 .ch3 0x81800000
      ∧ (Instr.cntSrcReservedAsIncrement .core1 .ch3 0x81800000).wellFormed (programmed 1 2 0).cfg = true := by
  unfold EnableEdge
  decide

theorem witness_LiveFieldRowsSetTheirField :
    (Instr.cntWidth16 .core0 .ch0 0x80000000).wellFormed idle.cfg = true
      ∧ (Instr.cntWidth32 .core0 .ch0 0x04000000).wellFormed idle.cfg = true
      ∧ (Instr.cntRepeat .core0 .ch0 0x02000000).wellFormed idle.cfg = true
      ∧ (Instr.cntIrqEn .core0 .ch0 0x40000000).wellFormed idle.cfg = true
      ∧ (Instr.cntEnable .core0 .ch0 0x80000000).wellFormed idle.cfg = true := by decide

/-! ### Start and TRIG -/

/-- Core 1 with channel 1 running and channel 3 given. -/
def startable (ch : Channel) : State :=
  (withChannel .core1 .ch1 (busyChannel .core1 .ch1) 100).putChan .core1 .ch3 ch

theorem witness_StartWhileRunningQueuesOrIsDiscarded :
    ((((withChannel .core1 .ch1 { busyChannel .core1 .ch1 with startMode := .vblank } 1).set .core1).chan .ch1).running
        ≠ .idle ∧ StartEvent.vblank ∈ testConfig.queueModes)
    ∧ ((((withChannel .core1 .ch1 { busyChannel .core1 .ch1 with startMode := .gxFifo } 1).set .core1).chan .ch1).running
        ≠ .idle ∧ StartEvent.gxFifo ∉ testConfig.queueModes) := by decide

theorem witness_StartSetsTheCounts :
    let fresh := (startable { Channel.reset .core1 .ch3 with controlWord := 0x80000000, startMode := .gxFifo }).set .core1
    let again := (startable { busyChannel .core1 .ch3 with running := .idle }).set .core1
    ((fresh.chan .ch3).running = .idle ∧ (fresh.chan .ch3).inProgress = false
      ∧ (fresh.chan .ch3).controlWord.toNat % 2 ^ ((testConfig.countBits.get .core1).get .ch3).val = 0)
    ∧ (again.chan .ch3).running = .idle ∧ (again.chan .ch3).inProgress = true := by decide

theorem witness_StartReloadsAndClassifies :
    let fresh := (startable { Channel.reset .core1 .ch3 with controlWord := 0x80600001 }).set .core1
    let again := (startable { busyChannel .core1 .ch3 with running := .idle }).set .core1
    let plain := (startable { Channel.reset .core1 .ch3 with controlWord := 0x80400001 }).set .core1
    ((fresh.chan .ch3).running = .idle ∧ (fresh.chan .ch3).inProgress = false
      ∧ bitField 21 2 (fresh.chan .ch3).controlWord = 3)
    ∧ ((again.chan .ch3).running = .idle ∧ (again.chan .ch3).inProgress = true)
    ∧ (plain.chan .ch3).running = .idle ∧ bitField 21 2 (plain.chan .ch3).controlWord ≠ 3 := by decide

/-- Both runs open, so that the marker is `continuing`; or a closed one. -/
theorem witness_StartInvalidatesShareAndSetsMarker :
    let ch : Channel :=
      { Channel.reset .core1 .ch3 with
        srcInc := .up
        dstInc := .up
        curSrcAddr := 0x03000000
        curDstAddr := 0x06000000 }
    let S : ChannelSet := { (startable ch).set .core1 with share := [(2, ⟨true, .ch3⟩), (4, ⟨true, .ch0⟩)] }
    let T := (startSet testConfig .core1 .ch3 S).1
    ((S.chan .ch3).running = .idle ∧ (S.chan .ch3).srcInc = .up ∧ (S.chan .ch3).dstInc = .up
      ∧ (shareAt T.share (bankOfRegion testConfig (regionOf testConfig .core1 (T.chan .ch3).curSrcAddr))).valid = true
      ∧ (shareAt T.share (bankOfRegion testConfig (regionOf testConfig .core1 (T.chan .ch3).curDstAddr))).valid = true)
    ∧ (S.chan .ch0).running = .idle ∧ (S.chan .ch0).srcInc ≠ .up := by decide

theorem witness_StartInterruptsLowerChannels :
    let S : ChannelSet := { (startable (Channel.reset .core1 .ch3)).set .core1 with executing := some .ch1 }
    ((S.chan .ch0).running = .idle ∧ ChanId.ch1 ≠ .ch0 ∧ (S.chan .ch1).running ≠ .idle)
      ∧ (S.chan .ch3).running = .idle ∧ ChanId.ch1 ≠ .ch3 := by decide

theorem witness_StartStallsTheCpu :
    (((startable (Channel.reset .core1 .ch3)).set .core1).chan .ch3).running = .idle := by decide

/-- Core 1 channel 2 armed on CART. -/
def armed : State :=
  withChannel .core1 .ch2 { Channel.reset .core1 .ch2 with controlWord := 0xA8000001, startMode := .cart } 100

theorem witness_TrigWithoutTakerDoesNothing :
    StartEvent.gbaSlot ∈ armed.cfg.unimplementedModes ∧ ∀ n : ChanId, ¬ ArmedOn armed .core1 n .vblank := by
  refine ⟨by decide, fun n => ?_⟩
  unfold ArmedOn
  cases n <;> decide

theorem witness_TrigStartsTheOnlyArmedChannel :
    StartEvent.cart ≠ .immediate ∧ StartEvent.cart ∉ armed.cfg.unimplementedModes ∧ ArmedOn armed .core1 .ch2 .cart
      ∧ ∀ m : ChanId, m ≠ .ch2 → ¬ ArmedOn armed .core1 m .cart := by
  unfold ArmedOn
  refine ⟨by decide, by decide, by decide, fun m hm => ?_⟩
  cases m <;> first | exact absurd rfl hm | decide

/-- Core 1 with channel 1 Running and armed on VBLANK, a queued mode, and channel 3 idle and armed on it. -/
def armedTwice : State :=
  (withChannel .core1 .ch1 { busyChannel .core1 .ch1 with startMode := .vblank } 100).putChan .core1 .ch3
    { Channel.reset .core1 .ch3 with controlWord := 0x88000001, startMode := .vblank }

theorem witness_TrigStartsExactlyTheArmedChannels :
    StartEvent.vblank ≠ .immediate ∧ StartEvent.vblank ∉ armedTwice.cfg.unimplementedModes
      ∧ (ArmedOn armedTwice .core1 .ch3 .vblank ∧ (armedTwice.chan .core1 .ch3).running = .idle)
      ∧ (ArmedOn armedTwice .core1 .ch1 .vblank ∧ (armedTwice.chan .core1 .ch1).running ≠ .idle)
      ∧ ¬ ArmedOn armedTwice .core1 .ch2 .vblank := by
  unfold ArmedOn
  decide

/-! ### Timing -/

theorem witness_UnitCostFollowsBurstPosition :
    (bankAt testConfig .core0 0x03000000 = bankAt testConfig .core0 0x03FFFFFE ∧ (0 : Int) ≤ 0)
      ∧ bankAt testConfig .core0 0x03000000 ≠ bankAt testConfig .core0 0x06000000 := by decide

/-- A cost table whose entries are all `v`, and a timestamp. -/
def priced (v : Word) (ts target : Time) : State :=
  { withChannel .core1 .ch0 (busyChannel .core1 .ch0) target with
    ts := ⟨ts, ts⟩
    cfg := { testConfig with tables.costTable := ⟨⟨[], ⟨v, v, v, v⟩⟩, ⟨[], ⟨v, v, v, v⟩⟩⟩ } }

theorem enters_priced (v : Word) (ts target : Time) (h : ts < target) :
    Enters (priced v ts target) .core1 .ch0 ∧ UnitDue (priced v ts target) .core1 .ch0 := by
  refine ⟨⟨(enters_withChannel .core1 .ch0 (busyChannel .core1 .ch0) 1 (by decide)).1.selectable,
    fun m hm => absurd hm (Nat.not_lt_zero _), h, fun hb => nomatch hb⟩, ⟨?_, rfl, ?_⟩⟩
  · show (4 : Word) ≠ 0
    decide
  · show touchesMainRam testConfig .core1 0x03000000 0x03004000 = false
    decide

theorem witness_TickStopsOnOverflow :
    (Enters (priced 0x80000000 0 100) .core1 .ch0 ∧ UnitDue (priced 0x80000000 0 100) .core1 .ch0
      ∧ 2 ^ 32 ≤ firstCost (priced 0x80000000 0 100) .core1 .ch0)
    ∧ Enters (priced 0 0xFFFFFFFFFFFFFFFE 0xFFFFFFFFFFFFFFFF) .core1 .ch0
      ∧ Enters (priced 0x7FFFFFFF 0xFFFFFFFF00000001 0xFFFFFFFF00000002) .core1 .ch0
      ∧ UnitDue (priced 0x7FFFFFFF 0xFFFFFFFF00000001 0xFFFFFFFF00000002) .core1 .ch0
      ∧ firstCost (priced 0x7FFFFFFF 0xFFFFFFFF00000001 0xFFFFFFFF00000002) .core1 .ch0 < 2 ^ 32
      ∧ 2 ^ 64 ≤ ((priced 0x7FFFFFFF 0xFFFFFFFF00000001 0xFFFFFFFF00000002).ts.get .core1).toNat
        + firstCost (priced 0x7FFFFFFF 0xFFFFFFFF00000001 0xFFFFFFFF00000002) .core1 .ch0 * 2 ^ 0 :=
  ⟨⟨(enters_priced _ _ _ (by decide)).1, (enters_priced _ _ _ (by decide)).2, by decide⟩,
    (enters_priced _ _ _ (by decide)).1, (enters_priced _ _ _ (by decide)).1, (enters_priced _ _ _ (by decide)).2,
    by decide, by decide⟩

theorem costs_small (v : Word) (h : v.toNat < 2 ^ 31) (ts target : Time) :
    CostsInRange (priced v ts target).cfg .core1 := fun _ => ⟨h, h, h, h⟩

theorem witness_SlicesCompleteInRange : TimeInRange (priced 0x7FFFFFFF 0 0xFFFFFFF800000000) .core1 :=
  ⟨costs_small _ (by decide) _ _, by decide⟩

/-! ### The slice -/

theorem witness_TickWithNothingToDoChangesNothing :
    (∀ n : ChanId, selectable (idle.set .core0) n = false)
      ∧ (withChannel .core0 .ch0 (busyChannel .core0 .ch0) 0).target.get .core0
        ≤ (withChannel .core0 .ch0 (busyChannel .core0 .ch0) 0).ts.get .core0 :=
  ⟨fun n => by cases n <;> rfl, by decide⟩

/-- Core 0 channel 1 waits for its own handed-off unit. -/
def handedOff : State :=
  { withChannel .core0 .ch1 (busyChannel .core0 .ch1) 100 with sets.core0.slot := ⟨true, .w16, .ch1⟩ }

theorem witness_BlockedRunChangesNothing :
    ((withChannel .core0 .ch1 (busyChannel .core0 .ch1) 0).target.get .core0
        ≤ (withChannel .core0 .ch1 (busyChannel .core0 .ch1) 0).ts.get .core0)
    ∧ (handedOff.chan .core0 .ch2).running = .idle
    ∧ ((withChannel .core0 .ch1 { busyChannel .core0 .ch1 with controlWord := 4 } 9).chan .core0 .ch1).controlWord.getLsbD
        31 = false
    ∧ selectable (handedOff.set .core0) .ch1 = true
    ∧ (∀ m : ChanId, m.toNat < ChanId.ch1.toNat → selectable (handedOff.set .core0) m = false)
    ∧ (handedOff.set .core0).slot.busy = true ∧ (handedOff.set .core0).slot.channel = .ch1 := by
  refine ⟨by decide, by decide, by decide, by decide, fun m hm => ?_, by decide, by decide⟩
  cases m <;> first | rfl | exact absurd hm (by decide)

theorem witness_StalledSlicePerformsNoUnit :
    let s := withChannel .core0 .ch1 { busyChannel .core0 .ch1 with extStall := true } 1
    Enters s .core0 .ch1 ∧ (s.chan .core0 .ch1).extStall = true ∧ (s.chan .core0 .ch1).iterationCount ≠ 0
      ∧ (s.chan .core0 .ch1).remainingCount ≠ 0 :=
  ⟨(enters_withChannel _ _ _ _ (by decide)).1, by decide, by decide, by decide⟩

/-- A channel whose next unit reads main RAM. -/
def mainRamChannel : Channel := { busyChannel .core0 .ch2 with curSrcAddr := 0x02FFFFFE }

theorem inv_mainRam : ChannelInv testConfig .core0 .ch2 mainRamChannel := by constructor <;> decide

theorem witness_MainRamUnitIsHandedOff :
    let s := withChannel .core0 .ch2 mainRamChannel 1
    Inv s ∧ Enters s .core0 .ch2 ∧ (s.chan .core0 .ch2).iterationCount ≠ 0
      ∧ (s.chan .core0 .ch2).extStall = false
      ∧ regionOf s.cfg .core0 (s.chan .core0 .ch2).curSrcAddr = s.cfg.tables.mainRamRegion.get .core0
      ∧ (s.set .core0).slot.busy = false :=
  ⟨inv_withChannel _ inv_mainRam, (enters_withChannel _ _ _ _ (by decide)).1, by decide, by decide, by decide, by decide⟩

/-- Channel 2 needs main RAM while channel 3 holds the slot. -/
def slotHeld : State :=
  { (withChannel .core0 .ch2 mainRamChannel 1).putChan .core0 .ch3 (busyChannel .core0 .ch3) with
    sets.core0.slot := ⟨true, .w16, .ch3⟩ }

theorem witness_MainRamUnitWaitsForTheSlot :
    Inv slotHeld ∧ Enters slotHeld .core0 .ch2 ∧ (slotHeld.chan .core0 .ch2).iterationCount ≠ 0
      ∧ (slotHeld.chan .core0 .ch2).extStall = false
      ∧ touchesMainRam slotHeld.cfg .core0 (slotHeld.chan .core0 .ch2).curSrcAddr (slotHeld.chan .core0 .ch2).curDstAddr
        = true
      ∧ (slotHeld.set .core0).slot.busy = true := by
  refine ⟨⟨fun c => ?_, fun c => by cases c <;> rfl, fun c => by cases c <;> rfl⟩,
    ⟨by decide, fun m hm => ?_, by decide, by decide⟩, by decide, by decide, by decide, by decide⟩
  · cases c
    · refine ⟨fun n => ?_, by decide, rfl, fun p hp => nomatch hp⟩
      cases n
      · exact channelInv_reset _ _
      · exact channelInv_reset _ _
      · exact inv_mainRam
      · exact channelInv_busy _ _
    · exact setInv_reset _
  · cases m <;> first | rfl | exact absurd hm (by decide)

/-- Core 0 channel 1 in the middle of its transfer, under a given budget and counts. -/
def oneUnit (budget : Time) (remaining iteration : Word) (running : Marker) : State :=
  withChannel .core0 .ch1
    { busyChannel .core0 .ch1 with remainingCount := remaining, iterationCount := iteration, running := running } budget

/-- A budget that the first unit's three cycles just reach. -/
theorem witness_TickPerformsOneUnit :
    let s := oneUnit 3 4 4 .justStarted
    Inv s ∧ Enters s .core0 .ch1 ∧ UnitDue s .core0 .ch1 ∧ widthOf (s.chan .core0 .ch1).controlWord = .w16
      ∧ (s.chan .core0 .ch1).curSrcAddr = 0x03000000 ∧ (s.chan .core0 .ch1).curDstAddr = 0x03004000
      ∧ PlainUnit s 0x03000000 0x03004000 .w16 ∧ firstCost s .core0 .ch1 < 2 ^ 32
      ∧ (s.ts.get .core0).toNat + firstCost s .core0 .ch1 * 2 ^ (s.cfg.costShift.get .core0).val < 2 ^ 64
      ∧ (s.target.get .core0).toNat
        ≤ (s.ts.get .core0).toNat + firstCost s .core0 .ch1 * 2 ^ (s.cfg.costShift.get .core0).val
      ∧ (s.chan .core0 .ch1).iterationCount ≠ 1 := by
  refine ⟨inv_withChannel _ (by constructor <;> decide), (enters_withChannel _ _ _ _ (by decide)).1,
    ⟨by decide, by decide, by decide⟩, by decide, by decide, by decide, ?_, by decide, by decide, by decide, by decide⟩
  unfold PlainUnit
  decide

/-- A unit whose destination is the SAD register of channel 2, at its upper half. -/
def windowUnit : State :=
  withChannel .core0 .ch1 { busyChannel .core0 .ch1 with
    remainingCount := 4, iterationCount := 4, running := .justStarted, curDstAddr := 0x040000CA } 2

theorem witness_TickPerformsOneUnit_window :
    Inv windowUnit ∧ Enters windowUnit .core0 .ch1 ∧ UnitDue windowUnit .core0 .ch1
      ∧ widthOf (windowUnit.chan .core0 .ch1).controlWord = .w16
      ∧ (windowUnit.chan .core0 .ch1).curSrcAddr = 0x03000000 ∧ (windowUnit.chan .core0 .ch1).curDstAddr = 0x040000CA
      ∧ WindowUnit windowUnit 0x03000000 0x040000CA .w16 ∧ firstCost windowUnit .core0 .ch1 < 2 ^ 32
      ∧ (windowUnit.ts.get .core0).toNat
          + firstCost windowUnit .core0 .ch1 * 2 ^ (windowUnit.cfg.costShift.get .core0).val < 2 ^ 64
      ∧ (windowUnit.target.get .core0).toNat ≤ (windowUnit.ts.get .core0).toNat
          + firstCost windowUnit .core0 .ch1 * 2 ^ (windowUnit.cfg.costShift.get .core0).val
      ∧ (windowUnit.chan .core0 .ch1).iterationCount ≠ 1 := by
  refine ⟨inv_withChannel _ (by constructor <;> decide), (enters_withChannel _ _ _ _ (by decide)).1,
    ⟨by decide, by decide, by decide⟩, by decide, by decide, by decide, ?_, by decide, by decide, by decide, by decide⟩
  unfold WindowUnit
  decide

theorem witness_UnitAdvancesAddressesAndCounts :
    let s := oneUnit 3 4 4 .justStarted
    (s.chan .core0 .ch1).running ≠ .idle
      ∧ performUnit .core0 .ch1 3 s = .ok (s.unitDone .core0 .ch1 3) :=
  ⟨by decide, performUnit_ok.2 ⟨by decide, by decide, rfl⟩⟩

theorem witness_SliceBoundaryResumesTheCpu :
    let s := oneUnit 3 1 0 .continuing
    Inv s ∧ Enters s .core0 .ch1 ∧ OthersQuiet s .core0 .ch1 ∧ (s.chan .core0 .ch1).iterationCount = 0
      ∧ (s.chan .core0 .ch1).remainingCount ≠ 0 :=
  ⟨inv_withChannel _ (by constructor <;> decide), (enters_withChannel _ _ _ _ (by decide)).1,
    (enters_withChannel _ _ _ _ (by decide)).2, by decide, by decide⟩

/-- A FIFO-paced channel at the last unit of a slice, with units of the transfer left. -/
def fifoSlice : State :=
  withChannel .core1 .ch1 { busyChannel .core1 .ch1 with
    remainingCount := 4, iterationCount := 1, running := .continuing, startMode := .gxFifo } 1

theorem witness_SliceBoundaryResumesTheCpu_lastUnit :
    Inv fifoSlice ∧ Enters fifoSlice .core1 .ch1 ∧ OthersQuiet fifoSlice .core1 .ch1 ∧ UnitDue fifoSlice .core1 .ch1
      ∧ widthOf (fifoSlice.chan .core1 .ch1).controlWord = .w16
      ∧ (fifoSlice.chan .core1 .ch1).curSrcAddr = 0x03000000 ∧ (fifoSlice.chan .core1 .ch1).curDstAddr = 0x03004000
      ∧ PlainUnit fifoSlice 0x03000000 0x03004000 .w16 ∧ firstCost fifoSlice .core1 .ch1 < 2 ^ 32
      ∧ (fifoSlice.ts.get .core1).toNat
          + firstCost fifoSlice .core1 .ch1 * 2 ^ (fifoSlice.cfg.costShift.get .core1).val < 2 ^ 64
      ∧ (fifoSlice.chan .core1 .ch1).iterationCount = 1 ∧ (fifoSlice.chan .core1 .ch1).remainingCount ≠ 1 := by
  refine ⟨inv_withChannel _ (by constructor <;> decide), (enters_withChannel _ _ _ _ (by decide)).1,
    (enters_withChannel _ _ _ _ (by decide)).2, ⟨by decide, by decide, by decide⟩, by decide, by decide, by decide, ?_,
    by decide, by decide, by decide, by decide⟩
  unfold PlainUnit
  decide

/-- A transfer whose units are done and whose completion waits. -/
def spent (cw : Word) (queued : Bool) : State :=
  withChannel .core0 .ch1 { busyChannel .core0 .ch1 with
    controlWord := cw, remainingCount := 0, iterationCount := 0, running := .continuing, queued := queued } 1

/-- A queued, repeating channel re-enabled in an unimplemented mode while it ran (R159). -/
def spentUnimplemented : State :=
  withChannel .core1 .ch1 { busyChannel .core1 .ch1 with
    controlWord := 0xB2000004, startMode := .gbaSlot, remainingCount := 0, iterationCount := 0,
    running := .continuing, queued := true } 1

/-- R159: the completion of such a channel makes no Start. -/
theorem test_unimplemented_mode_never_restarts :
    ((run .core1 .ch1 spentUnimplemented).toOption.map fun t =>
      ((t.chan .core1 .ch1).running, (t.chan .core1 .ch1).inProgress, t.events))
      = some (.idle, false, [.resume .core1 2]) := by decide

/-- No restart without repeat, a restart with it, and none in an unimplemented mode. -/
theorem witness_CompletionEndsTheTransfer :
    (Inv (spent 0x80000004 true) ∧ Enters (spent 0x80000004 true) .core0 .ch1
      ∧ OthersQuiet (spent 0x80000004 true) .core0 .ch1
      ∧ ((spent 0x80000004 true).chan .core0 .ch1).iterationCount = 0
      ∧ ((spent 0x80000004 true).chan .core0 .ch1).remainingCount = 0
      ∧ ((spent 0x80000004 true).chan .core0 .ch1).controlWord.getLsbD 25 = false)
    ∧ (Inv (spent 0xC2000004 true) ∧ Enters (spent 0xC2000004 true) .core0 .ch1
      ∧ ((spent 0xC2000004 true).chan .core0 .ch1).iterationCount = 0
      ∧ ((spent 0xC2000004 true).chan .core0 .ch1).remainingCount = 0
      ∧ ((spent 0xC2000004 true).chan .core0 .ch1).queued = true
      ∧ ((spent 0xC2000004 true).chan .core0 .ch1).controlWord.getLsbD 25 = true
      ∧ ((spent 0xC2000004 true).chan .core0 .ch1).startMode ∉ (spent 0xC2000004 true).cfg.unimplementedModes)
    ∧ Inv spentUnimplemented ∧ Enters spentUnimplemented .core1 .ch1 ∧ OthersQuiet spentUnimplemented .core1 .ch1
      ∧ (spentUnimplemented.chan .core1 .ch1).queued = true
      ∧ (spentUnimplemented.chan .core1 .ch1).controlWord.getLsbD 25 = true
      ∧ (spentUnimplemented.chan .core1 .ch1).startMode ∈ spentUnimplemented.cfg.unimplementedModes :=
  ⟨⟨inv_withChannel _ (by constructor <;> decide), (enters_withChannel _ _ _ _ (by decide)).1,
      (enters_withChannel _ _ _ _ (by decide)).2, by decide, by decide, by decide⟩,
    ⟨inv_withChannel _ (by constructor <;> decide), (enters_withChannel _ _ _ _ (by decide)).1,
      by decide, by decide, by decide, by decide, by decide⟩,
    inv_withChannel _ (by constructor <;> decide), (enters_withChannel _ _ _ _ (by decide)).1,
    (enters_withChannel _ _ _ _ (by decide)).2, by decide, by decide, by decide⟩

theorem witness_LastUnitCompletesTheTransfer :
    let s := oneUnit 1 1 1 .continuing
    Inv s ∧ Enters s .core0 .ch1 ∧ OthersQuiet s .core0 .ch1 ∧ UnitDue s .core0 .ch1
      ∧ widthOf (s.chan .core0 .ch1).controlWord = .w16
      ∧ (s.chan .core0 .ch1).curSrcAddr = 0x03000000 ∧ (s.chan .core0 .ch1).curDstAddr = 0x03004000
      ∧ PlainUnit s 0x03000000 0x03004000 .w16 ∧ firstCost s .core0 .ch1 < 2 ^ 32
      ∧ (s.ts.get .core0).toNat + firstCost s .core0 .ch1 * 2 ^ (s.cfg.costShift.get .core0).val < 2 ^ 64
      ∧ (s.chan .core0 .ch1).remainingCount = 1 ∧ (s.chan .core0 .ch1).queued = false := by
  refine ⟨inv_withChannel _ (by constructor <;> decide), (enters_withChannel _ _ _ _ (by decide)).1,
    (enters_withChannel _ _ _ _ (by decide)).2, ⟨by decide, by decide, by decide⟩, by decide, by decide, by decide,
    ?_, by decide, by decide, by decide, by decide⟩
  unfold PlainUnit
  decide

/-- Four units up to the top of the bus space. -/
def copying : State :=
  withChannel .core0 .ch1 { busyChannel .core0 .ch1 with curSrcAddr := 0xFFFFFFF8 } 0x3000000000

theorem copying_costs : CostsInRange copying.cfg .core0 := by
  intro k
  have key : ∀ e ∈ (⟨1, 1, 1, 1⟩ : AccessCosts) :: (byTopByte 15 testCosts ⟨1, 1, 1, 1⟩).rows.map (·.value),
      e.n16.toNat < 2 ^ 31 ∧ e.s16.toNat < 2 ^ 31 ∧ e.n32.toNat < 2 ^ 31 ∧ e.s32.toNat < 2 ^ 31 := by decide
  exact key _ (List.mem_cons.2 (tableRowsGet_mem _ _ k))

theorem witness_TransferCopiesMemory :
    Inv copying ∧ Enters copying .core0 .ch1 ∧ OthersQuiet copying .core0 .ch1 ∧ CostsInRange copying.cfg .core0
      ∧ copying.busReplies = [] ∧ widthOf (copying.chan .core0 .ch1).controlWord = .w16
      ∧ (copying.chan .core0 .ch1).srcInc = .up ∧ (copying.chan .core0 .ch1).dstInc = .up
      ∧ (copying.chan .core0 .ch1).extStall = false ∧ (copying.chan .core0 .ch1).queued = false
      ∧ (copying.chan .core0 .ch1).curSrcAddr.toNat = 0xFFFFFFF8
      ∧ (copying.chan .core0 .ch1).curDstAddr.toNat = 0x03004000
      ∧ (copying.chan .core0 .ch1).iterationCount.toNat = 4 ∧ (copying.chan .core0 .ch1).remainingCount.toNat = 4
      ∧ 0xFFFFFFF8 + 4 * UnitWidth.w16.bytes ≤ 2 ^ 32
      ∧ 0x03004000 + 4 * UnitWidth.w16.bytes ≤ 0xFFFFFFF8
      ∧ (∀ j : Nat, j < 4 → windowSlot copying.cfg (BitVec.ofNat 32 (0xFFFFFFF8 + j * UnitWidth.w16.bytes)) = none
        ∧ windowSlot copying.cfg (BitVec.ofNat 32 (0x03004000 + j * UnitWidth.w16.bytes)) = none
        ∧ touchesMainRam copying.cfg .core0 (BitVec.ofNat 32 (0xFFFFFFF8 + j * UnitWidth.w16.bytes))
            (BitVec.ofNat 32 (0x03004000 + j * UnitWidth.w16.bytes)) = false)
      ∧ (copying.ts.get .core0).toNat + 4 * 2 ^ 35 < (copying.target.get .core0).toNat :=
  ⟨inv_withChannel _ (by constructor <;> decide), (enters_withChannel _ _ _ _ (by decide)).1,
    (enters_withChannel _ _ _ _ (by decide)).2, copying_costs, rfl, by decide, by decide, by decide, by decide,
    by decide, by decide, by decide, by decide, by decide, by decide, by decide, by decide, by decide⟩

theorem witness_RunPerformsAtMostIterationCountUnits :
    run .core0 .ch1 (oneUnit 0 4 4 .justStarted) = .ok (oneUnit 0 4 4 .justStarted)
      ∧ ∃ t, run .core0 .ch1 (oneUnit 3 4 4 .justStarted) = .ok t := ⟨rfl, _, rfl⟩

/-! ### Main RAM and the host ports -/

theorem witness_MramDoneWithEmptySlotDoesNothing : (idle.set .core0).slot.busy = false := by decide

theorem witness_MramDoneCommitsTheUnit :
    (handedOff.set .core0).slot = ⟨true, .w16, .ch1⟩
      ∧ ({ handedOff with target := ⟨0, 0⟩ } : State).target.get .core0
        ≤ ({ handedOff with target := ⟨0, 0⟩ } : State).ts.get .core0 := by decide

theorem witness_RestoreInvertsSave :
    let s := withChannel .core0 .ch2 (busyChannel .core0 .ch2) 1
    Inv s ∧ idle.cfg = s.cfg
      ∧ ∀ (c : CoreId) (n : ChanId), (idle.chan c n).cpuCore = c ∧ (idle.chan c n).channelNumber = n :=
  ⟨inv_withChannel _ (channelInv_busy _ _), rfl, fun c n => by cases c <;> cases n <;> exact ⟨rfl, rfl⟩⟩

/-- A vector of the wrong length, which is refused, and another state's own vector, which is loaded. -/
theorem witness_RestoreLoadsOrRefuses :
    let s := withChannel .core0 .ch2 (busyChannel .core0 .ch2) 1
    Inv s ∧ (List.replicate 173 (0 : Word)).length ≠ 8 * 18 + 2 * (5 + 2 * (banks s.cfg).length)
      ∧ exec (.restore (saveVector s.cfg armed.sets)) s = .next { s with sets := armed.sets } := by
  refine ⟨inv_withChannel _ (channelInv_busy _ _), ?_, by rfl⟩
  rw [List.length_replicate]
  decide

theorem witness_SaveLaysOutTheState : (banks idle.cfg)[4]? = some 4 := by decide

/-! ### The whole machine -/

theorem witness_EveryStepKeepsTheInvariant :
    let s : State := { oneUnit 3 4 4 .justStarted with inbox := [.command [0x00000003]] }
    Inv s ∧ ∃ t, step s = .next t := by
  have h : Inv (oneUnit 3 4 4 .justStarted) := inv_withChannel _ (by constructor <;> decide)
  exact ⟨⟨h.sets, h.waiting, h.memory⟩, _, rfl⟩

theorem witness_StepKeepsConfigurationAndIdentity :
    (∃ t, step { oneUnit 3 4 4 .justStarted with inbox := [.command [0x00000006]] } = .next t)
      ∧ ((oneUnit 3 4 4 .justStarted).chan .core0 .ch1).cpuCore = .core0
      ∧ ((oneUnit 3 4 4 .justStarted).chan .core0 .ch1).channelNumber = .ch1 := ⟨⟨_, rfl⟩, rfl, rfl⟩

theorem witness_OnlySlicesSpendTime :
    (∃ t, exec (.tick .core0) (oneUnit 3 4 4 .justStarted) = .next t)
      ∧ (∃ t, exec .save idle = .next t) ∧ ∀ c : CoreId, Instr.save ≠ .tick c ∧ Instr.save ≠ .mramDone c :=
  ⟨⟨_, rfl⟩, ⟨_, rfl⟩, fun _ => ⟨nofun, nofun⟩⟩

theorem witness_OnlySlicesRaiseInterrupts :
    (∃ t, exec (.trig .core1 .cart) armed = .next t)
      ∧ ∀ c : CoreId, Instr.trig .core1 .cart ≠ .tick c ∧ Instr.trig .core1 .cart ≠ .mramDone c :=
  ⟨⟨_, rfl⟩, fun _ => ⟨nofun, nofun⟩⟩

theorem witness_OnlyRegisterWritesChangeBases :
    (∃ t, exec (.wrDad .core0 .ch1 0xF 1) idle = .next t) ∧ Instr.wrDad .core0 .ch1 0xF 1 ≠ .resetBlock
      ∧ (∀ vec : List Word, Instr.wrDad .core0 .ch1 0xF 1 ≠ .restore vec)
      ∧ ∀ (be : BitVec 4) (d : Word), Instr.wrDad .core0 .ch1 0xF 1 ≠ .wrSad .core0 .ch1 be d :=
  ⟨⟨_, rfl⟩, nofun, fun _ => nofun, fun _ _ => nofun⟩

theorem witness_OtherCoreIsUntouched :
    CoreId.core1 ≠ .core0 ∧ coreOf (.tick .core0) = some .core0
      ∧ (∃ t, exec (.tick .core0) (oneUnit 3 4 4 .justStarted) = .next t)
      ∧ (∀ r ∈ (oneUnit 3 4 4 .justStarted).busReplies, ∀ e ∈ r.events, e.1 = CoreId.core0)
      ∧ (coreOf (.rdCnt .core0 .ch1) = some .core0 ∧ ∃ t, exec (.rdCnt .core0 .ch1) idle = .next t)
      ∧ coreOf (.cntEnable .core0 .ch1 0x80000000) = some .core0
        ∧ ∃ t, exec (.cntEnable .core0 .ch1 0x80000000) idle = .next t :=
  ⟨by decide, rfl, ⟨_, rfl⟩, fun _ hr => (nomatch hr), ⟨rfl, _, rfl⟩, rfl, _, rfl⟩

theorem witness_UnitReadsBackAsWritten :
    Memory.wf [(0, 1), (0xFFFFFFFF, 2)] = true
      ∧ ∀ k : Nat, k < UnitWidth.w32.bytes → (0x00000001 : Word) ≠ 0xFFFFFFFD + BitVec.ofNat 32 k := by decide

end Sys2Proof.Tests
end

section
/-!
# Refused commands (30_encoding.md R172)

The refusal of a command, from the two sides of R172: the decoder answers an instruction only for a header
none of whose fields is refused, and no step takes the refusal mark away.
-/
namespace Sys2Proof

/-! ## The header of an accepted command -/

/-- A field that lies outside the bits a mask allows is zero in every word of the mask. -/
theorem bitField_eq_zero_of_masked {lo len : Nat} {w m : Word} (hw : w &&& ~~~m = 0)
    (hm : bitField lo len m = 0) : bitField lo len w = 0 := by
  have hsub : w &&& m = w := by
    apply BitVec.eq_of_getLsbD_eq
    intro i hi
    have hbit := congrArg (BitVec.getLsbD · i) hw
    simp only [BitVec.getLsbD_and, BitVec.getLsbD_not, hi, decide_true, Bool.true_and] at hbit
    cases hwi : w.getLsbD i <;> simp_all
  calc bitField lo len w
      = bitField lo len (w &&& m) := by rw [hsub]
    _ = bitField lo len w &&& bitField lo len m := BitVec.extractLsb'_and
    _ = 0 := by rw [hm]; exact BitVec.and_zero

/-! The ops that use no core, channel, register, byte-enable or event field (R171). -/

theorem usedBits_core : ∀ op : BitVec 4, 6 ≤ op.toNat → bitField 4 1 (usedBits op.toNat) = 0 := by decide

theorem usedBits_chan :
    ∀ op : BitVec 4, op.toNat ∉ [0, 1, 5] → bitField 5 2 (usedBits op.toNat) = 0 := by decide

theorem usedBits_reg : ∀ op : BitVec 4, 2 ≤ op.toNat → bitField 7 2 (usedBits op.toNat) = 0 := by decide

theorem usedBits_enables : ∀ op : BitVec 4, op.toNat ≠ 0 → bitField 9 4 (usedBits op.toNat) = 0 := by decide

theorem usedBits_event : ∀ op : BitVec 4, op.toNat ≠ 2 → bitField 13 4 (usedBits op.toNat) = 0 := by decide

theorem regOfBits_reserved : regOfBits 3 = none := rfl

theorem eventOfCode_reserved {k : Nat} (h : 9 ≤ k) : eventOfCode k = none := by
  obtain ⟨j, rfl⟩ := Nat.exists_eq_add_of_le' h
  rfl

/-- WR and RD have no reserved register. -/
theorem decodeOp_reg_ne_reserved {h : Word} {data : List Word} {i : Instr} (hd : decodeOp h data = .ok i)
    (hop : (bitField 0 4 h).toNat < 2) : bitField 7 2 h ≠ 3 := by
  intro hreg
  have hcases : (bitField 0 4 h).toNat = 0 ∨ (bitField 0 4 h).toNat = 1 := by omega
  unfold decodeOp at hd
  obtain hop | hop := hcases <;> simp only [hop, hreg, regOfBits_reserved, reduceCtorEq] at hd

/-- TRIG has no reserved event. -/
theorem decodeOp_event_lt {h : Word} {data : List Word} {i : Instr} (hd : decodeOp h data = .ok i)
    (hop : (bitField 0 4 h).toNat = 2) : (bitField 13 4 h).toNat < 9 := by
  by_contra hev
  unfold decodeOp at hd
  simp only [hop, eventOfCode_reserved (Nat.le_of_not_lt hev), reduceCtorEq] at hd

/-- The order of R172's checks on a header. -/
theorem decodeCommand_cons (h : Word) (data : List Word) :
    decodeCommand (h :: data) =
      if bitField 17 15 h ≠ 0 then .error .highBits
      else if 9 ≤ (bitField 0 4 h).toNat then .error .reservedOp
      else if h &&& ~~~(usedBits (bitField 0 4 h).toNat) ≠ 0 then .error .unusedField
      else decodeOp h data := rfl

/-- What the decoder has checked of a header before it reads the op's fields (R170 to R172). -/
theorem header_of_decodeCommand {h : Word} {data : List Word} {i : Instr}
    (hd : decodeCommand (h :: data) = .ok i) :
    bitField 17 15 h = 0 ∧ (bitField 0 4 h).toNat < 9
      ∧ h &&& ~~~(usedBits (bitField 0 4 h).toNat) = 0 ∧ decodeOp h data = .ok i := by
  rw [decodeCommand_cons] at hd
  split_ifs at hd with hhigh hop hused
  exact ⟨not_not.1 hhigh, Nat.lt_of_not_le hop, not_not.1 hused, hd⟩

/-- The decoder accepts no header that R172 refuses. -/
theorem not_refusedHeader_of_decode {h : Word} {data : List Word} {i : Instr}
    (hd : decodeCommand (h :: data) = .ok i) : ¬ Machine.RefusedHeader h := by
  obtain ⟨hhigh, hop, hused, hfields⟩ := header_of_decodeCommand hd
  rintro (hres | hbits | hreg | ⟨htrig, hev⟩ | ⟨hcore, hu⟩ | ⟨hchan, hu⟩ | ⟨hreg, hu⟩ | ⟨hbe, hu⟩ | ⟨hev, hu⟩)
  · omega
  · exact hbits hhigh
  · by_cases hu : 2 ≤ (bitField 0 4 h).toNat
    · have hzero := bitField_eq_zero_of_masked hused (usedBits_reg _ hu)
      exact absurd (hreg.symm.trans hzero) (by decide)
    · exact decodeOp_reg_ne_reserved hfields (Nat.lt_of_not_le hu) hreg
  · exact absurd (decodeOp_event_lt hfields htrig) (Nat.not_lt.2 hev)
  · exact hcore (bitField_eq_zero_of_masked hused (usedBits_core _ hu))
  · exact hchan (bitField_eq_zero_of_masked hused (usedBits_chan _ hu))
  · exact hreg (bitField_eq_zero_of_masked hused (usedBits_reg _ hu))
  · exact hbe (bitField_eq_zero_of_masked hused (usedBits_enables _ hu))
  · exact hev (bitField_eq_zero_of_masked hused (usedBits_event _ hu))

/-! ## The errors of a command are R172's -/

/-- A command's fields are refused for a reserved register (WR, RD), a reserved event (TRIG), the number of words
(every op but RESTORE, log entry 12) or a reserved op. -/
theorem decodeOp_error_isRefused {h : Word} {data : List Word} {e : DecodeError}
    (hd : decodeOp h data = .error e) : e.isRefusedCommand = true := by
  unfold decodeOp at hd
  split at hd
  case h_9 => cases hd
  case h_10 => cases hd; rfl
  case h_1 | h_2 | h_3 =>
    split at hd
    · cases hd; rfl
    · cases hd
    · cases hd; rfl
  all_goals
    split at hd
    · cases hd
    · cases hd; rfl

theorem decodeCommand_error_isRefused {words : List Word} {e : DecodeError}
    (hd : decodeCommand words = .error e) : e.isRefusedCommand = true := by
  cases words with
  | nil => cases hd; rfl
  | cons h data =>
    rw [decodeCommand_cons] at hd
    split_ifs at hd
    case neg => exact decodeOp_error_isRefused hd
    all_goals cases hd; rfl

namespace Machine

/-! ## The step of a refused command -/

/-- A command the decoder refuses sets the refusal mark and is taken from the inbox (R172). -/
theorem step_command_error {s : State} {words : List Word} {rest : List Input} {e : DecodeError}
    (hdel : s.delivered = []) (hin : s.inbox = .command words :: rest) (hd : decodeCommand words = .error e) :
    step s = .next { s with inbox := rest, refusedCommand := true } := by
  have hfetch : fetchInput s = some (.command words, { s with inbox := rest }) := by
    simp [fetchInput, hdel, hin]
  simp [step, hfetch, decodeInput, hd, applyOther, decodeCommand_error_isRefused hd, State.refuse]

/-! ## The mark stays -/

theorem fetchInput_refusedCommand {s s1 : State} {x : Input} (h : fetchInput s = some (x, s1)) :
    s1.refusedCommand = s.refusedCommand := by
  unfold fetchInput at h
  split at h
  · cases h; rfl
  · split at h
    · cases h; rfl
    · cases h

theorem applyOther_keeps_mark (e : DecodeError) (x : Input) {s : State} (hm : s.refusedCommand = true) :
    (applyOther e x s).refusedCommand = true := by
  cases x with
  | command words =>
    by_cases he : e.isRefusedCommand = true
    · simp [applyOther, he]
    · simpa [applyOther, he] using hm
  | _ => exact hm

theorem outcome_eq_next {r : Except Fault State} {t : State} : outcome r = .next t ↔ r = .ok t := by
  cases r <;> simp [outcome]

theorem execTick_refusedCommand {c : CoreId} {s t : State} (h : execTick c s = .next t) :
    t.refusedCommand = s.refusedCommand :=
  (tick_frame (outcome_eq_next.1 h)).refusedCommand

theorem execMramDone_refusedCommand {c : CoreId} {s t : State} (h : execMramDone c s = .next t) :
    t.refusedCommand = s.refusedCommand := by
  unfold execMramDone at h
  split at h
  · exact (tick_frame (outcome_eq_next.1 h)).refusedCommand
  · cases h; rfl

theorem execRestore_keeps_mark {vec : List Word} {s t : State} (h : execRestore vec s = .next t)
    (hm : s.refusedCommand = true) : t.refusedCommand = true := by
  unfold execRestore at h
  split at h
  · cases h; exact hm
  · cases h; exact refuse_refusedCommand s

/-- No instruction takes the refusal mark away. Only RESTORE writes it, and only to set it; the slices of TICK and
MRAM_DONE are framed by `tick_frame`; every other instruction answers a state with other fields replaced. -/
theorem exec_keeps_mark {i : Instr} {s t : State} (h : exec i s = .next t) (hm : s.refusedCommand = true) :
    t.refusedCommand = true := by
  cases i with
  | tick c => exact (execTick_refusedCommand h).trans hm
  | mramDone c => exact (execMramDone_refusedCommand h).trans hm
  | restore vec => exact execRestore_keeps_mark h hm
  | _ => cases h; exact hm

theorem step_keeps_mark {s t : State} (h : step s = .next t) (hm : s.refusedCommand = true) :
    t.refusedCommand = true := by
  unfold step at h
  split at h
  next => cases h; exact hm
  next x s1 hfetch =>
    have hm1 : s1.refusedCommand = true := (fetchInput_refusedCommand hfetch).trans hm
    split at h
    next i hd => exact exec_keeps_mark h hm1
    next e hd => cases h; exact applyOther_keeps_mark e x hm1

end Machine

/-- Settles O3: a header R172 refuses decodes to no instruction, so the decoder answers one of R172's errors; and
no step takes the mark away. -/
theorem refusedCommandSetsOnlyTheMark : Obligations.RefusedCommandSetsOnlyTheMark := by
  refine ⟨fun s h data rest hrefused hdel hin => ?_, fun s t => Machine.step_keeps_mark⟩
  cases hd : decodeCommand (h :: data) with
  | ok i => exact absurd hrefused (not_refusedHeader_of_decode hd)
  | error e => exact Machine.step_command_error hdel hin hd

end Sys2Proof
end

section
/-!
# The register interface (40_register_interface.md R201 to R213)

What a register write does, from the channel set up to the step. R204 is taken apart once, into a lemma per arm of
WriteCnt; every statement about a CNT write is read off these and the equation of `exec` for WR CNT.
-/
namespace Sys2Proof
namespace Machine

/-! ## The increments, by code -/

/-- R151. -/
theorem dstIncOf_eq (w : Word) :
    dstIncOf w = if bitField 21 2 w = 1 then .down else if bitField 21 2 w = 2 then .fixed else .up := by
  unfold dstIncOf dstCtl
  generalize bitField 21 2 w = code
  revert code
  decide

/-- R152. -/
theorem srcIncOf_eq (w : Word) :
    srcIncOf w = if bitField 23 2 w = 1 then .down else if bitField 23 2 w = 2 then .fixed else .up := by
  unfold srcIncOf srcCtl
  generalize bitField 23 2 w = code
  revert code
  decide

/-! ## States with one channel or one set replaced -/

section
variable (s : State) (c : CoreId) (n : ChanId) (ch : Channel) (S : ChannelSet)

@[simp] theorem putChan_set_same : (s.putChan c n ch).set c = (s.set c).setChan n ch := PerCore.get_set_same _ _ _

@[simp] theorem putSet_putChan_same : (s.putChan c n ch).putSet c S = s.putSet c S := by
  simp [State.putSet, State.putChan]

@[simp] theorem putSet_set : s.putSet c (s.set c) = s := by
  simp [State.putSet, State.set]

/-- An operation of one set, with the calls it makes. -/
theorem onSet_eq_putSet (f : ChannelSet → ChannelSet × List Event) :
    s.onSet c f = { s.putSet c (f (s.set c)).1 with events := s.events ++ (f (s.set c)).2 } := rfl

end

/-! ## WriteCnt, arm by arm (R204) -/

section
variable {cfg : Config} {c : CoreId} {n : ChanId} {val : Word} {S : ChannelSet}

/-- R204's test: the write takes the enable bit from 0 to 1. -/
theorem enableTest_iff (old val : Word) :
    (!enableBit old && enableBit val) = true ↔ old.getLsbD 31 = false ∧ val.getLsbD 31 = true := by
  rw [enableBit_eq, enableBit_eq, Bool.and_eq_true_iff, Bool.not_eq_true']

/-- R211, R212: without a 0-to-1 enable the word is stored. -/
theorem writeCnt_of_no_edge (h : ¬ ((S.chan n).controlWord.getLsbD 31 = false ∧ val.getLsbD 31 = true)) :
    writeCnt cfg c n val S = (S.setChan n { S.chan n with controlWord := val }, []) :=
  if_neg (mt (enableTest_iff _ _).1 h)

/-- A 0-to-1 enable latches, and the mode it latched decides what follows. -/
theorem writeCnt_of_edge (hold : (S.chan n).controlWord.getLsbD 31 = false) (hval : val.getLsbD 31 = true) :
    writeCnt cfg c n val S =
      if decodeStart (cfg.variant.get c) val ∈ cfg.unimplementedModes then
        (S.setChan n (Latched cfg c val (S.chan n)), [unimplementedLog c n (Latched cfg c val (S.chan n))])
      else if decodeStart (cfg.variant.get c) val = .immediate then
        startSet cfg c n (S.setChan n (Latched cfg c val (S.chan n)))
      else if decodeStart (cfg.variant.get c) val = .gxFifo then
        (S.setChan n (Latched cfg c val (S.chan n)), [.notifyFifo c])
      else (S.setChan n (Latched cfg c val (S.chan n)), []) :=
  if_pos ((enableTest_iff _ _).2 ⟨hold, hval⟩)

/-- R210: a mode that is not implemented is latched and logged. -/
theorem writeCnt_unimplemented (hold : (S.chan n).controlWord.getLsbD 31 = false) (hval : val.getLsbD 31 = true)
    (hmode : decodeStart (cfg.variant.get c) val ∈ cfg.unimplementedModes) :
    writeCnt cfg c n val S = (S.setChan n (Latched cfg c val (S.chan n)),
      [unimplementedLog c n (Latched cfg c val (S.chan n))]) := by
  rw [writeCnt_of_edge hold hval, if_pos hmode]

/-- R208: IMMEDIATE mode Starts the channel, after the latches. -/
theorem writeCnt_immediate (hold : (S.chan n).controlWord.getLsbD 31 = false) (hval : val.getLsbD 31 = true)
    (hmode : decodeStart (cfg.variant.get c) val = .immediate)
    (himpl : StartEvent.immediate ∉ cfg.unimplementedModes) :
    writeCnt cfg c n val S = startSet cfg c n (S.setChan n (Latched cfg c val (S.chan n))) := by
  rw [writeCnt_of_edge hold hval, hmode, if_neg himpl, if_pos rfl]

/-- R209: every other mode waits for its event; GX_FIFO notifies the FIFO. -/
theorem writeCnt_deferred (hold : (S.chan n).controlWord.getLsbD 31 = false) (hval : val.getLsbD 31 = true)
    (hmode : decodeStart (cfg.variant.get c) val ≠ .immediate)
    (himpl : decodeStart (cfg.variant.get c) val ∉ cfg.unimplementedModes) :
    writeCnt cfg c n val S = (S.setChan n (Latched cfg c val (S.chan n)),
      if decodeStart (cfg.variant.get c) val = .gxFifo then [.notifyFifo c] else []) := by
  rw [writeCnt_of_edge hold hval, if_neg himpl, if_neg hmode]
  split <;> rfl

end

/-! ## What a Start leaves of its own channel -/

/-- The channel `after` is `before` but for the fields of the transfer: the counts, the marker, the flags of R41 and
R42 and the FIFO pattern. The registers, the latches, the working addresses and all else are the same. -/
def SameButTransfer (before after : Channel) : Prop :=
  after = { before with
    remainingCount := after.remainingCount
    iterationCount := after.iterationCount
    running := after.running
    inProgress := after.inProgress
    queued := after.queued
    isGpuFifoTransfer := after.isGpuFifoTransfer }

theorem SameButTransfer.refl (ch : Channel) : SameButTransfer ch ch := rfl

/-- The reload of R236 finds the working destination address at its base already, right after the latches. -/
theorem startSet_chan_self {cfg : Config} {c : CoreId} {n : ChanId} {S : ChannelSet}
    (hdst : (S.chan n).curDstAddr = (S.chan n).dstAddr) :
    SameButTransfer (S.chan n) ((startSet cfg c n S).1.chan n) := by
  by_cases hr : (S.chan n).running = .idle
  · rw [startSet_idle _ _ _ _ hr]
    show SameButTransfer _ ((startIdle cfg c n S).chan n)
    rw [startIdle_chan_same]
    simp only [SameButTransfer, beginTransfer, hdst, ite_self]
  · rw [startSet_running _ _ _ _ hr]
    show SameButTransfer _ ((startRunning cfg n S).chan n)
    rw [startRunning_chan]
    split
    · rfl
    · exact .refl _

/-- R205 to R207: whatever a 0-to-1 enable starts, its latches stand at the end of the write. -/
theorem writeCnt_chan_of_edge {cfg : Config} {c : CoreId} {n : ChanId} {val : Word} {S : ChannelSet}
    (hold : (S.chan n).controlWord.getLsbD 31 = false) (hval : val.getLsbD 31 = true) :
    SameButTransfer (Latched cfg c val (S.chan n)) ((writeCnt cfg c n val S).1.chan n) := by
  have hlatch : (S.setChan n (Latched cfg c val (S.chan n))).chan n = Latched cfg c val (S.chan n) :=
    chan_setChan_same _ _ _
  by_cases himpl : decodeStart (cfg.variant.get c) val ∈ cfg.unimplementedModes
  · rw [writeCnt_unimplemented hold hval himpl, hlatch]
    exact .refl _
  · by_cases hmode : decodeStart (cfg.variant.get c) val = .immediate
    · rw [writeCnt_immediate hold hval hmode (hmode ▸ himpl)]
      have hstart := startSet_chan_self (cfg := cfg) (c := c) (n := n)
        (S := S.setChan n (Latched cfg c val (S.chan n))) (by rw [hlatch]; rfl)
      rwa [hlatch] at hstart
    · rw [writeCnt_deferred hold hval hmode himpl, hlatch]
      exact .refl _

/-! ## The step of a register write, and of a TRIG that nobody takes -/

theorem writeControl_eq_putSet (s : State) (c : CoreId) (n : ChanId) (val : Word) :
    s.writeControl c n val = { s.putSet c (writeCnt s.cfg c n val (s.set c)).1 with
      events := s.events ++ (writeCnt s.cfg c n val (s.set c)).2 } :=
  onSet_eq_putSet s c _

@[simp] theorem writeControl_chan_same (s : State) (c : CoreId) (n : ChanId) (val : Word) :
    (s.writeControl c n val).chan c n = (writeCnt s.cfg c n val (s.set c)).1.chan n :=
  congrArg (ChannelSet.chan · n) (onSet_set_same s c _)

/-- R203: WR CNT is WriteCnt of the merged word. -/
theorem exec_wrCnt {s : State} {c : CoreId} {n : ChanId} {be : BitVec 4} {d m : Word}
    (hm : MergedLanes (s.chan c n).controlWord be d m) :
    exec (.wrCnt c n be d) s = .next (s.writeControl c n m) := by
  rw [hm.eq]
  rfl

/-- R232, R210: a TRIG of IMMEDIATE, or of a mode that is not implemented, starts nothing. -/
theorem trigger_eq_self {s : State} {ev : StartEvent} (c : CoreId)
    (h : ev = .immediate ∨ ev ∈ s.cfg.unimplementedModes) : s.trigger c ev = s := by
  have hset : triggerSet s.cfg c ev (s.set c) = (s.set c, []) := if_pos h
  rw [State.trigger, onSet_eq_putSet, hset]
  simp only [putSet_set, List.append_nil]

end Machine

open Machine

/-- Settles O9: the merge is bit by bit that of R201, and a channel replaced is all that WR SAD does. -/
theorem wrSadMergesEnabledLanes : Obligations.WrSadMergesEnabledLanes := by
  intro s c n be d
  exact ⟨_, mergeBytes_lanes _ be d, congrArg Host.Outcome.next (onSetQuiet_eq_putSet s c _)⟩

/-- Settles O10: R202 has the merge of R201, and a channel replaced is all that WR DAD does. -/
theorem wrDadMergesEnabledLanes : Obligations.WrDadMergesEnabledLanes := by
  intro s c n be d
  exact ⟨_, mergeBytes_lanes _ be d, congrArg Host.Outcome.next (onSetQuiet_eq_putSet s c _)⟩

/-- Settles O12: at an edge the latches outlast whatever the write starts; in an enabled channel there is no edge,
so only the word is stored. -/
theorem enablingWriteLatches : Obligations.EnablingWriteLatches := by
  intro s c n be d m hm
  refine ⟨_, exec_wrCnt hm, ?_⟩
  rw [writeControl_chan_same]
  refine ⟨fun ⟨hold, hval⟩ => ?_, fun henabled => ?_⟩
  · rw [writeCnt_chan_of_edge (S := s.set c) hold hval]
    exact ⟨dstIncOf_eq m, srcIncOf_eq m, rfl, rfl, rfl⟩
  · have hno : ¬ (((s.set c).chan n).controlWord.getLsbD 31 = false ∧ m.getLsbD 31 = true) :=
      fun ⟨hold, _⟩ => Bool.noConfusion (hold.symm.trans henabled)
    rw [writeCnt_of_no_edge hno, chan_setChan_same]
    rfl

/-- Settles O14: the write takes R210's arm of WriteCnt, and R232 keeps the event from every channel. -/
theorem enablingWriteOfUnimplementedModeOnlyLogs : Obligations.EnablingWriteOfUnimplementedModeOnlyLogs := by
  rintro s c n be d m _ hm ⟨hold, hval⟩ rfl hmode
  refine ⟨?_, fun u hu => congrArg Host.Outcome.next (trigger_eq_self c (.inr (hu ▸ hmode)))⟩
  rw [exec_wrCnt hm, writeControl_eq_putSet, writeCnt_unimplemented hold hval hmode]
  rfl

/-- Settles O15: the write takes R208's arm of WriteCnt, which Starts the channel of the latched set. -/
theorem enablingWriteOfImmediateModeStarts : Obligations.EnablingWriteOfImmediateModeStarts := by
  rintro s c n be d m hm ⟨hold, hval⟩ hmode himpl
  dsimp only
  rw [exec_wrCnt hm, writeControl_eq_putSet, writeCnt_immediate hold hval hmode himpl, putSet_putChan_same,
    putChan_set_same]
  rfl

/-- Settles O16: RD answers the stored register in `reply` (R213). -/
theorem rdReturnsTheStoredRegister : Obligations.RdReturnsTheStoredRegister :=
  fun _ _ _ => ⟨rfl, rfl, rfl⟩

end Sys2Proof
end

section
/-!
# Start and TRIG (41_start_trigger.md R230 to R244)

What one Start does, each function that takes part in it told once in the terms of the rules: the length, the slice
cap, the FIFO pattern, the marker, the CPU's wait bit. A Start of an idle channel is then read off field by field.
-/
namespace Sys2Proof

/-- The priority order of R50 on the channels' numbers. -/
theorem ChanId.below_iff {m n : ChanId} : m.below n = true ↔ n.toNat < m.toNat := decide_eq_true_iff

namespace Machine

/-! ## The parts of a Start -/

/-- R157: a count field of zero stands for COUNT_MASK+1 units. -/
theorem effLen_toNat (cfg : Config) (c : CoreId) (n : ChanId) (cw : Word) :
    (effLen cfg c n cw).toNat =
      if cw.toNat % 2 ^ ((cfg.countBits.get c).get n).val = 0 then 2 ^ ((cfg.countBits.get c).get n).val
      else cw.toNat % 2 ^ ((cfg.countBits.get c).get n).val := by
  have hfield : countField cfg c n cw = 0 ↔ cw.toNat % 2 ^ ((cfg.countBits.get c).get n).val = 0 := by
    rw [← countField_toNat]
    exact BitVec.toNat_inj.symm
  unfold effLen
  by_cases hzero : countField cfg c n cw = 0
  · rw [if_neg (not_not.2 hzero), if_pos (hfield.1 hzero), countMask_succ]
  · rw [if_pos hzero, if_neg (mt hfield.2 hzero), countField_toNat]

/-- R235: the cap of R11 binds in FIFO mode only. -/
theorem sliceCap_toNat (mode : StartEvent) (r : Word) :
    (sliceCap mode r).toNat = if mode = .gxFifo then min r.toNat 112 else r.toNat := by
  have hcap : fifoSliceCap < r ↔ 112 < r.toNat := BitVec.lt_def
  unfold sliceCap
  by_cases hmode : mode = .gxFifo
  · by_cases hlong : fifoSliceCap < r
    · rw [if_pos ⟨hmode, hlong⟩, if_pos hmode, Nat.min_eq_right (hcap.1 hlong).le]
      rfl
    · rw [if_neg (hlong ·.2), if_pos hmode, Nat.min_eq_left (Nat.le_of_not_lt (mt hcap.2 hlong))]
  · rw [if_neg (hmode ·.1), if_neg hmode]

/-- R236: only a new transfer reloads, and only in increment-reload mode. -/
theorem beginTransfer_curDstAddr (cfg : Config) (c : CoreId) (n : ChanId) (ch : Channel) :
    (beginTransfer cfg c n ch).curDstAddr =
      if ch.inProgress = false ∧ bitField 21 2 ch.controlWord = 3 then ch.dstAddr else ch.curDstAddr := by
  simp only [beginTransfer, dstCtl, Bool.and_eq_true_iff, Bool.not_eq_true', beq_iff_eq]

/-- The top byte of an address is its page. -/
theorem bitField_page_eq_iff (a : Word) (p : BitVec 8) : bitField 24 8 a = p ↔ a.toNat / 2 ^ 24 = p.toNat := by
  have hpage : (bitField 24 8 a).toNat = a.toNat / 2 ^ 24 := by
    rw [bitField, BitVec.extractLsb'_toNat, Nat.shiftRight_eq_div_pow]
    omega
  rw [← BitVec.toNat_inj, hpage]

/-- R238. -/
theorem gxFifoPattern_iff {cfg : Config} {c : CoreId} {src dst : Word} {inc : Inc} :
    gxFifoPattern cfg c src dst inc = true ↔
      c = cfg.gxFifoCore ∧ src.toNat / 2 ^ 24 = cfg.gxFifoSrcPage.toNat ∧ dst = cfg.gxFifoDstAddr ∧ inc = .fixed := by
  simp only [gxFifoPattern, Bool.and_eq_true_iff, decide_eq_true_iff, beq_iff_eq, bitField_page_eq_iff, and_assoc]

/-- R239. -/
theorem initialMarker_eq (cfg : Config) (c : CoreId) (share : List (Nat × ShareEntry)) (ch : Channel) :
    initialMarker cfg c share ch =
      if (shareAt share (bankAt cfg c ch.curSrcAddr)).valid = true
          ∧ (shareAt share (bankAt cfg c ch.curDstAddr)).valid = true ∧ ch.srcInc = .up ∧ ch.dstInc = .up then
        .continuing else .justStarted := by
  simp only [initialMarker, Bool.and_eq_true_iff, decide_eq_true_iff, and_assoc]

/-- R52. -/
theorem chanMask_eq_shift (n : ChanId) : chanMask n = 1 <<< n.toNat := by
  cases n <;> rfl

/-- Of the four wait bits a channel's mask holds its own. -/
theorem chanMask_bit (n : ChanId) {i : Nat} (hi : i < 4) : (chanMask n).getLsbD i = decide (i = n.toNat) := by
  have hall : ∀ j : Fin 4, (chanMask n).getLsbD j.val = decide (j.val = n.toNat) := by cases n <;> decide
  exact hall ⟨i, hi⟩

/-! ## A Start of an idle channel, field by field (R233) -/

section
variable {cfg : Config} {c : CoreId} {n : ChanId} {S : ChannelSet}

/-- The channel that Starts. -/
theorem startSet_chan_same_of_idle (h : (S.chan n).running = .idle) : (startSet cfg c n S).1.chan n =
    { beginTransfer cfg c n (S.chan n) with
      running := initialMarker cfg c (shareInvalidate n S.share) (beginTransfer cfg c n (S.chan n))
      inProgress := true } := by
  rw [startSet_idle _ _ _ _ h]
  exact startIdle_chan_same cfg c n S

/-- Another channel of the core. -/
theorem startSet_chan_other_of_idle (h : (S.chan n).running = .idle) {m : ChanId} (hm : m ≠ n) :
    (startSet cfg c n S).1.chan m = afterOtherStart n m S.executing (S.chan m) := by
  rw [startSet_idle _ _ _ _ h]
  exact startIdle_chan_other cfg c n S hm

theorem startSet_share_of_idle (h : (S.chan n).running = .idle) :
    (startSet cfg c n S).1.share = shareInvalidate n S.share := by
  rw [startSet_idle _ _ _ _ h]
  exact startIdle_share cfg c n S

theorem startSet_stallBits_of_idle (h : (S.chan n).running = .idle) :
    (startSet cfg c n S).1.stallBits = S.stallBits ||| chanMask n := by
  rw [startSet_idle _ _ _ _ h]
  exact startIdle_stallBits cfg c n S

theorem startSet_calls_of_idle (h : (S.chan n).running = .idle) :
    (startSet cfg c n S).2 = [.stall c (1 <<< n.toNat)] := by
  rw [startSet_idle _ _ _ _ h, chanMask_eq_shift]

end

/-- R240, R241: the other channels' part of a Start, with the priorities as numbers. -/
theorem afterOtherStart_eq (n m : ChanId) (executing : Option ChanId) (ch : Channel) :
    afterOtherStart n m executing ch =
      { ch with
        running := if n.toNat < m.toNat ∧ ch.running ≠ .idle then .interrupted else ch.running
        extStall := if n.toNat < m.toNat ∧ executing = some m then true else ch.extStall } := by
  simp only [afterOtherStart, Bool.and_eq_true_iff, decide_eq_true_iff, ChanId.below_iff]
  by_cases hstalled : n.toNat < m.toNat ∧ executing = some m
  · simp [hstalled, ChanId.below]
  · have hkept : (m.below n && decide (executing = some m)) = false := by
      simpa [ChanId.below] using hstalled
    rw [hkept, if_neg hstalled, Bool.or_false]

/-! ## A TRIG that no channel waits for -/

/-- R231: a channel that does not wait for the event takes no part in the TRIG. -/
theorem triggerChan_eq_self {cfg : Config} {c : CoreId} {ev : StartEvent} {r : ChannelSet × List Event} {n : ChanId}
    (h : ¬ ((r.1.chan n).controlWord.getLsbD 31 = true ∧ (r.1.chan n).startMode = ev)) :
    triggerChan cfg c ev r n = r := by
  rw [← enableBit_eq] at h
  exact if_neg (by rwa [Bool.and_eq_true_iff, decide_eq_true_iff])

theorem triggerSet_eq_self {cfg : Config} {c : CoreId} {ev : StartEvent} {S : ChannelSet}
    (h : ∀ n, ¬ ((S.chan n).controlWord.getLsbD 31 = true ∧ (S.chan n).startMode = ev)) :
    triggerSet cfg c ev S = (S, []) := by
  unfold triggerSet
  split
  · rfl
  · exact List.foldl_fixed' (fun n => triggerChan_eq_self (r := (S, [])) (h n)) allChans

theorem trigger_eq_self_of_not_armed {s : State} {c : CoreId} {ev : StartEvent} (h : ∀ n, ¬ ArmedOn s c n ev) :
    s.trigger c ev = s := by
  have hset : triggerSet s.cfg c ev (s.set c) = (s.set c, []) := triggerSet_eq_self h
  rw [State.trigger, onSet_eq_putSet, hset]
  simp only [putSet_set, List.append_nil]

end Machine

open Machine

/-- Settles O22: the counts are R157's length, which a transfer in progress keeps as it stands, and R235's cap of
it. -/
theorem startSetsTheCounts : Obligations.StartSetsTheCounts := by
  intro cfg c n S hidle
  dsimp only
  rw [startSet_chan_same_of_idle hidle]
  refine ⟨fun hold => ?_, fun hnew => ?_, sliceCap_toNat _ _⟩
  · simp only [beginTransfer, hold, if_true]
  · simp only [beginTransfer, hnew, Bool.false_eq_true, if_false, effLen_toNat]

/-- Settles O23: R236's reload is the only write of a working address, and R238 looks at what it leaves. -/
theorem startReloadsAndClassifies : Obligations.StartReloadsAndClassifies := by
  intro cfg c n S hidle
  dsimp only
  rw [startSet_chan_same_of_idle hidle]
  refine ⟨rfl, fun hnew hreload => ?_, fun hkept => ?_, gxFifoPattern_iff⟩
  · exact (beginTransfer_curDstAddr cfg c n _).trans (if_pos ⟨hnew, hreload⟩)
  · refine (beginTransfer_curDstAddr cfg c n _).trans (if_neg fun ⟨hnew, hreload⟩ => ?_)
    obtain hold | hother := hkept
    · exact Bool.noConfusion (hnew.symm.trans hold)
    · exact hother hreload

/-- Settles O24: the table is R237's, bank by bank, and R239 takes the marker from it. -/
theorem startInvalidatesShareAndSetsMarker : Obligations.StartInvalidatesShareAndSetsMarker := by
  intro cfg c n S hidle
  dsimp only
  rw [startSet_share_of_idle hidle, startSet_chan_same_of_idle hidle]
  refine ⟨fun b => ?_, fun hopen => ?_, fun hclosed => ?_⟩
  · simp only [shareAt_invalidate, Bool.and_eq_true_iff, ChanId.below_iff]
  · exact (initialMarker_eq _ _ _ _).trans (if_pos hopen)
  · exact (initialMarker_eq _ _ _ _).trans (if_neg hclosed)

/-- Settles O25: R240 and R241 are all that a Start does to another channel. -/
theorem startInterruptsLowerChannels : Obligations.StartInterruptsLowerChannels := by
  intro cfg c n m S hidle hother
  rw [startSet_chan_other_of_idle hidle hother, afterOtherStart_eq]

/-- Settles O26: the wait bit is or-ed in (R242), and the channel's record names the fields a Start writes. -/
theorem startStallsTheCpu : Obligations.StartStallsTheCpu := by
  intro cfg c n S hidle
  dsimp only
  rw [startSet_calls_of_idle hidle, startSet_stallBits_of_idle hidle, startSet_chan_same_of_idle hidle,
    startSet_slot, startSet_executing]
  refine ⟨rfl, fun i hi => ?_, rfl, rfl, rfl, rfl, rfl, rfl, rfl, rfl, rfl, rfl, rfl, rfl, rfl⟩
  rw [BitVec.getLsbD_or, chanMask_bit n hi, Bool.or_comm]

/-- Settles O27: a TRIG that R232 drops does not look at the channels, and otherwise each channel lets it pass. -/
theorem trigWithoutTakerDoesNothing : Obligations.TrigWithoutTakerDoesNothing := by
  rintro s c ev (himm | hunimpl | hnone)
  · exact congrArg Host.Outcome.next (trigger_eq_self c (.inl himm))
  · exact congrArg Host.Outcome.next (trigger_eq_self c (.inr hunimpl))
  · exact congrArg Host.Outcome.next (trigger_eq_self_of_not_armed hnone)

/-- Settles O21: R244 is the Running branch of Start, and its test is whether the mode is a queued one. -/
theorem startWhileRunningQueuesOrIsDiscarded : Obligations.StartWhileRunningQueuesOrIsDiscarded := by
  intro cfg c n S hrunning
  rw [startSet_running _ _ _ _ hrunning, startRunning]
  refine ⟨fun hqueued => ?_, fun hnot => ?_⟩
  · rw [if_pos hqueued]
  · rw [if_neg hnot]

end Sys2Proof
end

section
/-!
# The timing engine (42_timing_engine.md R272 to R282)

What UnitCost answers when both ends lie in one bank and when they do not, and what the burst position adds to it.
-/
namespace Sys2Proof
namespace Machine

/-! ## UnitCost by bank (R272 to R275) -/

section
variable {cfg : Config} {c : CoreId} {src dst : Word}

theorem sameBank_iff : sameBank cfg c src dst = true ↔ bankAt cfg c src = bankAt cfg c dst :=
  beq_iff_eq

theorem unitCost_of_bankAt_eq (w : UnitWidth) (pos : Int) (h : bankAt cfg c src = bankAt cfg c dst) :
    unitCost cfg c w src dst pos = costS cfg c src w + costS cfg c dst w + (if pos = 1 then 0 else 1) :=
  if_pos (sameBank_iff.mpr h)

theorem unitCost_of_bankAt_ne (w : UnitWidth) (pos : Int) (h : bankAt cfg c src ≠ bankAt cfg c dst) :
    unitCost cfg c w src dst pos =
      if pos = 2 then costN cfg c src w + costN cfg c dst w else costS cfg c src w + costS cfg c dst w :=
  if_neg (mt sameBank_iff.mp h)

/-- R282: in one bank a continued burst is one cycle cheaper than any other position. -/
theorem unitCost_succ_of_bankAt_eq (w : UnitWidth) {pos : Int} (h : bankAt cfg c src = bankAt cfg c dst)
    (hpos : pos ≠ 1) : unitCost cfg c w src dst pos = unitCost cfg c w src dst 1 + 1 := by
  rw [unitCost_of_bankAt_eq w pos h, unitCost_of_bankAt_eq w 1 h, if_neg hpos, if_pos rfl, Nat.add_zero]

end

end Machine

open Machine

/-- Settles O30: the two branches of UnitCost are R274 and R275, and R282's order is the same-bank penalty. -/
theorem unitCostFollowsBurstPosition : Obligations.UnitCostFollowsBurstPosition := by
  intro cfg c w src dst pos
  refine ⟨fun hsame => ⟨unitCost_of_bankAt_eq w pos hsame, fun hpos => ?_⟩, unitCost_of_bankAt_ne w pos⟩
  have hburst : pos ≠ 1 := by omega
  have hpenalty := unitCost_succ_of_bankAt_eq w hsame hburst
  omega

end Sys2Proof
end

section
/-!
# The sequencer (43_run_sequencer.md R302, R303, R310, R311, R323)

When a Run is blocked, what the MRAM_DONE of an empty slot leaves, and what one unit leaves of its own channel once
the start events of its write have been acted on.
-/
namespace Sys2Proof
namespace Machine

/-! ## A blocked Run -/

/-- The guards of Run (R302, R303). -/
theorem runBlocked_iff {c : CoreId} {n : ChanId} {s : State} :
    runBlocked c n s = true ↔
      s.target.get c ≤ s.ts.get c ∨ (s.chan c n).running = .idle ∨ (s.chan c n).controlWord.getLsbD 31 = false
        ∨ ((s.set c).slot.busy = true ∧ (s.set c).slot.channel = n) := by
  simp only [runBlocked, enableBit_eq, Bool.or_eq_true_iff, Bool.and_eq_true_iff, Bool.not_eq_true',
    decide_eq_true_iff, or_assoc]

theorem run_of_runBlocked {c : CoreId} {n : ChanId} {s : State} (h : runBlocked c n s = true) :
    run c n s = .ok s :=
  if_pos h

/-- A TICK whose first selectable channel is blocked ends there, since the channel stays Running (R300). -/
theorem tick_of_runBlocked {c : CoreId} {n : ChanId} {s : State} (hs : selectable (s.set c) n = true)
    (hfirst : ∀ m : ChanId, m.toNat < n.toNat → selectable (s.set c) m = false)
    (hblocked : runBlocked c n s = true) : tick c s = .ok s :=
  tick_first hs hfirst (run_of_runBlocked hblocked) (.inl (selectable_iff.1 hs).1)

/-! ## The channel of a unit -/

/-- R146: the bytes of a unit, as a word. -/
theorem ofNat_bytes_widthOf (cw : Word) :
    BitVec.ofNat 32 (widthOf cw).bytes = if cw.getLsbD 26 then 4 else 2 := by
  have hbit : bitField 26 1 cw = 1 ↔ cw.getLsbD 26 = true := by rw [← bitField_one_eq, beq_iff_eq]
  unfold widthOf
  by_cases h : cw.getLsbD 26 = true
  · rw [if_pos (hbit.2 h), if_pos h]; rfl
  · rw [if_neg (mt hbit.1 h), if_neg h]; rfl

/-- R105, as a choice between the three increments. -/
theorem advance_eq (a : Word) (i : Inc) (w : UnitWidth) :
    advance a i w =
      if i = .up then a + BitVec.ofNat 32 w.bytes else if i = .down then a - BitVec.ofNat 32 w.bytes else a := by
  cases i <;> rfl

theorem unitDone_chan (s : State) (c : CoreId) (n : ChanId) (pos : Int) :
    (s.unitDone c n pos).chan c n = commitUnit (widthOf (s.chan c n).controlWord) (s.chan c n) := by
  rw [State.chan, unitDone_set_same, afterUnit, chan_setChan_same]
  rfl

/-- The channel `after` is Running, and `before` but for what the Triggers within a slice may change of a Running
channel: its marker, its queue flag and its stall request (R240, R241, R244). -/
def RunsOn (before after : Channel) : Prop :=
  ∃ r q x, r ≠ Marker.idle ∧ after = { before with running := r, queued := q, extStall := x }

theorem RunsOn.refl {ch : Channel} (h : ch.running ≠ .idle) : RunsOn ch ch := ⟨_, _, _, h, rfl⟩

theorem RunsOn.running {before after : Channel} (h : RunsOn before after) : after.running ≠ .idle := by
  obtain ⟨r, q, x, hr, rfl⟩ := h
  exact hr

theorem RunsOn.trans {a b d : Channel} (hab : RunsOn a b) (hbd : RunsOn b d) : RunsOn a d := by
  obtain ⟨_, _, _, _, rfl⟩ := hab
  obtain ⟨r, q, x, hr, rfl⟩ := hbd
  exact ⟨r, q, x, hr, rfl⟩

/-- R312: a Trigger on either core lets a Running channel run on. -/
theorem trigger_runsOn {s : State} {c : CoreId} {n : ChanId} (h : (s.chan c n).running ≠ .idle) (c' : CoreId)
    (ev : StartEvent) : RunsOn (s.chan c n) ((s.trigger c' ev).chan c n) := by
  by_cases hc : c = c'
  · subst hc
    rw [State.chan, State.chan, trigger_set_same]
    exact triggerSet_chan_running h
  · rw [State.chan, State.chan, trigger_set_other s ev hc]
    exact .refl h

theorem triggers_runsOn {s : State} {c : CoreId} {n : ChanId} (h : (s.chan c n).running ≠ .idle)
    (evs : List (CoreId × StartEvent)) : RunsOn (s.chan c n) ((s.triggers evs).chan c n) :=
  triggers_induction (P := fun t => RunsOn (s.chan c n) (t.chan c n)) evs (.refl h)
    fun _ c' ev ht => ht.trans (trigger_runsOn ht.running c' ev)

/-- R310 to R312: a unit commits itself to its channel, which then runs on through the start events of its write. -/
theorem performUnit_runsOn {s t : State} {c : CoreId} {n : ChanId} {pos : Int}
    (h : (s.chan c n).running ≠ .idle) (hu : performUnit c n pos s = .ok t) :
    RunsOn (commitUnit (widthOf (s.chan c n).controlWord) (s.chan c n)) (t.chan c n) := by
  obtain ⟨_, _, rfl⟩ := performUnit_ok.1 hu
  rw [← unitDone_chan s c n pos]
  refine triggers_runsOn ?_ _
  rw [unitDone_chan]
  exact h

end Machine

open Machine

/-- Settles O34: the four premises are the guards of Run, and the slot's own channel is one of them. -/
theorem blockedRunChangesNothing : Obligations.BlockedRunChangesNothing := by
  intro s c n
  refine ⟨fun h => run_of_runBlocked (runBlocked_iff.2 h), fun hs hfirst hbusy hown => ?_⟩
  have hblocked : runBlocked c n s = true := runBlocked_iff.2 (.inr (.inr (.inr ⟨hbusy, hown⟩)))
  exact congrArg outcome (tick_of_runBlocked hs hfirst hblocked)

/-- Settles O39: the channel a unit commits has R310's addresses and R311's counts, and it runs on from there. -/
theorem unitAdvancesAddressesAndCounts : Obligations.UnitAdvancesAddressesAndCounts := by
  intro s t c n pos hrunning hunit
  obtain ⟨r, q, x, hr, hchan⟩ := performUnit_runsOn hrunning hunit
  refine ⟨r, q, x, hr, ?_⟩
  rw [hchan]
  simp only [commitUnit, advance_eq, ofNat_bytes_widthOf]

/-- Settles O45: MRAM_DONE looks at the slot's busy flag before anything else (R323). -/
theorem mramDoneWithEmptySlotDoesNothing : Obligations.MramDoneWithEmptySlotDoesNothing :=
  fun _ _ hempty => if_neg (Bool.eq_false_iff.1 hempty)

end Sys2Proof
end

section
/-!
# RESET (70_reset_and_hazards.md R440 to R443)

What RESET leaves of a channel and of a set, and that it replaces every set of the state by its reset one and
nothing else.
-/
namespace Sys2Proof
namespace Machine

/-! ## One set after RESET -/

section
variable (S : ChannelSet)

/-- R440: RESET acts on each channel by itself. -/
@[simp] theorem chan_resetSet (n : ChanId) : (resetSet S).chan n = resetChannel (S.chan n) :=
  PerChan.get_mapIdx S.chans (fun _ ch => resetChannel ch) n

@[simp] theorem resetSet_executing : (resetSet S).executing = none := rfl
@[simp] theorem resetSet_stallBits : (resetSet S).stallBits = 0 := rfl
@[simp] theorem resetSet_slot : (resetSet S).slot = Slot.reset := rfl

/-- R60: RESET empties the share table, so that every bank reads as an unlisted one. -/
@[simp] theorem shareAt_resetSet (b : Nat) : shareAt (resetSet S).share b = ShareEntry.reset := rfl

end

/-! ## The state after RESET -/

/-- RESET always has a next state (R440), in which each set is the reset one (R440) and all else, the calls made
included, is as it was (R442, R443). -/
theorem exec_resetBlock (s : State) :
    ∃ t : State, exec .resetBlock s = .next t ∧ t = { s with sets := t.sets }
      ∧ ∀ c : CoreId, t.set c = resetSet (s.set c) := by
  refine ⟨_, rfl, rfl, fun c => ?_⟩
  cases c with
  | core0 => rfl
  | core1 => rfl

end Machine

open Machine

/-- Settles O48: each set is its `resetSet`, whose channels are `resetChannel` of those before. -/
theorem resetClearsTheBlock : Obligations.ResetClearsTheBlock := by
  intro s
  obtain ⟨t, hexec, hframe, hset⟩ := exec_resetBlock s
  refine ⟨t, hexec, hframe, fun c n => ?_, fun c => ?_⟩
  · calc t.chan c n = (resetSet (s.set c)).chan n := congrArg (ChannelSet.chan · n) (hset c)
      _ = resetChannel (s.chan c n) := chan_resetSet (s.set c) n
  · rw [hset c]
    exact ⟨resetSet_executing _, resetSet_stallBits _, shareAt_resetSet _, resetSet_slot _⟩

end Sys2Proof
end

section
/-!
# The decoder and the encoder (30_encoding.md R140, R141, R151 to R156, R170 to R173)

A command header is its six fields and nothing else, so R172's checks on a header are checks on its fields: the
decoder reads the fields of every header R172 does not refuse, and the header can be written again from them. A
control word is decoded by the code of one field, which is the code its row's well-formedness asks for.
-/
namespace Sys2Proof
open Machine

/-! ## The fields of a header (R170) -/

section
variable (op : BitVec 4) (core : BitVec 1) (ch reg : BitVec 2) (be event : BitVec 4)

/-- The header as the concatenation it is, at its width as the sum of the fields' widths. -/
theorem bitField_headerWord (lo len : Nat) :
    bitField lo len (headerWord op core ch reg be event) =
      @BitVec.extractLsb' (15 + 4 + 4 + 2 + 2 + 1 + 4) lo len
        ((0 : BitVec 15) ++ event ++ be ++ reg ++ ch ++ core ++ op) := rfl

@[simp] theorem bitField_op_headerWord : bitField 0 4 (headerWord op core ch reg be event) = op := by
  rw [bitField_headerWord]
  simp (disch := decide) only [BitVec.extractLsb'_append_eq_of_add_le, BitVec.extractLsb'_eq_self]

@[simp] theorem bitField_core_headerWord : bitField 4 1 (headerWord op core ch reg be event) = core := by
  rw [bitField_headerWord]
  simp (disch := decide) only [BitVec.extractLsb'_append_eq_of_add_le, BitVec.extractLsb'_append_eq_of_le,
    Nat.reduceSub, BitVec.extractLsb'_eq_self]

@[simp] theorem bitField_ch_headerWord : bitField 5 2 (headerWord op core ch reg be event) = ch := by
  rw [bitField_headerWord]
  simp (disch := decide) only [BitVec.extractLsb'_append_eq_of_add_le, BitVec.extractLsb'_append_eq_of_le,
    Nat.reduceSub, BitVec.extractLsb'_eq_self]

@[simp] theorem bitField_reg_headerWord : bitField 7 2 (headerWord op core ch reg be event) = reg := by
  rw [bitField_headerWord]
  simp (disch := decide) only [BitVec.extractLsb'_append_eq_of_add_le, BitVec.extractLsb'_append_eq_of_le,
    Nat.reduceSub, BitVec.extractLsb'_eq_self]

@[simp] theorem bitField_be_headerWord : bitField 9 4 (headerWord op core ch reg be event) = be := by
  rw [bitField_headerWord]
  simp (disch := decide) only [BitVec.extractLsb'_append_eq_of_add_le, BitVec.extractLsb'_append_eq_of_le,
    Nat.reduceSub, BitVec.extractLsb'_eq_self]

@[simp] theorem bitField_event_headerWord : bitField 13 4 (headerWord op core ch reg be event) = event := by
  rw [bitField_headerWord]
  simp (disch := decide) only [BitVec.extractLsb'_append_eq_of_add_le, BitVec.extractLsb'_append_eq_of_le,
    Nat.reduceSub, BitVec.extractLsb'_eq_self]

@[simp] theorem bitField_high_headerWord : bitField 17 15 (headerWord op core ch reg be event) = 0 := by
  rw [bitField_headerWord]
  simp (disch := decide) only [BitVec.extractLsb'_append_eq_of_le, Nat.reduceSub, BitVec.extractLsb'_eq_self]

end

theorem getLsbD_eq_of_bitField {h k : Word} {lo len i : Nat} (hf : bitField lo len h = bitField lo len k)
    (hlo : lo ≤ i) (hlen : i < lo + len) : h.getLsbD i = k.getLsbD i := by
  have hbit := congrArg (BitVec.getLsbD · (i - lo)) hf
  simpa [bitField, show i - lo < len by omega, Nat.add_sub_cancel' hlo] using hbit

/-- The six fields of a header and its bits 31:17 are all of it. -/
theorem header_ext {h k : Word} (hop : bitField 0 4 h = bitField 0 4 k) (hcore : bitField 4 1 h = bitField 4 1 k)
    (hch : bitField 5 2 h = bitField 5 2 k) (hreg : bitField 7 2 h = bitField 7 2 k)
    (hbe : bitField 9 4 h = bitField 9 4 k) (hevent : bitField 13 4 h = bitField 13 4 k)
    (hhigh : bitField 17 15 h = bitField 17 15 k) : h = k := by
  apply BitVec.eq_of_getLsbD_eq
  intro i hi
  by_cases h4 : i < 4
  · exact getLsbD_eq_of_bitField hop (by omega) h4
  by_cases h5 : i < 5
  · exact getLsbD_eq_of_bitField hcore (by omega) h5
  by_cases h7 : i < 7
  · exact getLsbD_eq_of_bitField hch (by omega) h7
  by_cases h9 : i < 9
  · exact getLsbD_eq_of_bitField hreg (by omega) h9
  by_cases h13 : i < 13
  · exact getLsbD_eq_of_bitField hbe (by omega) h13
  by_cases h17 : i < 17
  · exact getLsbD_eq_of_bitField hevent (by omega) h17
  · exact getLsbD_eq_of_bitField hhigh (by omega) hi

/-- A header with bits 31:17 zero is written from its fields. -/
theorem headerWord_of_fields {h : Word} (hhigh : bitField 17 15 h = 0) :
    headerWord (bitField 0 4 h) (bitField 4 1 h) (bitField 5 2 h) (bitField 7 2 h) (bitField 9 4 h)
      (bitField 13 4 h) = h := by
  apply header_ext <;> simp [hhigh]

/-- A field survives no mask that has its bits. -/
theorem bitField_masked {lo len : Nat} {h m : Word} (hlen : lo + len ≤ 32)
    (hf : bitField lo len h = 0 ∨ bitField lo len m = BitVec.allOnes len) :
    bitField lo len (h &&& ~~~m) = bitField lo len 0 := by
  apply BitVec.eq_of_getLsbD_eq
  intro i hi
  have hbit : (bitField lo len h).getLsbD i = false ∨ (bitField lo len m).getLsbD i = true := by
    rcases hf with hf | hf <;> simp [hf, hi]
  simp only [bitField, BitVec.getLsbD_extractLsb', hi, decide_true, Bool.true_and] at hbit
  simp only [bitField, BitVec.getLsbD_extractLsb', BitVec.getLsbD_and, BitVec.getLsbD_not, hi,
    show lo + i < 32 by omega, decide_true, Bool.true_and]
  rcases hbit with hbit | hbit <;> simp [hbit]

/-! The ops that use the core, channel, register, byte-enable or event field use all its bits (R171). -/

theorem usedBits_op_ones : ∀ op : BitVec 4, bitField 0 4 (usedBits op.toNat) = BitVec.allOnes 4 := by decide

theorem usedBits_core_ones :
    ∀ op : BitVec 4, ¬ 6 ≤ op.toNat → bitField 4 1 (usedBits op.toNat) = BitVec.allOnes 1 := by decide

theorem usedBits_chan_ones :
    ∀ op : BitVec 4, ¬ op.toNat ∉ [0, 1, 5] → bitField 5 2 (usedBits op.toNat) = BitVec.allOnes 2 := by decide

theorem usedBits_reg_ones :
    ∀ op : BitVec 4, ¬ 2 ≤ op.toNat → bitField 7 2 (usedBits op.toNat) = BitVec.allOnes 2 := by decide

theorem usedBits_enables_ones :
    ∀ op : BitVec 4, ¬ op.toNat ≠ 0 → bitField 9 4 (usedBits op.toNat) = BitVec.allOnes 4 := by decide

theorem usedBits_event_ones :
    ∀ op : BitVec 4, ¬ op.toNat ≠ 2 → bitField 13 4 (usedBits op.toNat) = BitVec.allOnes 4 := by decide

/-- A header R172 does not refuse passes every check on it: what is left is to read the op's fields. -/
theorem decodeCommand_of_not_refused {h : Word} (data : List Word) (hr : ¬ Machine.RefusedHeader h) :
    decodeCommand (h :: data) = decodeOp h data := by
  simp only [Machine.RefusedHeader, not_or, not_and_or, not_not] at hr
  obtain ⟨hop, hhigh, -, -, hcore, hch, hreg, hbe, hevent⟩ := hr
  have hmask : h &&& ~~~(usedBits (bitField 0 4 h).toNat) = 0 := by
    apply header_ext
    · exact bitField_masked (by decide) (.inr (usedBits_op_ones _))
    · exact bitField_masked (by decide) (hcore.imp_right (usedBits_core_ones _))
    · exact bitField_masked (by decide) (hch.imp_right fun hu => usedBits_chan_ones _ (not_not.2 hu))
    · exact bitField_masked (by decide) (hreg.imp_right (usedBits_reg_ones _))
    · exact bitField_masked (by decide) (hbe.imp_right fun hu => usedBits_enables_ones _ (not_not.2 hu))
    · exact bitField_masked (by decide) (hevent.imp_right fun hu => usedBits_event_ones _ (not_not.2 hu))
    · exact bitField_masked (by decide) (.inl hhigh)
  rw [decodeCommand_cons, if_neg (not_not.2 hhigh), if_neg hop, if_neg (not_not.2 hmask)]

/-! ## Names and codes -/

@[simp] theorem coreOfBit_bit (c : CoreId) : coreOfBit c.bit = c := by cases c <;> rfl
@[simp] theorem chanOfBits_bits (n : ChanId) : chanOfBits n.bits = n := by cases n <;> rfl
@[simp] theorem regOfBits_bits (r : Reg) : regOfBits r.bits = some r := by cases r <;> rfl

@[simp] theorem eventOfCode_code (ev : StartEvent) : eventOfCode (BitVec.ofNat 4 ev.code).toNat = some ev := by
  cases ev <;> rfl

@[simp] theorem bit_coreOfBit : ∀ b : BitVec 1, (coreOfBit b).bit = b := by decide
@[simp] theorem bits_chanOfBits : ∀ b : BitVec 2, (chanOfBits b).bits = b := by decide

theorem bits_of_regOfBits : ∀ {b : BitVec 2} {r : Reg}, regOfBits b = some r → r.bits = b := by
  intro b r
  cases r <;> revert b <;> decide

theorem regOfBits_isSome {b : BitVec 2} (hb : b ≠ 3) : ∃ r, regOfBits b = some r := by
  have hall : ∀ b : BitVec 2, b ≠ 3 → (regOfBits b).isSome = true := by decide
  exact Option.isSome_iff_exists.1 (hall b hb)

theorem eventOfCode_isSome {k : Nat} (hk : k < 9) : ∃ ev, eventOfCode k = some ev := by
  have hall : ∀ j : Fin 9, (eventOfCode j.val).isSome = true := by decide
  exact Option.isSome_iff_exists.1 (hall ⟨k, hk⟩)

theorem Reg.bits_ne_reserved (r : Reg) : r.bits ≠ 3 := by cases r <;> decide

/-! ## The fields of each op (R171) -/

section
variable {h : Word} {data : List Word} {i : Instr}

theorem decodeOp_write (hop : (bitField 0 4 h).toNat = 0) : decodeOp h data = .ok i ↔
    ∃ r d, regOfBits (bitField 7 2 h) = some r ∧ data = [d]
      ∧ i = writeInstr (coreOfBit (bitField 4 1 h)) (chanOfBits (bitField 5 2 h)) r (bitField 9 4 h) d := by
  unfold decodeOp
  simp only [hop]
  split
  next hr => simp [hr]
  next r d hr => simp [hr, eq_comm]
  next r hr hdata => simpa [hr] using fun d hd => absurd hd (hdata d)

theorem decodeOp_read (hop : (bitField 0 4 h).toNat = 1) : decodeOp h data = .ok i ↔
    ∃ r, regOfBits (bitField 7 2 h) = some r ∧ data = []
      ∧ i = readInstr (coreOfBit (bitField 4 1 h)) (chanOfBits (bitField 5 2 h)) r := by
  unfold decodeOp
  simp only [hop]
  split
  next hr => simp [hr]
  next r hr => simp [hr, eq_comm]
  next r hr hdata => simpa [hr] using fun hd => absurd hd hdata

theorem decodeOp_trig (hop : (bitField 0 4 h).toNat = 2) : decodeOp h data = .ok i ↔
    ∃ ev, eventOfCode (bitField 13 4 h).toNat = some ev ∧ data = []
      ∧ i = .trig (coreOfBit (bitField 4 1 h)) ev := by
  unfold decodeOp
  simp only [hop]
  split
  next hev => simp [hev]
  next ev hev => simp [hev, eq_comm]
  next ev hev hdata => simpa [hev] using fun hd => absurd hd hdata

theorem decodeOp_tick (hop : (bitField 0 4 h).toNat = 3) : decodeOp h data = .ok i ↔
    data = [] ∧ i = .tick (coreOfBit (bitField 4 1 h)) := by
  unfold decodeOp
  simp only [hop]
  split <;> simp_all [eq_comm]

theorem decodeOp_mramDone (hop : (bitField 0 4 h).toNat = 4) : decodeOp h data = .ok i ↔
    data = [] ∧ i = .mramDone (coreOfBit (bitField 4 1 h)) := by
  unfold decodeOp
  simp only [hop]
  split <;> simp_all [eq_comm]

theorem decodeOp_xstall (hop : (bitField 0 4 h).toNat = 5) : decodeOp h data = .ok i ↔
    data = [] ∧ i = .xstall (coreOfBit (bitField 4 1 h)) (chanOfBits (bitField 5 2 h)) := by
  unfold decodeOp
  simp only [hop]
  split <;> simp_all [eq_comm]

theorem decodeOp_resetBlock (hop : (bitField 0 4 h).toNat = 6) : decodeOp h data = .ok i ↔
    data = [] ∧ i = .resetBlock := by
  unfold decodeOp
  simp only [hop]
  split <;> simp_all [eq_comm]

theorem decodeOp_save (hop : (bitField 0 4 h).toNat = 7) : decodeOp h data = .ok i ↔
    data = [] ∧ i = .save := by
  unfold decodeOp
  simp only [hop]
  split <;> simp_all [eq_comm]

theorem decodeOp_restore (hop : (bitField 0 4 h).toNat = 8) : decodeOp h data = .ok i ↔ i = .restore data := by
  unfold decodeOp
  simp only [hop]
  simp [eq_comm]

end

/-! ## Decode of encode (R170, R171) -/

theorem decodeCommand_write (c : CoreId) (n : ChanId) (r : Reg) (be : BitVec 4) (d : Word) :
    decodeCommand [headerWord 0 c.bit n.bits r.bits be 0, d] = .ok (writeInstr c n r be d) := by
  have hr : r.bits ≠ 3#2 := r.bits_ne_reserved
  rw [decodeCommand_of_not_refused _ (by simp [Machine.RefusedHeader, hr]), decodeOp_write (by simp)]
  exact ⟨r, d, by simp⟩

theorem decodeCommand_read (c : CoreId) (n : ChanId) (r : Reg) :
    decodeCommand [headerWord 1 c.bit n.bits r.bits 0 0] = .ok (readInstr c n r) := by
  have hr : r.bits ≠ 3#2 := r.bits_ne_reserved
  rw [decodeCommand_of_not_refused _ (by simp [Machine.RefusedHeader, hr]), decodeOp_read (by simp)]
  exact ⟨r, by simp⟩

theorem decodeCommand_trig (c : CoreId) (ev : StartEvent) :
    decodeCommand [headerWord 2 c.bit 0 0 0 (BitVec.ofNat 4 ev.code)] = .ok (.trig c ev) := by
  cases c <;> cases ev <;> rfl

theorem decodeCommand_tick (c : CoreId) : decodeCommand [headerWord 3 c.bit 0 0 0 0] = .ok (.tick c) := by
  cases c <;> rfl

theorem decodeCommand_mramDone (c : CoreId) : decodeCommand [headerWord 4 c.bit 0 0 0 0] = .ok (.mramDone c) := by
  cases c <;> rfl

theorem decodeCommand_xstall (c : CoreId) (n : ChanId) :
    decodeCommand [headerWord 5 c.bit n.bits 0 0 0] = .ok (.xstall c n) := by
  cases c <;> cases n <;> rfl

theorem decodeCommand_restore (vec : List Word) :
    decodeCommand (headerWord 8 0 0 0 0 0 :: vec) = .ok (.restore vec) := rfl

/-! ## The control-word rows (R141 to R157) -/

theorem startRowOk_iff {cfg : Config} {v : Variant} {lo len : Nat} {code : BitVec len} {c : CoreId} {w : Word} :
    startRowOk cfg v lo len code c w = true ↔ cfg.variant.get c = v ∧ bitField lo len w = code := by
  simp [startRowOk]

/-- Settles O5. A command's header is not refused and its fields read back; a row's word carries the row's code in
the row's field, which is what the decoder looks at. -/
theorem encodedInstructionDecodesToItself : Obligations.EncodedInstructionDecodesToItself := by
  intro cfg i hwf
  cases i with
  | wrSad c n be d => exact decodeCommand_write c n .sad be d
  | wrDad c n be d => exact decodeCommand_write c n .dad be d
  | wrCnt c n be d => exact decodeCommand_write c n .cnt be d
  | rdSad c n => exact decodeCommand_read c n .sad
  | rdDad c n => exact decodeCommand_read c n .dad
  | rdCnt c n => exact decodeCommand_read c n .cnt
  | trig c ev => exact decodeCommand_trig c ev
  | tick c => exact decodeCommand_tick c
  | mramDone c => exact decodeCommand_mramDone c
  | xstall c n => exact decodeCommand_xstall c n
  | resetBlock => rfl
  | save => rfl
  | restore vec => exact decodeCommand_restore vec
  | cntCount c n w => rfl
  | _ =>
    simp only [Instr.wellFormed, startRowOk_iff, decide_eq_true_eq] at hwf
    simp [encode, decodeInput, decodeControl, decodeStartRow, hwf]

/-! ## Encode of decode -/

theorem encode_writeInstr (c : CoreId) (n : ChanId) (r : Reg) (be : BitVec 4) (d : Word) :
    encode (writeInstr c n r be d) = .command [headerWord 0 c.bit n.bits r.bits be 0, d] := by
  cases r <;> rfl

theorem encode_readInstr (c : CoreId) (n : ChanId) (r : Reg) :
    encode (readInstr c n r) = .command [headerWord 1 c.bit n.bits r.bits 0 0] := by
  cases r <;> rfl

theorem ofNat_code_of_eventOfCode {b : BitVec 4} {ev : StartEvent} (h : eventOfCode b.toNat = some ev) :
    BitVec.ofNat 4 ev.code = b := by
  rw [← Machine.eventOfCode_eq_some.1 h, BitVec.ofNat_toNat, BitVec.setWidth_eq]

/-- An accepted header, written from its op's number and its other fields. -/
theorem headerWord_of_accepted {h : Word} {k : Nat} (hhigh : bitField 17 15 h = 0) (hop : (bitField 0 4 h).toNat = k) :
    headerWord (BitVec.ofNat 4 k) (bitField 4 1 h) (bitField 5 2 h) (bitField 7 2 h) (bitField 9 4 h)
      (bitField 13 4 h) = h := by
  rw [← hop, BitVec.ofNat_toNat, BitVec.setWidth_eq]
  exact headerWord_of_fields hhigh

/-- Settles O6. The fields the op does not use are zero in an accepted header, so that the header is written again
from the fields the instruction was read from. -/
theorem acceptedCommandEncodesBack : Obligations.AcceptedCommandEncodesBack := by
  intro words i hd
  cases words with
  | nil => cases hd
  | cons h data =>
    obtain ⟨hhigh, hlt, hused, hfields⟩ := header_of_decodeCommand hd
    have hcore := fun hu => bitField_eq_zero_of_masked hused (usedBits_core (bitField 0 4 h) hu)
    have hch := fun hu => bitField_eq_zero_of_masked hused (usedBits_chan (bitField 0 4 h) hu)
    have hreg := fun hu => bitField_eq_zero_of_masked hused (usedBits_reg (bitField 0 4 h) hu)
    have hbe := fun hu => bitField_eq_zero_of_masked hused (usedBits_enables (bitField 0 4 h) hu)
    have hevent := fun hu => bitField_eq_zero_of_masked hused (usedBits_event (bitField 0 4 h) hu)
    obtain hop | hop | hop | hop | hop | hop | hop | hop | hop :
        (bitField 0 4 h).toNat = 0 ∨ (bitField 0 4 h).toNat = 1 ∨ (bitField 0 4 h).toNat = 2
          ∨ (bitField 0 4 h).toNat = 3 ∨ (bitField 0 4 h).toNat = 4 ∨ (bitField 0 4 h).toNat = 5
          ∨ (bitField 0 4 h).toNat = 6 ∨ (bitField 0 4 h).toNat = 7 ∨ (bitField 0 4 h).toNat = 8 := by omega
    all_goals
      have hheader := headerWord_of_accepted hhigh hop
      simp [hop] at hcore hch hreg hbe hevent
    · obtain ⟨r, d, hr, rfl, rfl⟩ := (decodeOp_write hop).1 hfields
      rw [encode_writeInstr, bits_of_regOfBits hr, bit_coreOfBit, bits_chanOfBits]
      simpa [hevent] using hheader
    · obtain ⟨r, hr, rfl, rfl⟩ := (decodeOp_read hop).1 hfields
      rw [encode_readInstr, bits_of_regOfBits hr, bit_coreOfBit, bits_chanOfBits]
      simpa [hevent, hbe] using hheader
    · obtain ⟨ev, hev, rfl, rfl⟩ := (decodeOp_trig hop).1 hfields
      rw [encode, ofNat_code_of_eventOfCode hev, bit_coreOfBit]
      simpa [hch, hreg, hbe] using hheader
    · obtain ⟨rfl, rfl⟩ := (decodeOp_tick hop).1 hfields
      rw [encode, bit_coreOfBit]
      simpa [hch, hreg, hbe, hevent] using hheader
    · obtain ⟨rfl, rfl⟩ := (decodeOp_mramDone hop).1 hfields
      rw [encode, bit_coreOfBit]
      simpa [hch, hreg, hbe, hevent] using hheader
    · obtain ⟨rfl, rfl⟩ := (decodeOp_xstall hop).1 hfields
      rw [encode, bit_coreOfBit, bits_chanOfBits]
      simpa [hreg, hbe, hevent] using hheader
    · obtain ⟨rfl, rfl⟩ := (decodeOp_resetBlock hop).1 hfields
      simpa [encode, hcore, hch, hreg, hbe, hevent] using hheader
    · obtain ⟨rfl, rfl⟩ := (decodeOp_save hop).1 hfields
      simpa [encode, hcore, hch, hreg, hbe, hevent] using hheader
    · obtain rfl := (decodeOp_restore hop).1 hfields
      simpa [encode, hcore, hch, hreg, hbe, hevent] using hheader

/-- Settles O4. R172 leaves WR and RD a register and TRIG an event, and R170 gives the number of words. -/
theorem unrefusedHeaderDecodes : Obligations.UnrefusedHeaderDecodes := by
  intro h data hr hwrite halone
  rw [decodeCommand_of_not_refused data hr]
  simp only [Machine.RefusedHeader, not_or, not_and] at hr
  obtain ⟨hlt, -, hreg, hevent, -⟩ := hr
  obtain hop | hop | hop | hop | hop | hop | hop | hop | hop :
      (bitField 0 4 h).toNat = 0 ∨ (bitField 0 4 h).toNat = 1 ∨ (bitField 0 4 h).toNat = 2
        ∨ (bitField 0 4 h).toNat = 3 ∨ (bitField 0 4 h).toNat = 4 ∨ (bitField 0 4 h).toNat = 5
        ∨ (bitField 0 4 h).toNat = 6 ∨ (bitField 0 4 h).toNat = 7 ∨ (bitField 0 4 h).toNat = 8 := by omega
  · obtain ⟨r, hr⟩ := regOfBits_isSome hreg
    obtain ⟨d, hd⟩ := List.length_eq_one_iff.1 (hwrite hop)
    exact ⟨_, (decodeOp_write hop).2 ⟨r, d, hr, hd, rfl⟩⟩
  · obtain ⟨r, hr⟩ := regOfBits_isSome hreg
    exact ⟨_, (decodeOp_read hop).2 ⟨r, hr, halone (by omega) (by omega), rfl⟩⟩
  · obtain ⟨ev, hev⟩ := eventOfCode_isSome (Nat.lt_of_not_le (hevent hop))
    exact ⟨_, (decodeOp_trig hop).2 ⟨ev, hev, halone (by omega) (by omega), rfl⟩⟩
  · exact ⟨_, (decodeOp_tick hop).2 ⟨halone (by omega) (by omega), rfl⟩⟩
  · exact ⟨_, (decodeOp_mramDone hop).2 ⟨halone (by omega) (by omega), rfl⟩⟩
  · exact ⟨_, (decodeOp_xstall hop).2 ⟨halone (by omega) (by omega), rfl⟩⟩
  · exact ⟨_, (decodeOp_resetBlock hop).2 ⟨halone (by omega) (by omega), rfl⟩⟩
  · exact ⟨_, (decodeOp_save hop).2 ⟨halone (by omega) (by omega), rfl⟩⟩
  · exact ⟨_, (decodeOp_restore hop).2 rfl⟩

/-! ## Well-formedness of what is decoded -/

theorem writeInstr_wellFormed (cfg : Config) (c : CoreId) (n : ChanId) (r : Reg) (be : BitVec 4) (d : Word) :
    (writeInstr c n r be d).wellFormed cfg = true := by
  cases r <;> rfl

theorem readInstr_wellFormed (cfg : Config) (c : CoreId) (n : ChanId) (r : Reg) :
    (readInstr c n r).wellFormed cfg = true := by
  cases r <;> rfl

/-- Every command is well formed: the encoder writes none as a row. -/
theorem wellFormed_of_encode_command {cfg : Config} {i : Instr} {words : List Word}
    (h : encode i = .command words) : i.wellFormed cfg = true := by
  cases i <;> first | rfl | cases h

theorem bitField_two_cases (lo : Nat) (w : Word) :
    bitField lo 2 w = 0 ∨ bitField lo 2 w = 1 ∨ bitField lo 2 w = 2 ∨ bitField lo 2 w = 3 := by
  generalize bitField lo 2 w = code
  revert code
  decide

theorem bitField_three_cases (lo : Nat) (w : Word) :
    bitField lo 3 w = 0 ∨ bitField lo 3 w = 1 ∨ bitField lo 3 w = 2 ∨ bitField lo 3 w = 3 ∨ bitField lo 3 w = 4
      ∨ bitField lo 3 w = 5 ∨ bitField lo 3 w = 6 ∨ bitField lo 3 w = 7 := by
  generalize bitField lo 3 w = code
  revert code
  decide

/-- Each start row stands under its own code in its core's layout (R155, R156). -/
theorem decodeStartRow_wellFormed (cfg : Config) (c : CoreId) (n : ChanId) (w : Word) :
    (decodeStartRow (cfg.variant.get c) c n w).wellFormed cfg = true := by
  cases hv : cfg.variant.get c with
  | wide =>
    obtain h | h | h | h | h | h | h | h := bitField_three_cases 27 w <;>
      simp [decodeStartRow, h, Instr.wellFormed, startRowOk_iff, hv]
  | narrow =>
    obtain h | h | h | h := bitField_two_cases 28 w <;>
      simp [decodeStartRow, h, Instr.wellFormed, startRowOk_iff, hv]

theorem decodeControl_wellFormed {cfg : Config} {c : CoreId} {n : ChanId} {f : CntField} {w : Word} {i : Instr}
    (h : decodeControl cfg c n f w = .ok i) : i.wellFormed cfg = true := by
  cases f with
  | start => cases h; exact decodeStartRow_wellFormed cfg c n w
  | dst =>
    obtain hcode | hcode | hcode | hcode := bitField_two_cases 21 w <;>
      (simp [decodeControl, hcode] at h; subst h; simp [Instr.wellFormed, hcode])
  | src =>
    obtain hcode | hcode | hcode | hcode := bitField_two_cases 23 w <;>
      (simp [decodeControl, hcode] at h; subst h; simp [Instr.wellFormed, hcode])
  | width =>
    have hbit : bitField 26 1 w = 0 ∨ bitField 26 1 w = 1 := by
      generalize bitField 26 1 w = code
      revert code
      decide
    obtain hcode | hcode := hbit <;>
      (simp [decodeControl, hcode] at h; subst h; simp [Instr.wellFormed, hcode])
  | repeatFlag | irqEn | enable =>
    simp only [decodeControl] at h
    split at h
    next hcode => cases h; exact decide_eq_true hcode
    next => cases h
  | count => cases h; rfl

/-! ## The register window (R140) -/

section
variable {cfg : Config} {c : CoreId} {a : Word} {be : BitVec 4} {d : Word}

theorem decodeInput_busWrite {i : Instr} : decodeInput cfg (.busWrite c a be d) = .ok i ↔
    ∃ n r, windowSlot cfg a = some (n, r) ∧ i = writeInstr c n r be d := by
  simp only [decodeInput]
  split
  next n r hs => simp [hs, eq_comm]
  next hs => simp [hs]

theorem decodeInput_busRead {i : Instr} : decodeInput cfg (.busRead c a) = .ok i ↔
    ∃ n r, windowSlot cfg a = some (n, r) ∧ i = readInstr c n r := by
  simp only [decodeInput]
  split
  next n r hs => simp [hs, eq_comm]
  next hs => simp [hs]

theorem decodeInput_outsideWindow (h : windowSlot cfg a = none) :
    decodeInput cfg (.busWrite c a be d) = .error .outsideWindow
      ∧ decodeInput cfg (.busRead c a) = .error .outsideWindow := by
  simp [decodeInput, h]

end

theorem writeInstr_inj {c : CoreId} {n n' : ChanId} {r r' : Reg} {be : BitVec 4} {d : Word}
    (h : writeInstr c n r be d = writeInstr c n' r' be d) : n = n' ∧ r = r' := by
  cases r <;> cases r' <;> cases h <;> exact ⟨rfl, rfl⟩

theorem readInstr_inj {c : CoreId} {n n' : ChanId} {r r' : Reg} (h : readInstr c n r = readInstr c n' r') :
    n = n' ∧ r = r' := by
  cases r <;> cases r' <;> cases h <;> exact ⟨rfl, rfl⟩

/-- The window's words are numbered channel by channel, register by register. -/
theorem windowWord_eq_some {k : Nat} {n : ChanId} {r : Reg} :
    windowWord k = some (n, r) ↔ k = 3 * n.toNat + r.bits.toNat := by
  unfold windowWord
  split <;> cases n <;> cases r <;> simp_all [ChanId.toNat, Reg.bits]

/-- An address falls in a register's word exactly when it is one of the word's four bytes. -/
theorem windowSlot_eq_some {cfg : Config} {a : Word} {n : ChanId} {r : Reg} :
    windowSlot cfg a = some (n, r) ↔
      ∃ k : Nat, k < 4 ∧ a = cfg.regBase + BitVec.ofNat 32 (12 * n.toNat + 4 * r.bits.toNat + k) := by
  have hn : n.toNat < 4 := by cases n <;> decide
  have hr := r.bits.isLt
  rw [windowSlot, windowWord_eq_some]
  constructor
  · intro h
    refine ⟨(a - cfg.regBase).toNat % 4, Nat.mod_lt _ (by decide), ?_⟩
    have hoffset : 12 * n.toNat + 4 * r.bits.toNat + (a - cfg.regBase).toNat % 4 = (a - cfg.regBase).toNat := by omega
    rw [hoffset, BitVec.ofNat_toNat, BitVec.setWidth_eq, add_sub_cancel]
  · rintro ⟨k, hk, rfl⟩
    rw [add_sub_cancel_left, BitVec.toNat_ofNat]
    omega

/-- Settles O2. A command or a window access decodes to an instruction every word of which is legal; a control word
to the row of the code it has. -/
theorem decodedInstructionIsWellFormed : Obligations.DecodedInstructionIsWellFormed := by
  intro cfg x i h
  cases x with
  | command words => exact wellFormed_of_encode_command (acceptedCommandEncodesBack words i h)
  | busWrite c a be d =>
    obtain ⟨n, r, -, rfl⟩ := decodeInput_busWrite.1 h
    exact writeInstr_wellFormed ..
  | busRead c a =>
    obtain ⟨n, r, -, rfl⟩ := decodeInput_busRead.1 h
    exact readInstr_wellFormed ..
  | control c n f w => exact decodeControl_wellFormed h
  | setTs c v | setTarget c v | setMem c a w v => cases h

/-- Settles O8. A window access decodes by the slot of its address, which is the register whose four bytes hold
it. -/
theorem registerWindowAnswersAtItsOffsets : Obligations.RegisterWindowAnswersAtItsOffsets := by
  intro cfg c a be d
  dsimp only
  refine ⟨fun n r => ⟨?_, ?_⟩, fun hout => decodeInput_outsideWindow ?_⟩
  · rw [← windowSlot_eq_some, decodeInput_busWrite]
    refine ⟨?_, fun h => ⟨n, r, h, rfl⟩⟩
    rintro ⟨n', r', hs, hi⟩
    obtain ⟨rfl, rfl⟩ := writeInstr_inj hi
    exact hs
  · rw [← windowSlot_eq_some, decodeInput_busRead]
    refine ⟨?_, fun h => ⟨n, r, h, rfl⟩⟩
    rintro ⟨n', r', hs, hi⟩
    obtain ⟨rfl, rfl⟩ := readInstr_inj hi
    exact hs
  · rw [Option.eq_none_iff_forall_not_mem]
    rintro ⟨n, r⟩ hs
    exact hout n r (windowSlot_eq_some.1 hs)

/-! ## The step of an instruction -/

/-- Settles O1. `delivered` comes before the inbox, and what decodes is executed. -/
theorem stepRunsDecodedInstruction : Obligations.StepRunsDecodedInstruction := by
  intro s x rest i _ hd
  refine ⟨fun hdel => ?_, fun hdel hin => ?_⟩
  · simp [step, fetchInput, hdel, hd]
  · simp [step, fetchInput, hdel, hin, hd]

/-- Settles O7, header by header. -/
theorem specHeadersDecode : Obligations.SpecHeadersDecode :=
  ⟨rfl, rfl, rfl, rfl, rfl, rfl, rfl, rfl, rfl⟩

end Sys2Proof
end

section
/-!
# SAVE and RESTORE (44_host_ports.md R361 to R367)

The state vector as a list of sections, each found at its offset, and RESTORE by the law of `readVector`: a vector is
accepted exactly when it is the one SAVE writes of sets that meet their invariants.
-/
namespace Sys2Proof
namespace Machine

/-! ## A section at its offset -/

theorem take_drop_section {α : Type} {pre sec post vec : List α} {k m : Nat} (hvec : vec = pre ++ (sec ++ post))
    (hk : pre.length = k) (hm : sec.length = m) : (vec.drop k).take m = sec := by
  subst hvec hk hm
  rw [List.drop_left, List.take_left]

@[simp] theorem channelSections_length (c : CoreId) (S : ChannelSet) : (channelSections c S).length = 72 := rfl

@[simp] theorem shareSection_length (share : List (Nat × ShareEntry)) (l : List Nat) :
    (shareSection share l).length = 2 * l.length := by
  induction l with
  | nil => rfl
  | cons b bs ih =>
    simp only [shareSection, shareWords, List.length_append, List.length_cons, List.length_nil, ih]
    omega

/-- The words of a set section before its share words (R363). -/
def setHead (c : CoreId) (S : ChannelSet) : List Word :=
  [setId c, S.stallBits.setWidth 32, boolWord S.slot.busy, BitVec.ofNat 32 S.slot.width.bits,
    BitVec.ofNat 32 S.slot.channel.toNat]

@[simp] theorem setHead_length (c : CoreId) (S : ChannelSet) : (setHead c S).length = 5 := rfl

theorem setSection_eq (l : List Nat) (c : CoreId) (S : ChannelSet) :
    setSection l c S = setHead c S ++ shareSection S.share l := rfl

@[simp] theorem setSection_length (l : List Nat) (c : CoreId) (S : ChannelSet) :
    (setSection l c S).length = 5 + 2 * l.length := by
  rw [setSection_eq, List.length_append, setHead_length, shareSection_length]

/-- R361's length: eight channel sections and two set sections. -/
theorem saveVector_length (cfg : Config) (sets : PerCore ChannelSet) :
    (saveVector cfg sets).length = 8 * 18 + 2 * (5 + 2 * (banks cfg).length) := by
  simp only [saveVector, List.length_append, channelSections_length, setSection_length]
  omega

/-- The section of channel (c, n) comes after those of the channels before it (R361). -/
theorem saveVector_channel (cfg : Config) (sets : PerCore ChannelSet) (c : CoreId) (n : ChanId) :
    ((saveVector cfg sets).drop (18 * (4 * c.toNat + n.toNat))).take 18
      = channelSection c n ((sets.get c).chan n) := by
  obtain ⟨pre, post, hvec, hpre⟩ : ∃ pre post, channelSections c (sets.get c)
      = pre ++ (channelSection c n ((sets.get c).chan n) ++ post) ∧ pre.length = 18 * n.toNat := by
    unfold channelSections
    simp only [List.append_assoc]
    cases n with
    | ch0 => exact ⟨[], _, rfl, rfl⟩
    | ch1 => exact ⟨channelSection c .ch0 _, _, rfl, rfl⟩
    | ch2 => exact ⟨channelSection c .ch0 _ ++ channelSection c .ch1 _, _, by rw [List.append_assoc]; rfl, rfl⟩
    | ch3 =>
      exact ⟨channelSection c .ch0 _ ++ (channelSection c .ch1 _ ++ channelSection c .ch2 _), [],
        by simp only [List.append_assoc, List.append_nil]; rfl, rfl⟩
  cases c with
  | core0 =>
    refine take_drop_section (pre := pre) (post := post ++ (channelSections .core1 sets.core1
      ++ (setSection (banks cfg) .core0 sets.core0 ++ setSection (banks cfg) .core1 sets.core1))) ?_
      (by simpa [CoreId.toNat] using hpre) rfl
    unfold saveVector
    rw [show channelSections .core0 sets.core0 = _ from hvec]
    simp only [List.append_assoc]
  | core1 =>
    refine take_drop_section (pre := channelSections .core0 sets.core0 ++ pre) (post := post
      ++ (setSection (banks cfg) .core0 sets.core0 ++ setSection (banks cfg) .core1 sets.core1)) ?_ ?_ rfl
    · unfold saveVector
      rw [show channelSections .core1 sets.core1 = _ from hvec]
      simp only [List.append_assoc]
    · rw [List.length_append, channelSections_length, hpre, CoreId.toNat]
      omega

/-- The set section of core c comes after all channel sections and the set sections before it (R361). -/
theorem saveVector_set (cfg : Config) (sets : PerCore ChannelSet) (c : CoreId) :
    ∃ pre post, saveVector cfg sets = pre ++ (setSection (banks cfg) c (sets.get c) ++ post)
      ∧ pre.length = 144 + c.toNat * (5 + 2 * (banks cfg).length) := by
  cases c with
  | core0 =>
    refine ⟨channelSections .core0 sets.core0 ++ channelSections .core1 sets.core1,
      setSection (banks cfg) .core1 sets.core1, ?_, ?_⟩
    · simp only [saveVector, List.append_assoc]; rfl
    · simp only [List.length_append, channelSections_length, CoreId.toNat]; omega
  | core1 =>
    refine ⟨channelSections .core0 sets.core0 ++ channelSections .core1 sets.core1
      ++ setSection (banks cfg) .core0 sets.core0, [], ?_, ?_⟩
    · rw [List.append_nil]; rfl
    · simp only [List.length_append, channelSections_length, setSection_length, CoreId.toNat]; omega

/-- The two words of the j-th bank (R363). -/
theorem shareSection_entry (share : List (Nat × ShareEntry)) {l : List Nat} {j b : Nat} (h : l[j]? = some b) :
    ∃ pre post, shareSection share l = pre ++ (shareWords (shareAt share b) ++ post) ∧ pre.length = 2 * j := by
  induction l generalizing j with
  | nil => simp at h
  | cons a l ih =>
    cases j with
    | zero =>
      obtain rfl : a = b := by simpa using h
      exact ⟨[], shareSection share l, rfl, rfl⟩
    | succ j =>
      obtain ⟨pre, post, hsec, hlen⟩ := ih (by simpa using h)
      refine ⟨shareWords (shareAt share a) ++ pre, post, ?_, ?_⟩
      · rw [shareSection, hsec, List.append_assoc]
      · rw [List.length_append, hlen, shareWords, List.length_cons, List.length_cons, List.length_nil]
        omega

theorem incWord_eq (i : Inc) : incWord i = if i = .up then 1 else if i = .fixed then 0 else 0xFFFFFFFF := by
  cases i <;> rfl

/-! ## RESTORE -/

/-- Sets that have the identities of the sets they replace are loaded as they stand (R45, R365). -/
theorem keepIdentity_eq {old new : ChannelSet} (h : ∀ n, (new.chan n).cpuCore = (old.chan n).cpuCore
    ∧ (new.chan n).channelNumber = (old.chan n).channelNumber) : keepIdentity old new = new := by
  have hchans : (new.chans.mapIdx fun n ch =>
      { ch with cpuCore := (old.chan n).cpuCore, channelNumber := (old.chan n).channelNumber }) = new.chans := by
    apply PerChan.ext_get
    intro n
    obtain ⟨hcore, hnumber⟩ := h n
    rw [PerChan.get_mapIdx, ← hcore, ← hnumber]
    rfl
  unfold keepIdentity
  rw [hchans]

/-- The identities of a state are those of its places (R45). -/
def PlacedIdentities (s : State) : Prop :=
  ∀ c n, (s.chan c n).cpuCore = c ∧ (s.chan c n).channelNumber = n

theorem Inv.placed {s : State} (h : Inv s) : PlacedIdentities s :=
  fun c n => ⟨((h.sets c).chans n).core_eq, ((h.sets c).chans n).chan_eq⟩

/-- The sets of an accepted vector are loaded as they stand, into a state whose identities are those of its places
(R365). -/
theorem keepIdentity_of_readVector {s : State} {vec : List Word} {sets : PerCore ChannelSet} (hid : PlacedIdentities s)
    (h : readVector s.cfg vec = some sets) :
    ⟨keepIdentity s.sets.core0 sets.core0, keepIdentity s.sets.core1 sets.core1⟩ = sets := by
  have hinv := (readVector_eq_some.1 h).2.1
  have hkeep : ∀ c, keepIdentity (s.sets.get c) (sets.get c) = sets.get c := fun c => keepIdentity_eq fun n => by
    obtain ⟨hcore, hnumber⟩ := hid c n
    exact ⟨((hinv c).chans n).core_eq.trans hcore.symm, ((hinv c).chans n).chan_eq.trans hnumber.symm⟩
  rw [show keepIdentity s.sets.core0 sets.core0 = sets.core0 from hkeep .core0,
    show keepIdentity s.sets.core1 sets.core1 = sets.core1 from hkeep .core1]

theorem execRestore_some {s : State} {vec : List Word} {sets : PerCore ChannelSet}
    (h : readVector s.cfg vec = some sets) : execRestore vec s = .next { s with
      sets := ⟨keepIdentity s.sets.core0 sets.core0, keepIdentity s.sets.core1 sets.core1⟩ } := by
  unfold execRestore
  rw [h]

theorem execRestore_none {s : State} {vec : List Word} (h : readVector s.cfg vec = none) :
    execRestore vec s = .next s.refuse := by
  unfold execRestore
  rw [h]

theorem exec_restore_some {s : State} {vec : List Word} {sets : PerCore ChannelSet} (hid : PlacedIdentities s)
    (h : readVector s.cfg vec = some sets) : exec (.restore vec) s = .next { s with sets := sets } := by
  have hkeep := keepIdentity_of_readVector hid h
  exact (execRestore_some h).trans (by rw [hkeep])

/-- SAVE writes of a state that meets the invariant a vector that RESTORE accepts (R367). -/
theorem Inv.readVector_saveVector {s : State} (h : Inv s) : readVector s.cfg (saveVector s.cfg s.sets) = some s.sets :=
  readVector_eq_some.2 ⟨rfl, h.sets, h.waiting⟩

/-- The state with the sets of an accepted vector meets the invariant (R366). -/
theorem Inv.withSets {s : State} (h : Inv s) {vec : List Word} {sets : PerCore ChannelSet}
    (hr : readVector s.cfg vec = some sets) : Inv { s with sets := sets } := by
  obtain ⟨-, hinv, hwaiting⟩ := readVector_eq_some.1 hr
  exact ⟨hinv, hwaiting, h.memory⟩

end Machine

open Machine

/-- Settles O51. RESTORE accepts what SAVE wrote, and the identities are those of the places in both states. -/
theorem restoreInvertsSave : Obligations.RestoreInvertsSave := by
  intro s u hs hcfg hid
  refine ⟨saveVector s.cfg s.sets, rfl, exec_restore_some hid ?_⟩
  rw [hcfg]
  exact hs.readVector_saveVector

/-- Settles O52. A vector that is not read is refused; one that is read is the vector SAVE writes of its sets, and so
has that vector's length. -/
theorem restoreLoadsOrRefuses : Obligations.RestoreLoadsOrRefuses := by
  intro s vec hs
  cases hr : readVector s.cfg vec with
  | none => exact ⟨.inl (execRestore_none hr), fun _ => execRestore_none hr⟩
  | some sets =>
    obtain ⟨rfl, -, -⟩ := readVector_eq_some.1 hr
    refine ⟨.inr ⟨{ s with sets := sets }, exec_restore_some hs.placed hr, rfl, hs.withSets hr, rfl⟩, fun hlen => ?_⟩
    exact absurd (saveVector_length s.cfg sets) hlen

/-- Settles O49. Each section is found at its offset, and its words are those of R362 and R363. -/
theorem saveLaysOutTheState : Obligations.SaveLaysOutTheState := by
  intro s
  refine ⟨saveVector s.cfg s.sets, rfl, saveVector_length s.cfg s.sets, fun c n => ?_, fun c => ?_,
    fun c j b hb => ?_⟩
  · rw [saveVector_channel, channelSection, incWord_eq, incWord_eq]
    rfl
  · obtain ⟨pre, post, hvec, hpre⟩ := saveVector_set s.cfg s.sets c
    rw [setSection_eq, List.append_assoc] at hvec
    rw [BitVec.ofNat_toNat]
    exact take_drop_section hvec hpre (setHead_length c _)
  · obtain ⟨pre, post, hvec, hpre⟩ := saveVector_set s.cfg s.sets c
    obtain ⟨pre', post', hshare, hpre'⟩ := shareSection_entry (s.sets.get c).share hb
    refine take_drop_section (pre := pre ++ (setHead c (s.sets.get c) ++ pre')) (post := post' ++ post) ?_ ?_ rfl
    · rw [hvec, setSection_eq, hshare]
      simp only [List.append_assoc]
      rfl
    · rw [List.length_append, List.length_append, setHead_length, hpre, hpre']
      omega

/-- Settles O50. -/
theorem banksAreListedInOrder : Obligations.BanksAreListedInOrder :=
  fun cfg => ⟨pairwise_banks cfg, bankAt_mem cfg⟩

end Sys2Proof
end

section
/-!
# Every instruction and every step (10_state.md R45 to R51, 60_exceptions.md R404 to R415)

What an instruction can do is said once, as `Effect`, and what a step can do as an instruction's effect or that of an
input that is none. The invariant and the frames of all instructions are then read off, case by case.
-/
namespace Sys2Proof
namespace Machine

/-! ## What an instruction can do -/

/-- The states an instruction can leave, by what it acts on. -/
inductive Effect (s : State) : Instr → State → Prop
  /-- RD and SAVE only answer (R213, R361). -/
  | answer (i : Instr) (words : List Word) : Effect s i { s with reply := words }
  | writeSad (c : CoreId) (n : ChanId) (be : BitVec 4) (d : Word) : Effect s (.wrSad c n be d)
      (s.putChan c n { s.chan c n with srcAddr := mergeBytes (s.chan c n).srcAddr be d })
  | writeDad (c : CoreId) (n : ChanId) (be : BitVec 4) (d : Word) : Effect s (.wrDad c n be d)
      (s.putChan c n { s.chan c n with dstAddr := mergeBytes (s.chan c n).dstAddr be d })
  /-- WR CNT and the control-word rows (R203). -/
  | control {i : Instr} {c : CoreId} (n : ChanId) (val : Word) (hc : coreOf i = some c) :
      Effect s i (s.writeControl c n val)
  | trig (c : CoreId) (ev : StartEvent) : Effect s (.trig c ev) (s.trigger c ev)
  | tick {c : CoreId} {t : State} (h : tick c s = .ok t) : Effect s (.tick c) t
  | emptySlot (c : CoreId) : Effect s (.mramDone c) s
  | mramDone {c : CoreId} {t : State} (hbusy : (s.set c).slot.busy = true)
      (h : Machine.tick c (s.onSetQuiet c commitSlot) = .ok t) : Effect s (.mramDone c) t
  | xstall (c : CoreId) (n : ChanId) :
      Effect s (.xstall c n) (s.putChan c n { s.chan c n with extStall := true })
  | reset : Effect s .resetBlock { s with sets := ⟨resetSet s.sets.core0, resetSet s.sets.core1⟩ }
  | restore {vec : List Word} {sets : PerCore ChannelSet} (h : readVector s.cfg vec = some sets) :
      Effect s (.restore vec) { s with
        sets := ⟨keepIdentity s.sets.core0 sets.core0, keepIdentity s.sets.core1 sets.core1⟩ }
  | refused (vec : List Word) : Effect s (.restore vec) s.refuse

/-- Everything an instruction can do. -/
theorem effect_of_exec {i : Instr} {s t : State} (h : exec i s = .next t) : Effect s i t := by
  cases i with
  | wrSad c n be d => cases h; rw [onSetQuiet_eq_putSet]; exact .writeSad c n be d
  | wrDad c n be d => cases h; rw [onSetQuiet_eq_putSet]; exact .writeDad c n be d
  | rdSad c n | rdDad c n | rdCnt c n | save => cases h; exact .answer _ _
  | trig c ev => cases h; exact .trig c ev
  | tick c => exact .tick (outcome_eq_next.1 h)
  | mramDone c =>
    by_cases hbusy : (s.set c).slot.busy = true
    · exact .mramDone hbusy (outcome_eq_next.1 ((if_pos hbusy).symm.trans h))
    · cases (if_neg hbusy).symm.trans h
      exact .emptySlot c
  | xstall c n => cases h; rw [onSetQuiet_eq_putSet]; exact .xstall c n
  | resetBlock => cases h; exact .reset
  | restore vec =>
    cases hr : readVector s.cfg vec with
    | some sets => cases (execRestore_some hr).symm.trans h; exact .restore hr
    | none => cases (execRestore_none hr).symm.trans h; exact .refused vec
  | _ => cases h; exact .control _ _ rfl

/-! ## What a step can do -/

/-- Taking an input changes the input lists only. -/
theorem fetchInput_eq {s s1 : State} {x : Input} (h : fetchInput s = some (x, s1)) :
    ∃ inbox delivered, s1 = { s with inbox := inbox, delivered := delivered } := by
  unfold fetchInput at h
  split at h
  next hdel => cases h; exact ⟨s.inbox, _, rfl⟩
  next hdel =>
    split at h
    · cases h; exact ⟨_, s.delivered, rfl⟩
    · cases h

/-- The states an input that is no instruction can leave (R172, R174). -/
inductive OtherEffect (s : State) : State → Prop
  | nothing : OtherEffect s s
  | refused : OtherEffect s s.refuse
  | setTs (c : CoreId) (v : Time) : OtherEffect s (s.setTs c v)
  | setTarget (c : CoreId) (v : Time) : OtherEffect s (s.setTarget c v)
  | setMem (c : CoreId) (a : Word) (w : UnitWidth) (v : Word) : OtherEffect s (s.setMem c a w v)

theorem applyOther_effect (e : DecodeError) (x : Input) (s : State) : OtherEffect s (applyOther e x s) := by
  cases x with
  | command words =>
    simp only [applyOther]
    split
    · exact .refused
    · exact .nothing
  | busWrite c a be d => exact .nothing
  | busRead c a => exact .nothing
  | control c n f w => exact .nothing
  | setTs c v => exact .setTs c v
  | setTarget c v => exact .setTarget c v
  | setMem c a w v => exact .setMem c a w v

/-- What inputs without an instruction, taking an input and every instruction keep, a step keeps. -/
theorem step_induction {P : State → Prop} {s t : State} (h0 : P s)
    (hin : ∀ inbox delivered, P s → P { s with inbox := inbox, delivered := delivered })
    (hother : ∀ s1 t, P s1 → OtherEffect s1 t → P t) (hexec : ∀ i s1 t, P s1 → Effect s1 i t → P t)
    (h : step s = .next t) : P t := by
  unfold step at h
  split at h
  next => cases h; exact h0
  next x s1 hfetch =>
    obtain ⟨inbox, delivered, rfl⟩ := fetchInput_eq hfetch
    have h1 := hin inbox delivered h0
    split at h
    next i hd => exact hexec i _ t h1 (effect_of_exec h)
    next e hd => cases h; exact hother _ _ h1 (applyOther_effect e x _)

/-! ## The invariant, operation by operation -/

/-- A change outside the sets that keeps the memories in canonical form. -/
theorem Inv.of_sets_eq {s t : State} (h : Inv s) (hcfg : t.cfg = s.cfg) (hset : ∀ c, t.set c = s.set c)
    (hmem : ∀ c, Memory.wf (t.mem.get c) = true) : Inv t where
  sets c := by rw [hcfg, hset]; exact h.sets c
  waiting c := by rw [hset]; exact h.waiting c
  memory := hmem

/-- An operation of one set that keeps the set's invariant and performs no slice. -/
theorem Inv.onSet {s : State} (h : Inv s) (c : CoreId) (f : ChannelSet → ChannelSet × List Event)
    (hf : SetInv s.cfg c (f (s.set c)).1) (he : (f (s.set c)).1.executing = (s.set c).executing) :
    Inv (s.onSet c f) where
  sets := SetsInv.onSet h.sets c f hf
  waiting c' := by
    by_cases hc : c' = c
    · subst hc; rw [onSet_set_same, he]; exact h.waiting c'
    · rw [onSet_set_other s c f hc]; exact h.waiting c'
  memory := h.memory

/-- A channel's new value that keeps its marker and its slice's count cannot break the slot. -/
theorem SetInv.setChan_kept {cfg : Config} {c : CoreId} {S : ChannelSet} (h : SetInv cfg c S) {n : ChanId}
    {ch : Channel} (hch : ChannelInv cfg c n ch) (hr : ch.running = (S.chan n).running)
    (hi : ch.iterationCount = (S.chan n).iterationCount) : SetInv cfg c (S.setChan n ch) :=
  h.setChan hch fun hbusy hown => by
    rw [hr, hi, ← hown]
    exact h.slot_busy hbusy

/-- A register write or a stall request, which replaces a channel and keeps its marker, its slice's count and its
invariant. -/
theorem Inv.putChan {s : State} (h : Inv s) {c : CoreId} {n : ChanId} {ch : Channel}
    (hch : ChannelInv s.cfg c n ch) (hr : ch.running = (s.chan c n).running)
    (hi : ch.iterationCount = (s.chan c n).iterationCount) : Inv (s.putChan c n ch) := by
  have hset : s.putChan c n ch = s.onSetQuiet c fun S => S.setChan n ch := 
    (onSetQuiet_eq_putSet s c fun S => S.setChan n ch).symm
  rw [hset]
  exact h.onSet c _ ((h.sets c).setChan_kept hch hr hi) rfl

theorem resetChannel_inv {cfg : Config} {c : CoreId} {n : ChanId} {ch : Channel} (h : ChannelInv cfg c n ch) :
    ChannelInv cfg c n (resetChannel ch) where
  remaining_le := Nat.zero_le _
  iteration_le := BitVec.le_refl _
  running_inProgress hr := absurd rfl hr
  mode_producible := by
    show producible _ .immediate = true
    cases cfg.variant.get c <;> rfl
  core_eq := h.core_eq
  chan_eq := h.chan_eq

theorem resetSet_inv {cfg : Config} {c : CoreId} {S : ChannelSet} (h : SetInv cfg c S) :
    SetInv cfg c (resetSet S) where
  chans n := by rw [chan_resetSet]; exact resetChannel_inv (h.chans n)
  slot_ok := rfl
  share_form := rfl
  share_banks _ hp := absurd hp List.not_mem_nil

/-- MRAM_DONE's commit keeps the invariant (R322). -/
theorem commitSlot_onSet_inv {s : State} (h : Inv s) {c : CoreId} (hbusy : (s.set c).slot.busy = true) :
    Inv (s.onSetQuiet c commitSlot) :=
  h.onSet c _ (commitSlot_inv (h.sets c) hbusy) rfl

/-- Every instruction keeps the invariant. -/
theorem Inv.effect {i : Instr} {s t : State} (h : Inv s) (he : Effect s i t) : Inv t := by
  cases he with
  | answer words => exact h.of_sets_eq rfl (fun _ => rfl) h.memory
  | writeSad c n be d =>
    obtain ⟨h1, h2, h3, h4, h5, h6⟩ := (h.sets c).chans n
    exact h.putChan ⟨h1, h2, h3, h4, h5, h6⟩ rfl rfl
  | writeDad c n be d =>
    obtain ⟨h1, h2, h3, h4, h5, h6⟩ := (h.sets c).chans n
    exact h.putChan ⟨h1, h2, h3, h4, h5, h6⟩ rfl rfl
  | control n val hc => exact h.onSet _ _ (writeCnt_inv (h.sets _) n val) (writeCnt_executing ..)
  | trig c ev => exact h.onSet c _ (triggerSet_inv (h.sets c) ev) (triggerSet_executing ..)
  | tick ht => exact tick_inv h ht
  | emptySlot c => exact h
  | mramDone hbusy ht => exact tick_inv (commitSlot_onSet_inv h hbusy) ht
  | xstall c n =>
    obtain ⟨h1, h2, h3, h4, h5, h6⟩ := (h.sets c).chans n
    exact h.putChan ⟨h1, h2, h3, h4, h5, h6⟩ rfl rfl
  | reset =>
    refine ⟨fun c => ?_, fun c => ?_, h.memory⟩
    · cases c with
      | core0 => exact resetSet_inv (h.sets .core0)
      | core1 => exact resetSet_inv (h.sets .core1)
    · cases c <;> rfl
  | restore hr =>
    rw [keepIdentity_of_readVector h.placed hr]
    exact h.withSets hr
  | refused vec => exact h.of_sets_eq rfl (fun _ => rfl) h.memory

theorem Inv.otherEffect {s t : State} (h : Inv s) (he : OtherEffect s t) : Inv t := by
  cases he with
  | nothing => exact h
  | refused => exact h.of_sets_eq rfl (fun _ => rfl) h.memory
  | setTs c v => exact h.of_sets_eq rfl (fun _ => rfl) h.memory
  | setTarget c v => exact h.of_sets_eq rfl (fun _ => rfl) h.memory
  | setMem c a w v => exact h.of_sets_eq rfl (fun _ => rfl) fun c' => setMem_wf s c c' a w v h.memory

/-- A channel of the state after reset is its own reset value. -/
theorem chan_reset (c : CoreId) (n : ChanId) : (State.reset.set c).chan n = Channel.reset c n := by
  cases c <;> cases n <;> rfl

/-! ## What the operations of a set leave of a channel's bases and identity -/

/-- The bases and the identity of the channel `after` are those of `before` (R31, R32, R45). -/
structure SameBases (before after : Channel) : Prop where
  srcAddr : after.srcAddr = before.srcAddr
  dstAddr : after.dstAddr = before.dstAddr
  cpuCore : after.cpuCore = before.cpuCore
  channelNumber : after.channelNumber = before.channelNumber

theorem SameBases.refl (ch : Channel) : SameBases ch ch := ⟨rfl, rfl, rfl, rfl⟩

theorem SameBases.trans {a b d : Channel} (hab : SameBases a b) (hbd : SameBases b d) : SameBases a d :=
  ⟨hbd.srcAddr.trans hab.srcAddr, hbd.dstAddr.trans hab.dstAddr, hbd.cpuCore.trans hab.cpuCore,
    hbd.channelNumber.trans hab.channelNumber⟩

/-- An operation of a set keeps every channel's bases and identity. -/
def KeepsBases (S T : ChannelSet) : Prop := ∀ n, SameBases (S.chan n) (T.chan n)

theorem KeepsBases.refl (S : ChannelSet) : KeepsBases S S := fun n => .refl (S.chan n)

theorem KeepsBases.trans {S T U : ChannelSet} (hST : KeepsBases S T) (hTU : KeepsBases T U) : KeepsBases S U :=
  fun n => (hST n).trans (hTU n)

theorem keepsBases_setChan {S : ChannelSet} {n : ChanId} {ch : Channel} (h : SameBases (S.chan n) ch) :
    KeepsBases S (S.setChan n ch) := by
  intro m
  rw [chan_setChan]
  split
  next hm => exact hm ▸ h
  next => exact .refl _

section
variable (cfg : Config) (c : CoreId) (n : ChanId) (S : ChannelSet)

theorem keepsBases_startSet : KeepsBases S (startSet cfg c n S).1 := by
  intro m
  by_cases hr : (S.chan n).running = .idle
  · by_cases hm : m = n
    · subst hm
      rw [startSet_chan_same_of_idle hr]
      exact ⟨rfl, rfl, rfl, rfl⟩
    · rw [startSet_chan_other_of_idle hr hm]
      exact ⟨rfl, rfl, rfl, rfl⟩
  · rw [startSet_running _ _ _ _ hr]
    show SameBases _ ((startRunning cfg n S).chan m)
    rw [startRunning_chan]
    split
    next hm => obtain ⟨rfl, -⟩ := hm; exact ⟨rfl, rfl, rfl, rfl⟩
    next => exact .refl _

theorem keepsBases_triggerSet (ev : StartEvent) : KeepsBases S (triggerSet cfg c ev S).1 :=
  triggerSet_induction (KeepsBases S) (.refl S) fun T m hT => hT.trans (keepsBases_startSet cfg c m T)

theorem keepsBases_writeCnt (val : Word) : KeepsBases S (writeCnt cfg c n val S).1 := by
  have hlatch : KeepsBases S (S.setChan n (Latched cfg c val (S.chan n))) :=
    keepsBases_setChan ⟨rfl, rfl, rfl, rfl⟩
  by_cases hedge : (S.chan n).controlWord.getLsbD 31 = false ∧ val.getLsbD 31 = true
  · rw [writeCnt_of_edge hedge.1 hedge.2]
    split_ifs
    · exact hlatch
    · exact hlatch.trans (keepsBases_startSet cfg c n _)
    · exact hlatch
    · exact hlatch
  · rw [writeCnt_of_no_edge hedge]
    exact keepsBases_setChan ⟨rfl, rfl, rfl, rfl⟩

theorem keepsBases_leaveRun : KeepsBases S (leaveRun n S) := by
  intro m
  rw [chan_leaveRun]
  split
  next hm => subst hm; exact ⟨rfl, rfl, rfl, rfl⟩
  next => exact .refl _

theorem keepsBases_sliceBoundary : KeepsBases S (sliceBoundary c n S).1 :=
  keepsBases_setChan (ch := { S.chan n with running := .idle }) ⟨rfl, rfl, rfl, rfl⟩

theorem keepsBases_complete : KeepsBases S (complete cfg c n S).1 := by
  have hdone : KeepsBases S (resumeCpu n (S.setChan n { S.chan n with
      controlWord := completedWord (S.chan n).controlWord, inProgress := false, running := .idle,
      queued := false })) :=
    keepsBases_setChan (ch := { S.chan n with
      controlWord := completedWord (S.chan n).controlWord, inProgress := false, running := .idle,
      queued := false }) ⟨rfl, rfl, rfl, rfl⟩
  unfold complete
  dsimp only
  split
  · exact hdone.trans (keepsBases_startSet cfg c n _)
  · exact hdone

theorem keepsBases_endSlice (e : SliceEnd) : KeepsBases S (endSlice cfg c n e S).1 := by
  have hleft : KeepsBases S (leaveRun n (S.setChan n { S.chan n with running := endMarker e })) :=
    (keepsBases_setChan (ch := { S.chan n with running := endMarker e }) ⟨rfl, rfl, rfl, rfl⟩).trans
      (keepsBases_leaveRun n _)
  unfold endSlice
  dsimp only
  split
  · split
    · exact hleft.trans (keepsBases_sliceBoundary c n _)
    · exact hleft
  · exact hleft.trans (keepsBases_complete cfg c n _)

theorem keepsBases_afterUnit (w : UnitWidth) : KeepsBases S (afterUnit cfg c n w S) :=
  keepsBases_setChan (ch := commitUnit w (S.chan n)) ⟨rfl, rfl, rfl, rfl⟩

theorem keepsBases_handOffOrWait : KeepsBases S (handOffOrWait cfg c n S) := by
  have hmarked : KeepsBases S (S.setChan n { S.chan n with running := .interrupted }) :=
    keepsBases_setChan ⟨rfl, rfl, rfl, rfl⟩
  unfold handOffOrWait
  dsimp only
  split <;> exact hmarked

theorem keepsBases_commitSlot : KeepsBases S (commitSlot S) :=
  keepsBases_setChan (ch := commitUnit S.slot.width (S.chan S.slot.channel)) ⟨rfl, rfl, rfl, rfl⟩

end

/-! ## What a slice leaves of the bases and identities -/

/-- The operations of its core's set a Run makes beside its units (R304). -/
inductive RunOp (cfg : Config) (c : CoreId) (n : ChanId) : (ChannelSet → ChannelSet × List Event) → Prop
  | enter : RunOp cfg c n fun S => ({ S with executing := some n }, [])
  | handOff : RunOp cfg c n fun S => (handOffOrWait cfg c n S, [])
  | leave : RunOp cfg c n fun S => (leaveRun n S, [])
  | finish (e : SliceEnd) : RunOp cfg c n (endSlice cfg c n e)

/-- What every operation a Run makes keeps, and every unit, a Run keeps. -/
theorem run_induction_op {c : CoreId} {n : ChanId} {P : State → Prop} {s s1 : State} (h0 : P s)
    (hf : ∀ t f, P t → RunOp t.cfg c n f → P (t.onSet c f))
    (hu : ∀ pos t t', P t → performUnit c n pos t = .ok t' → P t') (h : run c n s = .ok s1) : P s1 := by
  unfold run at h
  split at h
  · cases h; exact h0
  · split at h
    · cases h
    next e s2 hl =>
      cases h
      rcases sliceLoop_induction (fun pos t t' ht _ _ _ hu' => hu pos t t' ht hu') _ _ (hf s _ h0 .enter) hl
        with ⟨he, hp⟩ | ⟨rfl, s0, hp, _, rfl⟩
      · cases e with
        | mainRam => exact absurd rfl he
        | cap | budget | stall => exact hf _ _ hp (.finish _)
      · exact hf _ _ (hf _ _ hp .handOff) .leave

theorem RunOp.keepsBases {cfg : Config} {c : CoreId} {n : ChanId} {f : ChannelSet → ChannelSet × List Event}
    (h : RunOp cfg c n f) (S : ChannelSet) : KeepsBases S (f S).1 := by
  cases h with
  | enter => exact .refl S
  | handOff => exact keepsBases_handOffOrWait cfg c n S
  | leave => exact keepsBases_leaveRun n S
  | finish e => exact keepsBases_endSlice cfg c n S e

/-- Both sets keep every channel's bases and identity. -/
def BasesKept (s t : State) : Prop := ∀ c, KeepsBases (s.set c) (t.set c)

theorem BasesKept.refl (s : State) : BasesKept s s := fun c => .refl (s.set c)

theorem BasesKept.trans {s t u : State} (hst : BasesKept s t) (htu : BasesKept t u) : BasesKept s u :=
  fun c => (hst c).trans (htu c)

theorem basesKept_onSet {s : State} {c : CoreId} {f : ChannelSet → ChannelSet × List Event}
    (h : KeepsBases (s.set c) (f (s.set c)).1) : BasesKept s (s.onSet c f) := by
  intro c'
  by_cases hc : c' = c
  · subst hc; rw [onSet_set_same]; exact h
  · rw [onSet_set_other s c f hc]; exact .refl _

theorem basesKept_writeControl (s : State) (c : CoreId) (n : ChanId) (val : Word) :
    BasesKept s (s.writeControl c n val) :=
  basesKept_onSet (keepsBases_writeCnt s.cfg c n (s.set c) val)

theorem basesKept_trigger (s : State) (c : CoreId) (ev : StartEvent) : BasesKept s (s.trigger c ev) :=
  basesKept_onSet (keepsBases_triggerSet s.cfg c (s.set c) ev)

theorem basesKept_performUnit {c : CoreId} {n : ChanId} {pos : Int} {s t : State}
    (h : performUnit c n pos s = .ok t) : BasesKept s t := by
  obtain ⟨_, _, rfl⟩ := performUnit_ok.1 h
  refine triggers_induction _ (fun c' => ?_) fun u c' ev hu =>
    hu.trans (basesKept_trigger u c' ev)
  by_cases hc : c' = c
  · subst hc; rw [unitDone_set_same]; exact keepsBases_afterUnit s.cfg c' n (s.set c') _
  · rw [unitDone_set_other _ _ _ _ hc]; exact .refl _

theorem basesKept_tick {c : CoreId} {s t : State} (h : tick c s = .ok t) : BasesKept s t :=
  tickFrom_induction (P := BasesKept s) (fun _ _ _ hu hr => run_induction_op hu
    (fun v _ hv hop => hv.trans (basesKept_onSet (hop.keepsBases (v.set c))))
    (fun _ _ _ hv hp => hv.trans (basesKept_performUnit hp)) hr) _ (.refl s) h

/-! ## Configuration and identity -/

/-- A channel replaced, seen from every channel. -/
theorem chan_putChan (s : State) (c c' : CoreId) (n n' : ChanId) (ch : Channel) :
    (s.putChan c n ch).chan c' n' = if c' = c ∧ n' = n then ch else s.chan c' n' := by
  by_cases hc : c' = c
  · subst hc
    rw [State.chan, putChan_set_same, chan_setChan]
    simp [State.chan]
  · have hset : (s.putChan c n ch).set c' = s.set c' := PerCore.get_set_other _ _ hc
    rw [State.chan, hset, if_neg (hc ·.1)]
    rfl

/-- The identities of `t` are those of `s` (R45). -/
def IdentityKept (s t : State) : Prop :=
  ∀ c n, (t.chan c n).cpuCore = (s.chan c n).cpuCore ∧ (t.chan c n).channelNumber = (s.chan c n).channelNumber

theorem BasesKept.identity {s t : State} (h : BasesKept s t) : IdentityKept s t :=
  fun c n => ⟨(h c n).cpuCore, (h c n).channelNumber⟩

theorem identityKept_putChan {s : State} {c : CoreId} {n : ChanId} {ch : Channel}
    (hcore : ch.cpuCore = (s.chan c n).cpuCore) (hnumber : ch.channelNumber = (s.chan c n).channelNumber) :
    IdentityKept s (s.putChan c n ch) := by
  intro c' n'
  rw [chan_putChan]
  split
  next h => obtain ⟨rfl, rfl⟩ := h; exact ⟨hcore, hnumber⟩
  next => exact ⟨rfl, rfl⟩

/-- MRAM_DONE's commit and the TICK after it keep the bases and identities. -/
theorem basesKept_mramDone {c : CoreId} {s t : State} (h : tick c (s.onSetQuiet c commitSlot) = .ok t) :
    BasesKept s t :=
  (basesKept_onSet (keepsBases_commitSlot (s.set c))).trans (basesKept_tick h)

theorem Effect.cfg_identity {i : Instr} {s t : State} (h : Effect s i t) : t.cfg = s.cfg ∧ IdentityKept s t := by
  cases h with
  | answer words => exact ⟨rfl, fun _ _ => ⟨rfl, rfl⟩⟩
  | writeSad c n be d => exact ⟨rfl, identityKept_putChan rfl rfl⟩
  | writeDad c n be d => exact ⟨rfl, identityKept_putChan rfl rfl⟩
  | control n val hc => exact ⟨rfl, (basesKept_writeControl s _ n val).identity⟩
  | trig c ev => exact ⟨rfl, (basesKept_trigger s c ev).identity⟩
  | tick ht => exact ⟨(tick_frame ht).cfg, (basesKept_tick ht).identity⟩
  | emptySlot c => exact ⟨rfl, fun _ _ => ⟨rfl, rfl⟩⟩
  | mramDone hbusy ht => exact ⟨(tick_frame ht).cfg, (basesKept_mramDone ht).identity⟩
  | xstall c n => exact ⟨rfl, identityKept_putChan rfl rfl⟩
  | reset =>
    refine ⟨rfl, fun c n => ?_⟩
    cases c <;> cases n <;> exact ⟨rfl, rfl⟩
  | restore hr =>
    refine ⟨rfl, fun c n => ?_⟩
    cases c <;> cases n <;> exact ⟨rfl, rfl⟩
  | refused vec => exact ⟨rfl, fun _ _ => ⟨rfl, rfl⟩⟩

theorem OtherEffect.cfg_identity {s t : State} (h : OtherEffect s t) : t.cfg = s.cfg ∧ IdentityKept s t := by
  cases h <;> exact ⟨rfl, fun _ _ => ⟨rfl, rfl⟩⟩

/-! ## Time (R56, R461) -/

/-- A unit's time is added without passing 2^64-1 (R307). -/
theorem performUnit_ts_le {c : CoreId} {n : ChanId} {pos : Int} {s t : State} (h : performUnit c n pos s = .ok t) :
    s.ts.get c ≤ t.ts.get c := by
  obtain ⟨_, htime, rfl⟩ := performUnit_ok.1 h
  rw [triggers_ts, unitDone_ts, State.spend, PerCore.get_set_same, BitVec.le_def, BitVec.toNat_ofNat,
    Nat.mod_eq_of_lt htime]
  exact Nat.le_add_right _ _

theorem tick_ts_le {c : CoreId} {s t : State} (h : tick c s = .ok t) : s.ts.get c ≤ t.ts.get c :=
  tickFrom_induction (P := fun u => s.ts.get c ≤ u.ts.get c) (fun _ _ _ hu hr =>
    run_induction (P := fun u => s.ts.get c ≤ u.ts.get c) hu (fun _ _ hv => hv)
      (fun _ _ _ hv hp => BitVec.le_trans hv (performUnit_ts_le hp)) hr) _ (BitVec.le_refl _) h

theorem Effect.target_eq {i : Instr} {s t : State} (h : Effect s i t) : t.target = s.target := by
  cases h with
  | tick ht => exact (tick_frame ht).target
  | mramDone hbusy ht => exact (tick_frame ht).target
  | _ => rfl

theorem Effect.ts_eq {i : Instr} {s t : State} (h : Effect s i t) (hi : ∀ c, i ≠ .tick c ∧ i ≠ .mramDone c) :
    t.ts = s.ts := by
  cases h with
  | tick ht => exact absurd rfl (hi _).1
  | mramDone hbusy ht => exact absurd rfl (hi _).2
  | _ => rfl

/-- An instruction of core `c` never turns its core's time back, and leaves the other core's alone. -/
theorem Effect.ts_of_core {i : Instr} {s t : State} (h : Effect s i t) {c : CoreId} (hc : coreOf i = some c) :
    s.ts.get c ≤ t.ts.get c ∧ ∀ c', c' ≠ c → t.ts.get c' = s.ts.get c' := by
  cases h with
  | tick ht => cases hc; exact ⟨tick_ts_le ht, (tick_frame ht).ts⟩
  | mramDone hbusy ht => cases hc; exact ⟨(tick_ts_le ht :), (tick_frame ht).ts⟩
  | _ => exact ⟨BitVec.le_refl _, fun _ _ => rfl⟩

/-! ## The calls made (R405) -/

theorem startSet_calls_noIrq (cfg : Config) (c : CoreId) (n : ChanId) (S : ChannelSet) :
    ∀ e ∈ (startSet cfg c n S).2, isIrq e = false := by
  by_cases hr : (S.chan n).running = .idle
  · rw [startSet_calls_of_idle hr]
    simp [isIrq]
  · rw [startSet_running _ _ _ _ hr]
    simp

theorem writeCnt_calls_noIrq (cfg : Config) (c : CoreId) (n : ChanId) (val : Word) (S : ChannelSet) :
    ∀ e ∈ (writeCnt cfg c n val S).2, isIrq e = false := by
  by_cases hedge : (S.chan n).controlWord.getLsbD 31 = false ∧ val.getLsbD 31 = true
  · rw [writeCnt_of_edge hedge.1 hedge.2]
    split_ifs
    · simp [unimplementedLog, isIrq]
    · exact startSet_calls_noIrq cfg c n _
    · simp [isIrq]
    · simp
  · rw [writeCnt_of_no_edge hedge]
    simp

/-- What every Start of a Trigger keeps of the set and the calls so far, the Trigger keeps. -/
theorem triggerSet_induction_calls {cfg : Config} {c : CoreId} {ev : StartEvent} {S : ChannelSet}
    {P : ChannelSet × List Event → Prop} (h0 : P (S, []))
    (hs : ∀ r n, P r → P ((startSet cfg c n r.1).1, r.2 ++ (startSet cfg c n r.1).2)) :
    P (triggerSet cfg c ev S) := by
  have hstep : ∀ r n, P r → P (triggerChan cfg c ev r n) := by
    intro r n hr
    unfold triggerChan
    split
    · exact hs r n hr
    · exact hr
  have hfold : ∀ (l : List ChanId) r, P r → P (l.foldl (triggerChan cfg c ev) r) := by
    intro l
    induction l with
    | nil => exact fun r hr => hr
    | cons n l ih => exact fun r hr => ih _ (hstep r n hr)
  unfold triggerSet
  split
  · exact h0
  · exact hfold _ _ h0

theorem triggerSet_calls_noIrq (cfg : Config) (c : CoreId) (ev : StartEvent) (S : ChannelSet) :
    ∀ e ∈ (triggerSet cfg c ev S).2, isIrq e = false :=
  triggerSet_induction_calls (P := fun r => ∀ e ∈ r.2, isIrq e = false) (by simp) fun r n hr e he =>
    (List.mem_append.1 he).elim (hr e) (startSet_calls_noIrq cfg c n r.1 e)

/-- Only calls are appended to those already made (R26). -/
def AppendsCalls (s t : State) : Prop := ∃ calls, t.events = s.events ++ calls

theorem AppendsCalls.refl (s : State) : AppendsCalls s s := ⟨[], (List.append_nil _).symm⟩

theorem AppendsCalls.trans {s t u : State} (hst : AppendsCalls s t) (htu : AppendsCalls t u) : AppendsCalls s u := by
  obtain ⟨l, hl⟩ := hst
  obtain ⟨r, hr⟩ := htu
  exact ⟨l ++ r, by rw [hr, hl, List.append_assoc]⟩

theorem appendsCalls_onSet (s : State) (c : CoreId) (f : ChannelSet → ChannelSet × List Event) :
    AppendsCalls s (s.onSet c f) := ⟨_, onSet_events s c f⟩

theorem appendsCalls_performUnit {c : CoreId} {n : ChanId} {pos : Int} {s t : State}
    (h : performUnit c n pos s = .ok t) : AppendsCalls s t := by
  obtain ⟨_, _, rfl⟩ := performUnit_ok.1 h
  refine triggers_induction _ ?_ fun u c' ev hu => hu.trans (appendsCalls_onSet u c' _)
  unfold State.unitDone
  rw [AppendsCalls, onSetQuiet_events, moveUnit_events]
  exact ⟨_, rfl⟩

theorem appendsCalls_tick {c : CoreId} {s t : State} (h : tick c s = .ok t) : AppendsCalls s t :=
  tickFrom_induction (P := AppendsCalls s) (fun _ _ _ hu hr => run_induction (P := AppendsCalls s) hu
    (fun v f hv => hv.trans (appendsCalls_onSet v c f))
    (fun _ _ _ hv hp => hv.trans (appendsCalls_performUnit hp)) hr) _ (.refl s) h

/-- Every instruction appends to the calls, and only slices an interrupt. -/
theorem Effect.calls {i : Instr} {s t : State} (h : Effect s i t) :
    ∃ calls : List Event, t.events = s.events ++ calls
      ∧ ((∀ c, i ≠ .tick c ∧ i ≠ .mramDone c) → ∀ e ∈ calls, isIrq e = false) := by
  have hnone : s.events = s.events ++ [] := (List.append_nil _).symm
  cases h with
  | control n val hc => exact ⟨_, rfl, fun _ => writeCnt_calls_noIrq s.cfg _ n val _⟩
  | trig c ev => exact ⟨_, rfl, fun _ => triggerSet_calls_noIrq s.cfg c ev _⟩
  | tick ht =>
    obtain ⟨calls, hcalls⟩ := appendsCalls_tick ht
    exact ⟨calls, hcalls, fun hi => absurd rfl (hi _).1⟩
  | mramDone hbusy ht =>
    obtain ⟨calls, hcalls⟩ := appendsCalls_tick ht
    exact ⟨calls, hcalls.trans (by rw [onSetQuiet_events]), fun hi => absurd rfl (hi _).2⟩
  | _ => exact ⟨[], hnone, by simp⟩

/-! ## The other core (R415) -/

theorem triggers_set_other {c c' : CoreId} (hc : c' ≠ c) (evs : List (CoreId × StartEvent))
    (h : ∀ e ∈ evs, e.1 = c) (s : State) : (s.triggers evs).set c' = s.set c' := by
  induction evs generalizing s with
  | nil => rfl
  | cons e r ih =>
    obtain rfl : e.1 = c := h e List.mem_cons_self
    calc ((s.trigger e.1 e.2).triggers r).set c'
        = (s.trigger e.1 e.2).set c' := ih (fun e' he' => h e' (List.mem_cons_of_mem _ he')) _
      _ = s.set c' := trigger_set_other s e.2 hc

/-- The bus returns start events of core `c` only. -/
def RepliesOnly (c : CoreId) (s : State) : Prop := ∀ r ∈ s.busReplies, ∀ e ∈ r.events, e.1 = c

theorem RepliesOnly.nextReply {c : CoreId} {s : State} (h : RepliesOnly c s) :
    ∀ e ∈ s.nextReply.events, e.1 = c := by
  unfold State.nextReply
  cases hr : s.busReplies with
  | nil => simp
  | cons r l => exact h r (hr ▸ List.mem_cons_self)

/-- A unit leaves the other core's set alone where the bus returns no start event for it (R312). -/
theorem performUnit_set_other {c c' : CoreId} (hc : c' ≠ c) {n : ChanId} {pos : Int} {s t : State}
    (hr : RepliesOnly c s) (h : performUnit c n pos s = .ok t) : t.set c' = s.set c' ∧ RepliesOnly c t := by
  obtain ⟨_, _, rfl⟩ := performUnit_ok.1 h
  refine ⟨?_, fun r hmem => ?_⟩
  · rw [triggers_set_other hc _ hr.nextReply, unitDone_set_other _ _ _ _ hc]
  · rw [triggers_busReplies, State.unitDone, onSetQuiet_busReplies, moveUnit_busReplies] at hmem
    exact hr r (List.mem_of_mem_tail hmem)

theorem tick_set_other {c c' : CoreId} (hc : c' ≠ c) {s t : State} (hr : RepliesOnly c s) (h : tick c s = .ok t) :
    t.set c' = s.set c' := by
  refine (tickFrom_induction (P := fun u => u.set c' = s.set c' ∧ RepliesOnly c u) (fun n u u1 hu hrun =>
    run_induction (P := fun u => u.set c' = s.set c' ∧ RepliesOnly c u) hu ?_ ?_ hrun) _ ⟨rfl, hr⟩ h).1
  · rintro v f ⟨hset, hrep⟩
    exact ⟨(onSet_set_other v c f hc).trans hset, hrep⟩
  · rintro pos v v' ⟨hset, hrep⟩ hunit
    obtain ⟨hset', hrep'⟩ := performUnit_set_other hc hrep hunit
    exact ⟨hset'.trans hset, hrep'⟩

/-- An instruction of core `c` leaves the other core's set and memory alone. -/
theorem Effect.other_core {i : Instr} {s t : State} (h : Effect s i t) {c c' : CoreId} (hc : c' ≠ c)
    (hi : coreOf i = some c) (hr : (i = .tick c ∨ i = .mramDone c) → RepliesOnly c s) :
    t.set c' = s.set c' ∧ t.mem.get c' = s.mem.get c' := by
  cases h with
  | answer words => exact ⟨rfl, rfl⟩
  | writeSad c0 n be d => cases hi; exact ⟨PerCore.get_set_other _ _ hc, rfl⟩
  | writeDad c0 n be d => cases hi; exact ⟨PerCore.get_set_other _ _ hc, rfl⟩
  | control n val hc0 =>
    obtain rfl := Option.some.inj (hc0.symm.trans hi)
    exact ⟨onSet_set_other s _ _ hc, rfl⟩
  | trig c0 ev => cases hi; exact ⟨onSet_set_other s c _ hc, rfl⟩
  | tick ht =>
    cases hi
    exact ⟨tick_set_other hc (hr (.inl rfl)) ht, (tick_frame ht).mem c' hc⟩
  | emptySlot c0 => exact ⟨rfl, rfl⟩
  | mramDone hbusy ht =>
    cases hi
    have hkept : RepliesOnly c (s.onSetQuiet c commitSlot) := hr (.inr rfl)
    exact ⟨(tick_set_other hc hkept ht).trans (onSetQuiet_set_other s c _ hc), (tick_frame ht).mem c' hc⟩
  | xstall c0 n => cases hi; exact ⟨PerCore.get_set_other _ _ hc, rfl⟩
  | reset => cases hi
  | restore h => cases hi
  | refused vec => cases hi

/-! ## The base addresses (R31, R32) -/

theorem Effect.bases {i : Instr} {s t : State} (h : Effect s i t) (hreset : i ≠ .resetBlock)
    (hrestore : ∀ vec, i ≠ .restore vec) (c : CoreId) (n : ChanId) :
    ((∀ be d, i ≠ .wrSad c n be d) → (t.chan c n).srcAddr = (s.chan c n).srcAddr)
      ∧ ((∀ be d, i ≠ .wrDad c n be d) → (t.chan c n).dstAddr = (s.chan c n).dstAddr) := by
  have hkept : BasesKept s t →
      ((∀ be d, i ≠ .wrSad c n be d) → (t.chan c n).srcAddr = (s.chan c n).srcAddr)
        ∧ ((∀ be d, i ≠ .wrDad c n be d) → (t.chan c n).dstAddr = (s.chan c n).dstAddr) :=
    fun hb => ⟨fun _ => (hb c n).srcAddr, fun _ => (hb c n).dstAddr⟩
  cases h with
  | answer words => exact ⟨fun _ => rfl, fun _ => rfl⟩
  | writeSad c0 n0 be d =>
    rw [chan_putChan]
    split
    next hcn => obtain ⟨rfl, rfl⟩ := hcn; exact ⟨fun hi => absurd rfl (hi be d), fun _ => rfl⟩
    next => exact ⟨fun _ => rfl, fun _ => rfl⟩
  | writeDad c0 n0 be d =>
    rw [chan_putChan]
    split
    next hcn => obtain ⟨rfl, rfl⟩ := hcn; exact ⟨fun _ => rfl, fun hi => absurd rfl (hi be d)⟩
    next => exact ⟨fun _ => rfl, fun _ => rfl⟩
  | control n0 val hc0 => exact hkept (basesKept_writeControl s _ n0 val)
  | trig c0 ev => exact hkept (basesKept_trigger s c0 ev)
  | tick ht => exact hkept (basesKept_tick ht)
  | emptySlot c0 => exact ⟨fun _ => rfl, fun _ => rfl⟩
  | mramDone hbusy ht => exact hkept (basesKept_mramDone ht)
  | xstall c0 n0 =>
    rw [chan_putChan]
    split
    next hcn => obtain ⟨rfl, rfl⟩ := hcn; exact ⟨fun _ => rfl, fun _ => rfl⟩
    next => exact ⟨fun _ => rfl, fun _ => rfl⟩
  | reset => exact absurd rfl hreset
  | restore h => exact absurd rfl (hrestore _)
  | refused vec => exact absurd rfl (hrestore _)

end Machine

open Machine

/-- Settles O54. -/
theorem everyStepKeepsTheInvariant : Obligations.EveryStepKeepsTheInvariant :=
  fun _ _ hs h => step_induction hs (fun _ _ hs => hs.of_sets_eq rfl (fun _ => rfl) hs.memory)
    (fun _ _ hs he => hs.otherEffect he) (fun _ _ _ hs he => hs.effect he) h

/-- Settles O53. A channel after reset is idle with its counts at 0, the slot is empty, and the tables list nothing. -/
theorem resetStateMeetsInvariant : Obligations.ResetStateMeetsInvariant where
  sets c :=
    { chans := fun n => by
        rw [chan_reset]
        refine ⟨Nat.zero_le _, BitVec.le_refl _, fun hr => absurd rfl hr, ?_, rfl, rfl⟩
        cases c <;> rfl
      slot_ok := by cases c <;> rfl
      share_form := by cases c <;> rfl
      share_banks := by cases c <;> exact fun p hp => absurd hp List.not_mem_nil }
  waiting c := by cases c <;> rfl
  memory := reset_memory_wf

/-- Settles O55. -/
theorem stepKeepsConfigurationAndIdentity : Obligations.StepKeepsConfigurationAndIdentity := by
  intro s t h
  have hkept : t.cfg = s.cfg ∧ IdentityKept s t := by
    refine step_induction (P := fun u => u.cfg = s.cfg ∧ IdentityKept s u) ⟨rfl, fun _ _ => ⟨rfl, rfl⟩⟩
      (fun _ _ hs => hs) ?_ ?_ h
    · rintro s1 u ⟨hcfg, hid⟩ he
      obtain ⟨hcfg', hid'⟩ := he.cfg_identity
      exact ⟨hcfg'.trans hcfg, fun c n => ⟨(hid' c n).1.trans (hid c n).1, (hid' c n).2.trans (hid c n).2⟩⟩
    · rintro i s1 u ⟨hcfg, hid⟩ he
      obtain ⟨hcfg', hid'⟩ := he.cfg_identity
      exact ⟨hcfg'.trans hcfg, fun c n => ⟨(hid' c n).1.trans (hid c n).1, (hid' c n).2.trans (hid c n).2⟩⟩
  obtain ⟨hcfg, hid⟩ := hkept
  refine ⟨hcfg, fun c n ⟨hcore, hnumber⟩ => ?_⟩
  obtain ⟨hcore', hnumber'⟩ := hid c n
  exact ⟨hcore'.trans hcore, hnumber'.trans hnumber⟩

/-- Settles O56. -/
theorem onlySlicesSpendTime : Obligations.OnlySlicesSpendTime := by
  intro i s t h
  have he := effect_of_exec h
  exact ⟨he.target_eq, he.ts_eq, fun c hi => he.ts_of_core (by rcases hi with rfl | rfl <;> rfl)⟩

/-- Settles O57. -/
theorem onlySlicesRaiseInterrupts : Obligations.OnlySlicesRaiseInterrupts :=
  fun _ _ _ h => (effect_of_exec h).calls

/-- Settles O58. -/
theorem onlyRegisterWritesChangeBases : Obligations.OnlyRegisterWritesChangeBases :=
  fun _ _ _ c n h hreset hrestore => (effect_of_exec h).bases hreset hrestore c n

/-- Settles O59. -/
theorem otherCoreIsUntouched : Obligations.OtherCoreIsUntouched := by
  intro i s t c c' hc hi hr h
  have he := effect_of_exec h
  obtain ⟨hset, hmem⟩ := he.other_core hc hi hr
  exact ⟨hset, (he.ts_of_core hi).2 c' hc, hmem⟩

end Sys2Proof
end

section
/-!
# Bus memory (20_memory.md R26, R100, R103)

A unit written reads back: its bytes are the value's bytes, and put together again they are the value.
-/
namespace Sys2Proof
namespace Machine

theorem bytes_append_word (v : Word) :
    (bitField 24 8 v ++ bitField 16 8 v ++ bitField 8 8 v ++ bitField 0 8 v : BitVec (8 + 8 + 8 + 8)) = v := by
  simp (disch := rfl) only [bitField, BitVec.extractLsb'_append_extractLsb'_eq_extractLsb']
  exact BitVec.extractLsb'_eq_self

theorem bytes_append_half (v : Word) : (bitField 8 8 v ++ bitField 0 8 v).setWidth 32 = v &&& 0xFFFF := by
  have hmask : (v &&& 0xFFFF).toNat = v.toNat % 2 ^ 16 := by
    rw [BitVec.toNat_and]
    exact Nat.and_two_pow_sub_one_eq_mod v.toNat 16
  apply BitVec.eq_of_toNat_eq
  simp (disch := rfl) only [bitField, BitVec.extractLsb'_append_extractLsb'_eq_extractLsb']
  rw [hmask, BitVec.toNat_setWidth, BitVec.extractLsb'_toNat, Nat.shiftRight_zero]
  omega

/-- A unit reads back as it was written, cut to its width (R26). -/
theorem readUnit_writeUnit {m : List Host.Cell} (a : Word) (w : UnitWidth) (v : Word) (h : Memory.wf m = true) :
    readUnit (writeUnit m a w v) a w = truncUnit w v := by
  have hbyte := fun k hk => readByte_writeUnit_same a w v h (k := k) hk
  have h0 : readByte (writeUnit m a w v) a = bitField 0 8 v := by
    simpa only [BitVec.ofNat_eq_ofNat, BitVec.add_zero] using hbyte 0 (by cases w <;> decide)
  have h1 : readByte (writeUnit m a w v) (a + 1) = bitField 8 8 v := hbyte 1 (by cases w <;> decide)
  cases w with
  | w16 =>
    rw [readUnit, h0, h1]
    exact bytes_append_half v
  | w32 =>
    have h2 : readByte (writeUnit m a .w32 v) (a + 2) = bitField 16 8 v := hbyte 2 (by decide)
    have h3 : readByte (writeUnit m a .w32 v) (a + 3) = bitField 24 8 v := hbyte 3 (by decide)
    rw [readUnit, h0, h1, h2, h3]
    exact bytes_append_word v

end Machine

open Machine

/-- Settles O60. -/
theorem unitReadsBackAsWritten : Obligations.UnitReadsBackAsWritten :=
  fun _ a w v h => ⟨readUnit_writeUnit a w v h, writeUnit_wf a w v h, fun _ => readByte_writeUnit_other w v h⟩

end Sys2Proof
end

section
/-!
# CNT writes and the control-word rows (40_register_interface.md R203 to R213, 30_encoding.md R141 to R157)

A row that is well formed carries its code in its word, so that it is the full-width CNT write of the word it is given.
What such a write latches is then read off the code.
-/
namespace Sys2Proof
namespace Machine

/-! ## CNT writes (R203 to R212) -/

/-- R211, R212: a write without a 0-to-1 enable replaces the word and nothing else. -/
theorem writeControl_of_no_edge {s : State} {c : CoreId} {n : ChanId} {val : Word} (h : ¬ EnableEdge s c n val) :
    s.writeControl c n val = s.putChan c n { s.chan c n with controlWord := val } := by
  have hset : writeCnt s.cfg c n val (s.set c) = _ := writeCnt_of_no_edge h
  rw [writeControl_eq_putSet, hset, List.append_nil]
  rfl

/-- R209: a write that enables a deferred mode latches, and notifies the FIFO in GX_FIFO mode. -/
theorem writeControl_deferred {s : State} {c : CoreId} {n : ChanId} {val : Word} (h : EnableEdge s c n val)
    (hmode : decodeStart (s.cfg.variant.get c) val ≠ .immediate)
    (himpl : decodeStart (s.cfg.variant.get c) val ∉ s.cfg.unimplementedModes) :
    s.writeControl c n val = { s.putChan c n (Latched s.cfg c val (s.chan c n)) with
      events := s.events
        ++ (if decodeStart (s.cfg.variant.get c) val = .gxFifo then [Event.notifyFifo c] else []) } := by
  have hset : writeCnt s.cfg c n val (s.set c) = _ := writeCnt_deferred h.1 h.2 hmode himpl
  rw [writeControl_eq_putSet, hset]
  rfl

/-- A write that enables leaves the latches (R205 to R207), whatever it starts. -/
theorem writeControl_chan_of_edge {s : State} {c : CoreId} {n : ChanId} {val : Word} (h : EnableEdge s c n val) :
    SameButTransfer (Latched s.cfg c val (s.chan c n)) ((s.writeControl c n val).chan c n) := by
  rw [writeControl_chan_same]
  exact writeCnt_chan_of_edge h.1 h.2

/-- The word of a write stands at its end (R203). -/
theorem writeControl_controlWord (s : State) (c : CoreId) (n : ChanId) (val : Word) :
    ((s.writeControl c n val).chan c n).controlWord = val := by
  by_cases h : EnableEdge s c n val
  · rw [writeControl_chan_of_edge h]
    rfl
  · rw [writeControl_of_no_edge h, chan_putChan, if_pos ⟨rfl, rfl⟩]

/-- WR CNT with every byte enabled writes its word (R203). -/
theorem exec_wrCnt_all (s : State) (c : CoreId) (n : ChanId) (w : Word) :
    exec (.wrCnt c n 0xF w) s = .next (s.writeControl c n w) := by
  show execWrCnt c n 0xF w s = _
  rw [execWrCnt, mergeBytes_all]

/-! ## The rows -/

/-- A word with the code `code` in its bits `[lo+len-1 : lo]` is that of the row whose mask has these bits. -/
theorem rowWord_of_bitField {lo len : Nat} {mask code w : Word}
    (hf : bitField lo len w = bitField lo len code)
    (hmask : ∀ i : Fin 32, mask.getLsbD i = decide (lo ≤ i.val ∧ i.val < lo + len))
    (hcode : code &&& mask = code) : rowWord mask code w = w := by
  apply rowWord_eq
  rw [← hcode]
  apply BitVec.eq_of_getLsbD_eq
  intro i hi
  rw [BitVec.getLsbD_and, BitVec.getLsbD_and, hmask ⟨i, hi⟩]
  by_cases hin : lo ≤ i ∧ i < lo + len
  · rw [getLsbD_eq_of_bitField hf hin.1 hin.2]
  · simp [hin]

/-- A well-formed row is the CNT write of the word it is given: the word has the row's code already. -/
theorem exec_row {i : Instr} {s : State} {c : CoreId} {n : ChanId} {f : CntField} {w : Word}
    (hrow : encode i = .control c n f w) (hwf : i.wellFormed s.cfg = true) :
    exec i s = .next (s.writeControl c n w) := by
  have hword : ∀ {mask code : Word}, rowWord mask code w = w →
      Host.Outcome.next (s.writeControl c n (rowWord mask code w)) = Host.Outcome.next (s.writeControl c n w)
        (φ := Fault) (ρ := Refusal) := fun h => by rw [h]
  cases i with
  | cntStartImmediateWide | cntStartVblankWide | cntStartHblankWide | cntStartDisplayStartWide
  | cntStartMainMemDisplayWide | cntStartCartWide | cntStartGbaSlotWide | cntStartGxFifoWide =>
    cases hrow
    exact hword (rowWord_of_bitField (lo := 27) (len := 3) (startRowOk_iff.1 hwf).2 (by decide) rfl)
  | cntStartImmediateNarrow | cntStartVblankNarrow | cntStartCartNarrow | cntStartWifiGbaNarrow =>
    cases hrow
    exact hword (rowWord_of_bitField (lo := 28) (len := 2) (startRowOk_iff.1 hwf).2 (by decide) rfl)
  | cntDstIncrement | cntDstDecrement | cntDstFixed | cntDstIncrementReload =>
    cases hrow
    exact hword (rowWord_of_bitField (lo := 21) (len := 2) (of_decide_eq_true hwf) (by decide) rfl)
  | cntSrcIncrement | cntSrcDecrement | cntSrcFixed | cntSrcReservedAsIncrement =>
    cases hrow
    exact hword (rowWord_of_bitField (lo := 23) (len := 2) (of_decide_eq_true hwf) (by decide) rfl)
  | cntWidth16 | cntWidth32 =>
    cases hrow
    exact hword (rowWord_of_bitField (lo := 26) (len := 1) (of_decide_eq_true hwf) (by decide) rfl)
  | cntRepeat =>
    cases hrow
    exact hword (rowWord_of_bitField (lo := 25) (len := 1) (of_decide_eq_true hwf) (by decide) rfl)
  | cntIrqEn =>
    cases hrow
    exact hword (rowWord_of_bitField (lo := 30) (len := 1) (of_decide_eq_true hwf) (by decide) rfl)
  | cntEnable =>
    cases hrow
    exact hword (rowWord_of_bitField (lo := 31) (len := 1) (of_decide_eq_true hwf) (by decide) rfl)
  | cntCount =>
    cases hrow
    exact hword (rowWord_eq (BitVec.and_zero))
  | _ => cases hrow

/-- A well-formed row and WR CNT of its word leave the same state. -/
theorem exec_row_and_wrCnt {i : Instr} {s : State} {c : CoreId} {n : ChanId} {f : CntField} {w : Word}
    {P : State → Prop} (hrow : encode i = .control c n f w) (hwf : i.wellFormed s.cfg = true)
    (hP : P (s.writeControl c n w)) : ∃ t, exec i s = .next t ∧ exec (.wrCnt c n 0xF w) s = .next t ∧ P t :=
  ⟨_, exec_row hrow hwf, exec_wrCnt_all s c n w, hP⟩

/-- The event of a start code (R155, R156). -/
theorem decodeStart_wide {w : Word} {code : BitVec 3} (h : bitField 27 3 w = code) :
    decodeStart .wide w = wideStart code.toNat := by
  rw [← h]; rfl

theorem decodeStart_narrow {w : Word} {code : BitVec 2} (h : bitField 28 2 w = code) :
    decodeStart .narrow w = narrowStart code.toNat := by
  rw [← h]; rfl

/-- The increment codes of a destination row (R151), and of a source row (R152). -/
theorem dstIncOf_of_code {w : Word} {code : BitVec 2} (h : bitField 21 2 w = code) :
    dstIncOf w = if code = 1 then .down else if code = 2 then .fixed else .up := by
  rw [dstIncOf_eq, h]

theorem srcIncOf_of_code {w : Word} {code : BitVec 2} (h : bitField 23 2 w = code) :
    srcIncOf w = if code = 1 then .down else if code = 2 then .fixed else .up := by
  rw [srcIncOf_eq, h]

end Machine

open Machine

/-- Settles O11. -/
theorem wrCntWithoutEnableEdgeOnlyStores : Obligations.WrCntWithoutEnableEdgeOnlyStores := by
  intro s c n be d m hm hedge
  rw [exec_wrCnt hm, writeControl_of_no_edge hedge]

/-- Settles O13. -/
theorem enablingWriteOfDeferredModeArms : Obligations.EnablingWriteOfDeferredModeArms := by
  rintro s c n be d m _ hm hedge rfl hmode himpl
  rw [exec_wrCnt hm, writeControl_deferred hedge hmode himpl]

/-- Settles O17: every row is a CNT write of its word. -/
theorem controlRowsOnlyStoreWithoutEnableEdge : Obligations.ControlRowsOnlyStoreWithoutEnableEdge := by
  intro s c n w i hi hwf hedge
  have hrow : ∃ f, encode i = .control c n f w := by
    revert i
    simp [encode]
  obtain ⟨f, hrow⟩ := hrow
  rw [exec_row hrow hwf, writeControl_of_no_edge hedge]

/-- Settles O18: the row's code is that of its event in the core's layout. -/
theorem startRowsLatchTheirEvent : Obligations.StartRowsLatchTheirEvent := by
  intro s c n w i ev hi hwf hedge
  have hrow : encode i = .control c n .start w ∧ decodeStart (s.cfg.variant.get c) w = ev := by
    simp only [List.mem_cons, Prod.mk.injEq, List.not_mem_nil, or_false] at hi
    obtain ⟨rfl, rfl⟩ | ⟨rfl, rfl⟩ | ⟨rfl, rfl⟩ | ⟨rfl, rfl⟩ | ⟨rfl, rfl⟩ | ⟨rfl, rfl⟩ | ⟨rfl, rfl⟩ | ⟨rfl, rfl⟩
      | ⟨rfl, rfl⟩ | ⟨rfl, rfl⟩ | ⟨rfl, rfl⟩ | ⟨rfl, rfl⟩ := hi
    all_goals
      obtain ⟨hv, hcode⟩ := startRowOk_iff.1 hwf
      rw [hv]
    iterate 8 exact ⟨rfl, decodeStart_wide hcode⟩
    iterate 4 exact ⟨rfl, decodeStart_narrow hcode⟩
  obtain ⟨hrow, hmode⟩ := hrow
  refine exec_row_and_wrCnt hrow hwf (P := fun t => (t.chan c n).startMode = ev ∧ (t.chan c n).controlWord = w)
    ⟨?_, writeControl_controlWord s c n w⟩
  rw [writeControl_chan_of_edge hedge]
  exact hmode

/-- Settles O19: the row's code is that of its increment. -/
theorem incrementRowsLatchTheirIncrement : Obligations.IncrementRowsLatchTheirIncrement := by
  intro s c n w i inc hedge hwf
  refine ⟨fun hi => ?_, fun hi => ?_⟩
  · have hrow : encode i = .control c n .dst w ∧ dstIncOf w = inc := by
      simp only [List.mem_cons, Prod.mk.injEq, List.not_mem_nil, or_false] at hi
      obtain ⟨rfl, rfl⟩ | ⟨rfl, rfl⟩ | ⟨rfl, rfl⟩ | ⟨rfl, rfl⟩ := hi <;>
        exact ⟨rfl, dstIncOf_of_code (of_decide_eq_true hwf)⟩
    obtain ⟨hrow, hinc⟩ := hrow
    refine exec_row_and_wrCnt hrow hwf (P := fun t => (t.chan c n).dstInc = inc) ?_
    rw [writeControl_chan_of_edge hedge]
    exact hinc
  · have hrow : encode i = .control c n .src w ∧ srcIncOf w = inc := by
      simp only [List.mem_cons, Prod.mk.injEq, List.not_mem_nil, or_false] at hi
      obtain ⟨rfl, rfl⟩ | ⟨rfl, rfl⟩ | ⟨rfl, rfl⟩ | ⟨rfl, rfl⟩ := hi <;>
        exact ⟨rfl, srcIncOf_of_code (of_decide_eq_true hwf)⟩
    obtain ⟨hrow, hinc⟩ := hrow
    refine exec_row_and_wrCnt hrow hwf (P := fun t => (t.chan c n).srcInc = inc) ?_
    rw [writeControl_chan_of_edge hedge]
    exact hinc

/-- Settles O20: the word stands, and each field is read off it. -/
theorem liveFieldRowsSetTheirField : Obligations.LiveFieldRowsSetTheirField := by
  intro s c n w
  have hflag : ∀ k, bitField k 1 w = 1 → w.getLsbD k = true := fun k h => by
    rw [← bitField_one_eq, h]
    rfl
  have hlive : ∀ (i : Instr) (f : CntField) (Q : Word → Prop), encode i = .control c n f w →
      i.wellFormed s.cfg = true → Q w → ∃ t : State, exec i s = .next t ∧ exec (.wrCnt c n 0xF w) s = .next t
        ∧ Q (t.chan c n).controlWord := fun i f Q hrow hwf hQ =>
    exec_row_and_wrCnt hrow hwf (P := fun t => Q (t.chan c n).controlWord)
      (by rw [writeControl_controlWord]; exact hQ)
  refine ⟨fun hwf => hlive _ _ (widthOf · = .w16) rfl hwf ?_, fun hwf => hlive _ _ (widthOf · = .w32) rfl hwf ?_,
    fun hwf => hlive _ _ (·.getLsbD 25 = true) rfl hwf (hflag 25 (of_decide_eq_true hwf)),
    fun hwf => hlive _ _ (·.getLsbD 30 = true) rfl hwf (hflag 30 (of_decide_eq_true hwf)),
    fun hwf => hlive _ _ (·.getLsbD 31 = true) rfl hwf (hflag 31 (of_decide_eq_true hwf)),
    hlive _ _ (fun x => (countField s.cfg c n x).toNat = w.toNat % 2 ^ ((s.cfg.countBits.get c).get n).val) rfl rfl
      (countField_toNat s.cfg c n w)⟩
  · have hbit : bitField 26 1 w = 0 := of_decide_eq_true hwf
    rw [widthOf, hbit]
    rfl
  · have hbit : bitField 26 1 w = 1 := of_decide_eq_true hwf
    rw [widthOf, hbit]
    rfl

end Sys2Proof
end

section
/-!
# TRIG (41_start_trigger.md R230 to R232)

A Start changes neither the control word nor the start mode of any channel, so the channels a TRIG starts are those
that wait for the event when it comes: a TRIG is the Starts of these channels, in priority order.
-/
namespace Sys2Proof
namespace Machine

/-! ## The channels a TRIG starts -/

/-- Channel `n` of the set waits for the event (R231). -/
def waitsFor (ev : StartEvent) (S : ChannelSet) (n : ChanId) : Bool :=
  enableBit (S.chan n).controlWord && decide ((S.chan n).startMode = ev)

theorem waitsFor_iff {s : State} {c : CoreId} {n : ChanId} {ev : StartEvent} :
    waitsFor ev (s.set c) n = true ↔ ArmedOn s c n ev := by
  rw [waitsFor, enableBit_eq, Bool.and_eq_true_iff, decide_eq_true_iff]
  rfl

/-- A Start as one of several, its calls appended. -/
def startNext (cfg : Config) (c : CoreId) (r : ChannelSet × List Event) (n : ChanId) : ChannelSet × List Event :=
  ((startSet cfg c n r.1).1, r.2 ++ (startSet cfg c n r.1).2)

theorem triggerChan_eq (cfg : Config) (c : CoreId) (ev : StartEvent) (r : ChannelSet × List Event) (n : ChanId) :
    triggerChan cfg c ev r n = if waitsFor ev r.1 n then startNext cfg c r n else r := rfl

/-- A Start leaves every channel's control word and start mode (R233). -/
theorem startSet_waitsFor (cfg : Config) (c : CoreId) (n m : ChanId) (ev : StartEvent) (S : ChannelSet) :
    waitsFor ev (startSet cfg c n S).1 m = waitsFor ev S m := by
  have hkept : ((startSet cfg c n S).1.chan m).controlWord = (S.chan m).controlWord
      ∧ ((startSet cfg c n S).1.chan m).startMode = (S.chan m).startMode := by
    by_cases hr : (S.chan n).running = .idle
    · by_cases hm : m = n
      · subst hm; rw [startSet_chan_same_of_idle hr]; exact ⟨rfl, rfl⟩
      · rw [startSet_chan_other_of_idle hr hm]; exact ⟨rfl, rfl⟩
    · rw [startSet_running _ _ _ _ hr]
      show ((startRunning cfg n S).chan m).controlWord = _ ∧ ((startRunning cfg n S).chan m).startMode = _
      rw [startRunning_chan]
      split
      next h => obtain ⟨rfl, -⟩ := h; exact ⟨rfl, rfl⟩
      next => exact ⟨rfl, rfl⟩
  rw [waitsFor, waitsFor, hkept.1, hkept.2]

theorem foldl_triggerChan (cfg : Config) (c : CoreId) (ev : StartEvent) (S : ChannelSet) (l : List ChanId)
    (r : ChannelSet × List Event) (h : ∀ n, waitsFor ev r.1 n = waitsFor ev S n) :
    l.foldl (triggerChan cfg c ev) r = (l.filter (waitsFor ev S)).foldl (startNext cfg c) r := by
  induction l generalizing r with
  | nil => rfl
  | cons n l ih =>
    rw [List.foldl_cons, triggerChan_eq, h n]
    by_cases hn : waitsFor ev S n = true
    · rw [if_pos hn, List.filter_cons_of_pos hn, List.foldl_cons]
      exact ih _ fun m => (startSet_waitsFor cfg c n m ev r.1).trans (h m)
    · rw [if_neg hn, List.filter_cons_of_neg hn]
      exact ih r h

/-- A TRIG that R232 does not drop starts the channels that wait for it, in priority order (R230). -/
theorem triggerSet_eq_starts {cfg : Config} {ev : StartEvent} (c : CoreId) (S : ChannelSet)
    (himm : ev ≠ .immediate) (himpl : ev ∉ cfg.unimplementedModes) :
    triggerSet cfg c ev S = (allChans.filter (waitsFor ev S)).foldl (startNext cfg c) (S, []) := by
  rw [triggerSet, if_neg (by tauto)]
  exact foldl_triggerChan cfg c ev S allChans (S, []) fun _ => rfl

theorem mem_allChans (n : ChanId) : n ∈ allChans := by cases n <;> decide

theorem nodup_allChans : allChans.Nodup := by decide

theorem filter_allChans_of_only {p : ChanId → Bool} {n : ChanId} (hn : p n = true) (ho : ∀ m, m ≠ n → p m = false) :
    allChans.filter p = [n] := by
  have hp : p = fun m => decide (m = n) := by
    funext m
    by_cases hm : m = n
    · rw [hm, hn, decide_eq_true rfl]
    · rw [ho m hm, decide_eq_false hm]
  rw [hp]
  cases n <;> rfl

/-! ## What a sequence of Starts leaves of a channel -/

/-- The channel `after` is `before` but for what other channels' Starts change: a marker that is idle exactly if it was,
and a stall request (R240, R241). -/
def OthersStarted (before after : Channel) : Prop :=
  ∃ r x, after = { before with running := r, extStall := x } ∧ (r = .idle ↔ before.running = .idle)

theorem OthersStarted.refl (ch : Channel) : OthersStarted ch ch := ⟨_, _, rfl, Iff.rfl⟩

theorem OthersStarted.trans {a b d : Channel} (hab : OthersStarted a b) (hbd : OthersStarted b d) :
    OthersStarted a d := by
  obtain ⟨_, _, rfl, hab⟩ := hab
  obtain ⟨r, x, rfl, hbd⟩ := hbd
  exact ⟨r, x, rfl, hbd.trans hab⟩

theorem OthersStarted.running {a b : Channel} (h : OthersStarted a b) : b.running = .idle ↔ a.running = .idle := by
  obtain ⟨r, x, rfl, h⟩ := h
  exact h

section
variable {cfg : Config} {c : CoreId}

/-- The Start of another channel: the marker, the stall request, neither a wait bit nor a Stall call (R240 to R242). -/
theorem startNext_other {m n : ChanId} (h : n ≠ m) (r : ChannelSet × List Event) :
    OthersStarted (r.1.chan n) ((startNext cfg c r m).1.chan n)
      ∧ (startNext cfg c r m).1.stallBits.getLsbD n.toNat = r.1.stallBits.getLsbD n.toNat
      ∧ (Event.stall c (1 <<< n.toNat) ∈ (startNext cfg c r m).2 ↔ Event.stall c (1 <<< n.toNat) ∈ r.2) := by
  by_cases hr : (r.1.chan m).running = .idle
  · have hbit : (chanMask m).getLsbD n.toNat = false := by cases n <;> cases m <;> first | rfl | exact absurd rfl h
    have hcall : Event.stall c (1 <<< n.toNat) ≠ Event.stall c (1 <<< m.toNat) := by
      cases n <;> cases m <;> first | exact absurd rfl h | (cases c <;> decide)
    refine ⟨?_, ?_, ?_⟩
    · rw [startNext, startSet_chan_other_of_idle hr h]
      exact ⟨_, _, rfl, afterOtherStart_running (e := r.1.executing)⟩
    · rw [startNext, startSet_stallBits_of_idle hr, BitVec.getLsbD_or, hbit, Bool.or_false]
    · rw [startNext, startSet_calls_of_idle hr, List.mem_append, List.mem_singleton]
      exact or_iff_left hcall
  · rw [startNext, startSet_running _ _ _ _ hr]
    refine ⟨?_, by rw [startRunning_stallBits], by simp⟩
    rw [startRunning_chan, if_neg fun hn => h hn.1]
    exact .refl _

/-- The Starts of other channels, one after another. -/
theorem foldl_startNext_other {n : ChanId} (l : List ChanId) (h : n ∉ l) (r : ChannelSet × List Event) :
    OthersStarted (r.1.chan n) ((l.foldl (startNext cfg c) r).1.chan n)
      ∧ (l.foldl (startNext cfg c) r).1.stallBits.getLsbD n.toNat = r.1.stallBits.getLsbD n.toNat
      ∧ (Event.stall c (1 <<< n.toNat) ∈ (l.foldl (startNext cfg c) r).2 ↔ Event.stall c (1 <<< n.toNat) ∈ r.2) := by
  induction l generalizing r with
  | nil => exact ⟨.refl _, rfl, Iff.rfl⟩
  | cons m l ih =>
    obtain ⟨hm, hl⟩ := not_or.1 (mt List.mem_cons.2 h)
    obtain ⟨hchan, hbit, hcall⟩ := startNext_other (cfg := cfg) (c := c) hm r
    obtain ⟨hchan', hbit', hcall'⟩ := ih hl (startNext cfg c r m)
    exact ⟨hchan.trans hchan', hbit'.trans hbit, hcall'.trans hcall⟩

/-- The Starts of channels among which is `n`: other Starts, that of `n`, and other Starts again. -/
theorem foldl_startNext_split {n : ChanId} {l : List ChanId} (hn : n ∈ l) (hl : l.Nodup)
    (r : ChannelSet × List Event) : ∃ a b : List ChanId, n ∉ a ∧ n ∉ b ∧
      l.foldl (startNext cfg c) r = b.foldl (startNext cfg c) (startNext cfg c (a.foldl (startNext cfg c) r) n) := by
  obtain ⟨a, b, rfl⟩ := List.append_of_mem hn
  rw [List.nodup_append] at hl
  obtain ⟨-, hb, hab⟩ := hl
  refine ⟨a, b, fun ha => hab n ha n List.mem_cons_self rfl, (List.nodup_cons.1 hb).1, ?_⟩
  rw [List.foldl_append, List.foldl_cons]

theorem foldl_startNext_slot (l : List ChanId) (r : ChannelSet × List Event) :
    (l.foldl (startNext cfg c) r).1.slot = r.1.slot
      ∧ (l.foldl (startNext cfg c) r).1.executing = r.1.executing := by
  induction l generalizing r with
  | nil => exact ⟨rfl, rfl⟩
  | cons m l ih =>
    obtain ⟨hslot, hexec⟩ := ih (startNext cfg c r m)
    exact ⟨hslot.trans (startSet_slot ..), hexec.trans (startSet_executing ..)⟩

variable {n : ChanId} {l : List ChanId} {S : ChannelSet} (hn : n ∈ l) (hl : l.Nodup)
include hn hl

/-- A channel that waits and is idle is started (R231, R233, R242, R243). -/
theorem foldl_startNext_idle (hidle : (S.chan n).running = .idle) :
    ((l.foldl (startNext cfg c) (S, [])).1.chan n).running ≠ .idle
      ∧ ((l.foldl (startNext cfg c) (S, [])).1.chan n).inProgress = true
      ∧ (l.foldl (startNext cfg c) (S, [])).1.stallBits.getLsbD n.toNat = true
      ∧ Event.stall c (1 <<< n.toNat) ∈ (l.foldl (startNext cfg c) (S, [])).2 := by
  obtain ⟨a, b, ha, hb, hsplit⟩ := foldl_startNext_split (cfg := cfg) (c := c) hn hl (S, [])
  rw [hsplit]
  obtain ⟨hbefore, -, -⟩ := foldl_startNext_other (cfg := cfg) (c := c) a ha (S, [])
  obtain ⟨⟨m, x, hchan, hmark⟩, hbit, hcall⟩ := foldl_startNext_other (cfg := cfg) (c := c) b hb
    (startNext cfg c (a.foldl (startNext cfg c) (S, [])) n)
  generalize a.foldl (startNext cfg c) (S, []) = r at *
  have hr : (r.1.chan n).running = .idle := hbefore.running.2 hidle
  have hself := startSet_chan_same_of_idle (cfg := cfg) (c := c) hr
  refine ⟨?_, ?_, ?_, ?_⟩
  · rw [hchan]
    refine fun h => initialMarker_ne_idle cfg c (shareInvalidate n r.1.share) (beginTransfer cfg c n (r.1.chan n)) ?_
    have := hmark.1 h
    rw [startNext, hself] at this
    exact this
  · rw [hchan]
    show ((startNext cfg c r n).1.chan n).inProgress = true
    rw [startNext, hself]
  · rw [hbit, startNext, startSet_stallBits_of_idle hr, BitVec.getLsbD_or,
      chanMask_bit n (by cases n <;> decide)]
    simp
  · rw [hcall, startNext, startSet_calls_of_idle hr]
    simp

/-- A channel that waits and is Running is queued in a queued mode, and not stalled (R244). -/
theorem foldl_startNext_running (hrun : (S.chan n).running ≠ .idle) :
    (∃ m x, m ≠ Marker.idle ∧ (l.foldl (startNext cfg c) (S, [])).1.chan n = { S.chan n with
        running := m
        extStall := x
        queued := if (S.chan n).startMode ∈ cfg.queueModes then true else (S.chan n).queued })
      ∧ (l.foldl (startNext cfg c) (S, [])).1.stallBits.getLsbD n.toNat = S.stallBits.getLsbD n.toNat
      ∧ Event.stall c (1 <<< n.toNat) ∉ (l.foldl (startNext cfg c) (S, [])).2 := by
  obtain ⟨a, b, ha, hb, hsplit⟩ := foldl_startNext_split (cfg := cfg) (c := c) hn hl (S, [])
  rw [hsplit]
  obtain ⟨hbefore, hbit0, hcall0⟩ := foldl_startNext_other (cfg := cfg) (c := c) a ha (S, [])
  obtain ⟨⟨m, x, hchan, hmark⟩, hbit, hcall⟩ := foldl_startNext_other (cfg := cfg) (c := c) b hb
    (startNext cfg c (a.foldl (startNext cfg c) (S, [])) n)
  generalize a.foldl (startNext cfg c) (S, []) = r at *
  have hr : (r.1.chan n).running ≠ .idle := fun h => hrun (hbefore.running.1 h)
  obtain ⟨m0, x0, hchan0, hmark0⟩ := hbefore
  have hself : (startNext cfg c r n).1.chan n = { r.1.chan n with
      queued := if (r.1.chan n).startMode ∈ cfg.queueModes then true else (r.1.chan n).queued } := by
    rw [startNext, startSet_running _ _ _ _ hr]
    show (startRunning cfg n r.1).chan n = _
    rw [startRunning_chan]
    by_cases hq : (r.1.chan n).startMode ∈ cfg.queueModes <;> simp [hq]
  rw [hself] at hchan hmark
  refine ⟨⟨m, x, fun h => hr (hmark.1 h), ?_⟩, ?_, ?_⟩
  · rw [hchan, hchan0]
  · rw [hbit, startNext, startSet_running _ _ _ _ hr, startRunning_stallBits, hbit0]
  · rw [hcall, startNext, startSet_running _ _ _ _ hr, List.append_nil, hcall0]
    exact List.not_mem_nil

end

theorem trigger_eq_starts {s : State} {ev : StartEvent} (c : CoreId) (himm : ev ≠ .immediate)
    (himpl : ev ∉ s.cfg.unimplementedModes) :
    s.trigger c ev =
      { s.putSet c ((allChans.filter (waitsFor ev (s.set c))).foldl (startNext s.cfg c) (s.set c, [])).1 with
        events := s.events
          ++ ((allChans.filter (waitsFor ev (s.set c))).foldl (startNext s.cfg c) (s.set c, [])).2 } := by
  rw [State.trigger, onSet_eq_putSet, triggerSet_eq_starts c _ himm himpl]

end Machine

open Machine

/-- Settles O28: the only channel that waits is the only one started. -/
theorem trigStartsTheOnlyArmedChannel : Obligations.TrigStartsTheOnlyArmedChannel := by
  intro s c n ev himm himpl harmed hothers
  have honly : allChans.filter (waitsFor ev (s.set c)) = [n] :=
    filter_allChans_of_only (waitsFor_iff.2 harmed) fun m hm =>
      Bool.eq_false_iff.2 (mt waitsFor_iff.1 (hothers m hm))
  show Host.Outcome.next (s.trigger c ev) = _
  rw [trigger_eq_starts c himm himpl, honly]
  rfl

/-- Settles O29: each channel is either among the channels started, idle or Running, or sees only other channels'
Starts. -/
theorem trigStartsExactlyTheArmedChannels : Obligations.TrigStartsExactlyTheArmedChannels := by
  intro s c ev himm himpl
  have hl : (allChans.filter (waitsFor ev (s.set c))).Nodup := nodup_allChans.filter _
  have hmem : ∀ n, n ∈ allChans.filter (waitsFor ev (s.set c)) ↔ ArmedOn s c n ev := fun n => by
    rw [List.mem_filter, waitsFor_iff]
    exact and_iff_right (mem_allChans n)
  obtain ⟨hslot, hexec⟩ := foldl_startNext_slot (cfg := s.cfg) (c := c)
    (allChans.filter (waitsFor ev (s.set c))) (s.set c, [])
  refine ⟨_, _, congrArg Host.Outcome.next (trigger_eq_starts c himm himpl), fun n harmed hidle => ?_,
    fun n harmed hrun => ?_, fun n harmed => ?_, hslot, hexec⟩
  · exact foldl_startNext_idle ((hmem n).2 harmed) hl hidle
  · have hqueued := foldl_startNext_running (cfg := s.cfg) (c := c) ((hmem n).2 harmed) hl hrun
    rwa [show ((s.set c).chan n).startMode = ev from harmed.2] at hqueued
  · obtain ⟨⟨r, x, hchan, hmark⟩, hbit, hcall⟩ := foldl_startNext_other (cfg := s.cfg) (c := c) _
      (mt (hmem n).1 harmed) (s.set c, [])
    exact ⟨⟨r, x, hchan, hmark⟩, hbit, fun h => List.not_mem_nil (hcall.1 h)⟩

end Sys2Proof
end

section
/-!
# The slice (43_run_sequencer.md R300 to R328)

How a TICK that lets a channel enter a slice ends: the loop of the slice takes one of the exits of R304 at its first
unit, and the steps after the loop leave the set that Laws/Slice.lean names. The overflow stops and the ranges in which
there are none stand first.
-/
namespace Sys2Proof
namespace Machine

/-! ## Small facts of the state -/

/-- MRAM_DONE's commit, for the slot as it stands (R322). -/
theorem commitSlot_eq {S : ChannelSet} {w : UnitWidth} {n : ChanId} (h : S.slot = ⟨true, w, n⟩) :
    commitSlot S = { S.setChan n (commitUnit w (S.chan n)) with slot := ⟨false, w, n⟩ } := by
  unfold commitSlot
  rw [h]

/-! ## A TICK at a spent budget (R302) -/

theorem tickFrom_spent {c : CoreId} {s : State} (h : s.target.get c ≤ s.ts.get c) (l : List ChanId) :
    tickFrom c l s = .ok s := by
  induction l with
  | nil => rfl
  | cons n l ih =>
    rw [tickFrom]
    split
    next hs =>
      rw [run_of_runBlocked (runBlocked_iff.2 (.inl h))]
      exact if_pos (selectable_iff.1 hs).1
    next => exact ih

theorem tick_of_spent {c : CoreId} {s : State} (h : s.target.get c ≤ s.ts.get c) : exec (.tick c) s = .next s :=
  congrArg outcome (tickFrom_spent h allChans)

/-! ## The exits of the loop (R304 to R306) -/

section
variable {c : CoreId} {n : ChanId} {k : Nat} {pos : Int} {s : State}

/-- No unit is left in the slice. -/
theorem sliceLoop_cap (h : (s.chan c n).iterationCount = 0) : sliceLoop c n k pos s = .ok (.cap, s) := by
  cases k with
  | zero => rfl
  | succ k => exact if_pos h

theorem sliceLoop_stall (hi : (s.chan c n).iterationCount ≠ 0) (hx : (s.chan c n).extStall = true) :
    sliceLoop c n (k + 1) pos s = .ok (.stall, s) := by
  rw [sliceLoop, if_neg hi, if_pos hx]

theorem sliceLoop_mainRam (hi : (s.chan c n).iterationCount ≠ 0) (hx : (s.chan c n).extStall = false)
    (hm : touchesMainRam s.cfg c (s.chan c n).curSrcAddr (s.chan c n).curDstAddr = true) :
    sliceLoop c n (k + 1) pos s = .ok (.mainRam, s.onSetQuiet c (handOffOrWait s.cfg c n)) := by
  rw [sliceLoop, if_neg hi, if_neg (by simp [hx]), if_pos hm]

/-- A unit that stops the model. -/
theorem sliceLoop_fault {f : Fault} (h : UnitDue s c n) (hu : performUnit c n pos s = .error f) :
    sliceLoop c n (k + 1) pos s = .error f := by
  rw [sliceLoop, if_neg h.unitsLeft, if_neg (by simp [h.notStalled]), if_neg (by simp [h.notMainRam]), hu]

/-- A unit performed, after which the slice ends at the budget or goes on. -/
theorem sliceLoop_unit {s1 : State} (h : UnitDue s c n) (hu : performUnit c n pos s = .ok s1) :
    sliceLoop c n (k + 1) pos s =
      if s1.target.get c ≤ s1.ts.get c then .ok (.budget, s1) else sliceLoop c n k (pos - 1) s1 := by
  rw [sliceLoop, if_neg h.unitsLeft, if_neg (by simp [h.notStalled]), if_neg (by simp [h.notMainRam]), hu]

/-- The last unit of a slice ends it, at the cap or at the budget. -/
theorem sliceLoop_lastUnit {s1 : State} (h : UnitDue s c n) (hu : performUnit c n pos s = .ok s1)
    (hlast : (s1.chan c n).iterationCount = 0) :
    ∃ e, e ≠ .mainRam ∧ sliceLoop c n (k + 1) pos s = .ok (e, s1) := by
  rw [sliceLoop_unit h hu, sliceLoop_cap hlast]
  split
  · exact ⟨.budget, by decide, rfl⟩
  · exact ⟨.cap, by decide, rfl⟩

end

/-- The steps after a loop that did not end in main RAM are those of R317 to R321. -/
theorem finishRun_eq {e : SliceEnd} (he : e ≠ .mainRam) (c : CoreId) (n : ChanId) (s : State) :
    finishRun c n e s = s.onSet c (endSlice s.cfg c n e) := by
  cases e with
  | mainRam => exact absurd rfl he
  | cap => rfl
  | budget => rfl
  | stall => rfl

/-! ## Run's entry -/

theorem UnitDue.enterRun {s : State} {c : CoreId} {n : ChanId} (h : UnitDue s c n) :
    UnitDue (enterRun c n s) c n := by
  obtain ⟨hi, hx, hm⟩ := h
  exact ⟨by rwa [enterRun_chan], by rwa [enterRun_chan], by rwa [enterRun_chan, enterRun_cfg]⟩

/-- The first unit's cost (R280, R307). -/
theorem nextCost_enterRun (s : State) (c : CoreId) (n : ChanId) :
    (enterRun c n s).nextCost c n (firstPos s.cfg (s.chan c n).running) = firstCost s c n := by
  unfold State.nextCost
  rw [enterRun_chan]
  rfl

/-- An operation of the set right after Run's entry. -/
theorem onSet_enterRun (c : CoreId) (n : ChanId) (s : State) (f : ChannelSet → ChannelSet × List Event) :
    (enterRun c n s).onSet c f = { s.putSet c (f { s.set c with executing := some n }).1 with
      events := s.events ++ (f { s.set c with executing := some n }).2 } := by
  rw [onSet_eq_putSet, enterRun_set, enterRun_eq]
  simp [State.putSet]

/-- The loop's bound is not 0 while a unit is left. -/
theorem exists_succ_of_unitsLeft {x : Word} (h : x ≠ 0) : ∃ k, x.toNat = k + 1 :=
  Nat.exists_eq_succ_of_ne_zero fun h0 => h (BitVec.eq_of_toNat_eq h0)

section
variable {s : State} {c : CoreId} {n : ChanId} (h : Enters s c n)
include h

/-- The TICK ends with a Run that leaves its channel Running (R300). -/
theorem Enters.tick_of_running {s1 : State} (hr : run c n s = .ok s1) (hrun : (s1.chan c n).running ≠ .idle) :
    exec (.tick c) s = .next s1 :=
  congrArg outcome (tick_first h.selectable h.first hr (.inl hrun))

theorem Enters.tick_fault {f : Fault} (hdue : UnitDue s c n)
    (hu : performUnit c n (firstPos s.cfg (s.chan c n).running) (Machine.enterRun c n s) = .error f) :
    exec (.tick c) s = .fault f := by
  obtain ⟨k, hk⟩ := exists_succ_of_unitsLeft hdue.unitsLeft
  have hr : run c n s = .error f := by
    unfold run
    rw [if_neg (by simp [h.not_blocked]), hk, sliceLoop_fault hdue.enterRun hu]
  exact congrArg outcome (tick_first_fault h.selectable h.first hr)

end

/-! ## Overflows (R276, R307, R404) -/

theorem performUnit_costOverflow {c : CoreId} {n : ChanId} {pos : Int} {s : State}
    (h : 2 ^ 32 ≤ s.nextCost c n pos) : performUnit c n pos s = .error .costOverflow := by
  unfold performUnit State.addCost
  rw [if_pos h]

theorem performUnit_timestampOverflow {c : CoreId} {n : ChanId} {pos : Int} {s : State}
    (hcost : s.nextCost c n pos < 2 ^ 32)
    (h : 2 ^ 64 ≤ (s.ts.get c).toNat + s.nextCost c n pos * 2 ^ (s.cfg.costShift.get c).val) :
    performUnit c n pos s = .error .timestampOverflow := by
  have hover : 2 ^ 64 ≤ (s.ts.get c).toNat + scaledCost s.cfg c (s.nextCost c n pos) := h
  unfold performUnit State.addCost
  rw [if_neg (Nat.not_le.2 hcost), if_pos hover]

section
variable {cfg : Config} {c : CoreId} (h : CostsInRange cfg c)
include h

theorem costN_lt (a : Word) (w : UnitWidth) : costN cfg c a w < 2 ^ 31 := by
  obtain ⟨h16, -, h32, -⟩ := h (tableIndex cfg c a)
  cases w with
  | w16 => exact h16
  | w32 => exact h32

theorem costS_lt (a : Word) (w : UnitWidth) : costS cfg c a w < 2 ^ 31 := by
  obtain ⟨-, h16, -, h32⟩ := h (tableIndex cfg c a)
  cases w with
  | w16 => exact h16
  | w32 => exact h32

/-- A unit of two accesses below 2^31 cycles each fits in u32, with the same-bank penalty too (R276). -/
theorem unitCost_lt (w : UnitWidth) (src dst : Word) (pos : Int) : unitCost cfg c w src dst pos < 2 ^ 32 := by
  have hns := costN_lt h src w
  have hnd := costN_lt h dst w
  have hss := costS_lt h src w
  have hsd := costS_lt h dst w
  by_cases hbank : bankAt cfg c src = bankAt cfg c dst
  · rw [unitCost_of_bankAt_eq w pos hbank]
    split <;> omega
  · rw [unitCost_of_bankAt_ne w pos hbank]
    split <;> omega

end

/-- A unit's cycles are at most eight times its cost (R21). -/
theorem scaled_lt (cfg : Config) (c : CoreId) {cost : Nat} (h : cost < 2 ^ 32) :
    cost * 2 ^ (cfg.costShift.get c).val < 2 ^ 35 := by
  have hshift : 2 ^ (cfg.costShift.get c).val ≤ 2 ^ 3 :=
    Nat.pow_le_pow_right (by decide) (Nat.le_of_lt_succ (cfg.costShift.get c).isLt)
  calc cost * 2 ^ (cfg.costShift.get c).val ≤ cost * 2 ^ 3 := Nat.mul_le_mul_left _ hshift
    _ < 2 ^ 35 := by omega

/-- A unit below the budget of a core whose time is in range is performed. -/
theorem performUnit_in_range {c : CoreId} {s : State} (h : TimeInRange s c) (hb : s.ts.get c < s.target.get c)
    (n : ChanId) (pos : Int) : ∃ s1, performUnit c n pos s = .ok s1 := by
  obtain ⟨hcosts, htarget⟩ := h
  have hcost : s.nextCost c n pos < 2 ^ 32 := unitCost_lt hcosts _ _ _ _
  have hscaled : scaledCost s.cfg c (s.nextCost c n pos) < 2 ^ 35 := scaled_lt s.cfg c hcost
  rw [BitVec.lt_def] at hb
  exact ⟨_, performUnit_ok.2 ⟨hcost, by omega, rfl⟩⟩

theorem TimeInRange.of_frame {c : CoreId} {s t : State} (h : TimeInRange s c) (hf : SliceFrame c s t) :
    TimeInRange t c := by
  rw [TimeInRange, hf.cfg, hf.target]
  exact h

/-- A slice that starts below the budget completes: each unit starts below it. -/
theorem sliceLoop_in_range {c : CoreId} {n : ChanId} (k : Nat) {pos : Int} {s : State} (h : TimeInRange s c)
    (hb : s.ts.get c < s.target.get c) : ∃ r, sliceLoop c n k pos s = .ok r := by
  induction k generalizing pos s with
  | zero => exact ⟨_, rfl⟩
  | succ k ih =>
    by_cases hi : (s.chan c n).iterationCount = 0
    · exact ⟨_, sliceLoop_cap hi⟩
    cases hx : (s.chan c n).extStall with
    | true => exact ⟨_, sliceLoop_stall hi hx⟩
    | false =>
      cases hm : touchesMainRam s.cfg c (s.chan c n).curSrcAddr (s.chan c n).curDstAddr with
      | true => exact ⟨_, sliceLoop_mainRam hi hx hm⟩
      | false =>
        obtain ⟨s1, hu⟩ := performUnit_in_range h hb n pos
        rw [sliceLoop_unit ⟨hi, hx, hm⟩ hu]
        split
        next => exact ⟨_, rfl⟩
        next hlt => exact ih (h.of_frame (performUnit_frame hu)) (BitVec.not_le.1 hlt)

theorem run_in_range {c : CoreId} {s : State} (h : TimeInRange s c) (n : ChanId) : ∃ t, run c n s = .ok t := by
  cases hblocked : runBlocked c n s with
  | true => exact ⟨s, run_of_runBlocked hblocked⟩
  | false =>
    have hb : s.ts.get c < s.target.get c := by
      rw [Bool.eq_false_iff, ne_eq, runBlocked_iff, not_or] at hblocked
      exact BitVec.not_le.1 hblocked.1
    obtain ⟨⟨e, s1⟩, hl⟩ := sliceLoop_in_range (n := n) (s.chan c n).iterationCount.toNat
      (pos := firstPos s.cfg (s.chan c n).running) (s := enterRun c n s) h hb
    refine ⟨finishRun c n e s1, ?_⟩
    unfold run
    rw [if_neg (by simp [hblocked]), hl]

theorem tickFrom_in_range {c : CoreId} (l : List ChanId) {s : State} (h : TimeInRange s c) :
    ∃ t, tickFrom c l s = .ok t := by
  induction l generalizing s with
  | nil => exact ⟨s, rfl⟩
  | cons n l ih =>
    rw [tickFrom]
    split
    next =>
      obtain ⟨t, ht⟩ := run_in_range h n
      rw [ht]
      dsimp only
      split
      · exact ⟨t, rfl⟩
      · exact ih (h.of_frame (run_frame ht))
    next => exact ih h

/-! ## The calls of a Run (R328) -/

theorem unitsIn_append (l r : List Event) : unitsIn (l ++ r) = unitsIn l + unitsIn r := List.countP_append

theorem unitsIn_startSet (cfg : Config) (c : CoreId) (n : ChanId) (S : ChannelSet) :
    unitsIn (startSet cfg c n S).2 = 0 := by
  by_cases hr : (S.chan n).running = .idle
  · rw [startSet_calls_of_idle hr]; rfl
  · rw [startSet_running _ _ _ _ hr]; rfl

theorem unitsIn_triggerSet (cfg : Config) (c : CoreId) (ev : StartEvent) (S : ChannelSet) :
    unitsIn (triggerSet cfg c ev S).2 = 0 :=
  triggerSet_induction_calls (P := fun r => unitsIn r.2 = 0) rfl fun r n hr => by
    rw [unitsIn_append, hr, unitsIn_startSet]

theorem unitsIn_endSlice (cfg : Config) (c : CoreId) (n : ChanId) (e : SliceEnd) (S : ChannelSet) :
    unitsIn (endSlice cfg c n e S).2 = 0 := by
  have hcompleted : unitsIn (completedCalls c n S) = 0 := by
    unfold completedCalls
    split <;> rfl
  by_cases hr : (S.chan n).remainingCount = 0
  · rw [endSlice_complete _ _ _ _ _ hr]
    split
    · rw [unitsIn_append, hcompleted, unitsIn_startSet]
    · exact hcompleted
  · by_cases hi : (S.chan n).iterationCount = 0
    · rw [endSlice_boundary _ _ _ _ _ hi hr]
      dsimp only
      split <;> rfl
    · rw [endSlice_cut _ _ _ _ _ hi hr]; rfl

/-- A unit makes one MemWrite (R107). -/
theorem unitsIn_performUnit {c : CoreId} {n : ChanId} {pos : Int} {s t : State} (h : performUnit c n pos s = .ok t) :
    unitsIn t.events = unitsIn s.events + 1 := by
  obtain ⟨_, _, rfl⟩ := performUnit_ok.1 h
  refine triggers_induction (P := fun u => unitsIn u.events = unitsIn s.events + 1) _ ?_ fun u c' ev hu => ?_
  · unfold State.unitDone
    rw [onSetQuiet_events, moveUnit_events, unitsIn_append]
    rfl
  · rw [State.trigger, onSet_events, unitsIn_append, unitsIn_triggerSet, hu]

theorem unitsIn_sliceLoop {c : CoreId} {n : ChanId} {e : SliceEnd} {t : State} (k : Nat) {pos : Int} {s : State}
    (h : sliceLoop c n k pos s = .ok (e, t)) : unitsIn t.events ≤ unitsIn s.events + k := by
  induction k generalizing pos s with
  | zero => cases h; exact Nat.le_refl _
  | succ k ih =>
    rw [sliceLoop] at h
    split at h
    · cases h; exact Nat.le_add_right _ _
    · split at h
      · cases h; exact Nat.le_add_right _ _
      · split at h
        · cases h
          rw [onSetQuiet_events]
          exact Nat.le_add_right _ _
        · split at h
          · cases h
          next s1 hu =>
            have hone := unitsIn_performUnit hu
            split at h
            · cases h; omega
            · have := ih h
              omega

theorem unitsIn_finishRun (c : CoreId) (n : ChanId) (e : SliceEnd) (s : State) :
    unitsIn (finishRun c n e s).events = unitsIn s.events := by
  cases e with
  | mainRam =>
    show unitsIn (s.onSetQuiet c (leaveRun n)).events = _
    rw [onSetQuiet_events]
  | cap | budget | stall =>
    rw [finishRun_eq (by decide), onSet_events, unitsIn_append, unitsIn_endSlice, Nat.add_zero]

end Machine

open Machine

/-- Settles O33: either the scan finds no channel, or the Run it makes is blocked. -/
theorem tickWithNothingToDoChangesNothing : Obligations.TickWithNothingToDoChangesNothing := by
  rintro s c (hquiet | hspent)
  · exact congrArg outcome (tickFrom_quiet c allChans s fun m _ => hquiet m)
  · exact tick_of_spent hspent

/-- Settles O31: the first unit of the slice is the one that overflows. -/
theorem tickStopsOnOverflow : Obligations.TickStopsOnOverflow := by
  intro s c n h hdue
  have hcost := nextCost_enterRun s c n
  refine ⟨fun hover => h.tick_fault hdue (performUnit_costOverflow ?_),
    fun hfits hover => h.tick_fault hdue (performUnit_timestampOverflow ?_ ?_)⟩
  · rwa [hcost]
  · rwa [hcost]
  · rwa [hcost]

/-- Settles O32: every unit of a slice starts below the budget, and none adds 2^35 cycles. -/
theorem slicesCompleteInRange : Obligations.SlicesCompleteInRange := by
  intro s c h
  have htick : ∀ u : State, TimeInRange u c → ∃ t, exec (.tick c) u = .next t := fun u hu => by
    obtain ⟨t, ht⟩ := tickFrom_in_range allChans hu
    exact ⟨t, congrArg outcome ht⟩
  refine ⟨htick s h, ?_⟩
  cases hbusy : (s.set c).slot.busy with
  | true =>
    obtain ⟨t, ht⟩ := htick (s.onSetQuiet c commitSlot) h
    exact ⟨t, (if_pos hbusy).trans ht⟩
  | false => exact ⟨s, mramDoneWithEmptySlotDoesNothing s c hbusy⟩

/-- Settles O44: the loop's bound is the iteration count, and each turn performs at most one unit. -/
theorem runPerformsAtMostIterationCountUnits : Obligations.RunPerformsAtMostIterationCountUnits := by
  intro s t c n h
  unfold run at h
  split at h
  · cases h; exact Nat.le_add_right _ _
  · split at h
    · cases h
    next e s1 hl =>
      cases h
      rw [unitsIn_finishRun]
      have hloop := unitsIn_sliceLoop _ hl
      rwa [show (enterRun c n s).events = s.events from onSetQuiet_events s c _] at hloop

/-- Settles O46: the commit is MRAM_DONE's own part, and what is left is a TICK. -/
theorem mramDoneCommitsTheUnit : Obligations.MramDoneCommitsTheUnit := by
  intro s c n w hslot
  dsimp only
  have hbusy : (s.set c).slot.busy = true := by rw [hslot]
  have hdone : exec (.mramDone c) s = exec (.tick c) (s.putSet c
      { (s.set c).setChan n (commitUnit w (s.chan c n)) with slot := ⟨false, w, n⟩ }) := by
    refine (if_pos hbusy).trans ?_
    rw [onSetQuiet_eq_putSet, commitSlot_eq hslot]
    rfl
  exact ⟨hdone, fun hspent => hdone.trans (tick_of_spent hspent)⟩

/-- Settles O47. -/
theorem xstallSetsTheFlag : Obligations.XstallSetsTheFlag :=
  fun s c _ => congrArg Host.Outcome.next (onSetQuiet_eq_putSet s c _)

end Sys2Proof
end

section
/-!
# The ends of a slice (43_run_sequencer.md R305, R306, R314 to R321)

A TICK whose slice ends without a unit, in main RAM, or after one unit: at the budget, at the slice's boundary, or at
the transfer's completion. The unit is described by `UnitMoved` and `UnitDelivered`, the set by the laws of `endSlice`.
-/
namespace Sys2Proof
namespace Machine

/-! ## Sets and words as the end of a slice leaves them -/

@[simp] theorem putSet_set_same (s : State) (c : CoreId) (S : ChannelSet) : (s.putSet c S).set c = S :=
  PerCore.get_set_same _ _ _

@[simp] theorem putSet_chan_same (s : State) (c : CoreId) (S : ChannelSet) (n : ChanId) :
    (s.putSet c S).chan c n = S.chan n :=
  congrArg (ChannelSet.chan · n) (putSet_set_same s c S)

theorem selectable_congr {S T : ChannelSet} {m : ChanId} (h : T.chan m = S.chan m) :
    selectable T m = selectable S m := by
  rw [selectable, selectable, h]

/-- The wait bits after a resume: only the channel's own is cleared (R319, R409). -/
theorem resumed_bit (b : BitVec 4) (n : ChanId) {i : Nat} (hi : i < 4) :
    (b &&& ~~~(chanMask n)).getLsbD i = (decide (i ≠ n.toNat) && b.getLsbD i) := by
  rw [BitVec.getLsbD_and, BitVec.getLsbD_not, chanMask_bit n hi, decide_eq_true hi, Bool.true_and, Bool.and_comm,
    decide_not]

/-- The control word a completion leaves, bit by bit (R320). -/
theorem completedWord_bit (cw : Word) {i : Nat} (hi : i < 32) :
    (completedWord cw).getLsbD i = (cw.getLsbD i && (decide (i ≠ 31) || cw.getLsbD 25)) := by
  have hmask : ∀ j : Fin 32, (0x7FFFFFFF : Word).getLsbD j.val = decide (j.val ≠ 31) := by decide
  unfold completedWord
  rw [repeatBit_eq]
  split
  next hrep => rw [hrep, Bool.or_true, Bool.and_true]
  next hrep => rw [Bool.eq_false_iff.2 hrep, Bool.or_false, clearEnable, BitVec.getLsbD_and, hmask ⟨i, hi⟩]

/-- A slice performed and left again: `executing` is none as before, whatever became of the channel and the bits. -/
theorem leave_eq {S : ChannelSet} (he : S.executing = none) (n : ChanId) (ch : Channel) (b : BitVec 4) :
    { ({ S with executing := some n } : ChannelSet).setChan n ch with executing := none, stallBits := b }
      = { S.setChan n ch with stallBits := b } := by
  obtain ⟨chans, executing, bits, share, slot⟩ := S
  cases he
  rfl

/-- The same after a unit, which leaves its share table. -/
theorem leave_afterUnit_eq {S : ChannelSet} (he : S.executing = none) (cfg : Config) (c : CoreId) (n : ChanId)
    (w : UnitWidth) (ch : Channel) (b : BitVec 4) :
    { (afterUnit cfg c n w { S with executing := some n }).setChan n ch with executing := none, stallBits := b }
      = { S.setChan n ch with
          share := updateShare cfg c n (S.chan n).curSrcAddr (S.chan n).curDstAddr (S.chan n).srcInc (S.chan n).dstInc
            S.share
          stallBits := b } := by
  obtain ⟨chans, executing, bits, share, slot⟩ := S
  cases he
  simp only [afterUnit, setChan_setChan_same]
  rfl

/-- A committed unit's channel, when no stall was requested. -/
theorem commitUnit_unstalled {ch : Channel} (h : ch.extStall = false) (w : UnitWidth) (m : Marker) :
    { commitUnit w ch with running := m, extStall := false } = { commitUnit w ch with running := m } := by
  rw [← h]
  rfl

theorem afterUnit_chan_same (cfg : Config) (c : CoreId) (n : ChanId) (w : UnitWidth) (S : ChannelSet) :
    (afterUnit cfg c n w S).chan n = commitUnit w (S.chan n) := chan_setChan_same _ _ _

theorem afterUnit_chan_other (cfg : Config) (c : CoreId) {n m : ChanId} (h : m ≠ n) (w : UnitWidth)
    (S : ChannelSet) : (afterUnit cfg c n w S).chan m = S.chan m := chan_setChan_other _ _ h

/-! ## Slices that perform no unit -/

section
variable {s : State} {c : CoreId} {n : ChanId} (h : Enters s c n)
include h

theorem Enters.tick_of_interrupted {s1 : State} (hr : run c n s = .ok s1)
    (hm : (s1.chan c n).running = .interrupted) : exec (.tick c) s = .next s1 :=
  h.tick_of_running hr (by rw [hm]; decide)

/-- A Run whose loop ends before its first unit, but not in main RAM. -/
theorem Enters.run_without_unit {e : SliceEnd} (he : e ≠ .mainRam)
    (hl : sliceLoop c n (s.chan c n).iterationCount.toNat (firstPos s.cfg (s.chan c n).running) (enterRun c n s)
      = .ok (e, enterRun c n s)) :
    run c n s = .ok { s.putSet c (endSlice s.cfg c n e { s.set c with executing := some n }).1 with
      events := s.events ++ (endSlice s.cfg c n e { s.set c with executing := some n }).2 } := by
  rw [run_of_loop h hl, finishRun_eq he, onSet_enterRun]
  rfl

/-- A Run whose first unit has an end in main RAM (R306, R314, R315). -/
theorem Enters.run_mainRam (hi : (s.chan c n).iterationCount ≠ 0) (hx : (s.chan c n).extStall = false)
    (hm : touchesMainRam s.cfg c (s.chan c n).curSrcAddr (s.chan c n).curDstAddr = true) :
    run c n s = .ok (s.putSet c (leaveRun n (handOffOrWait s.cfg c n { s.set c with executing := some n }))) := by
  obtain ⟨k, hk⟩ := exists_succ_of_unitsLeft hi
  have hl : sliceLoop c n (s.chan c n).iterationCount.toNat (firstPos s.cfg (s.chan c n).running) (enterRun c n s)
      = .ok (.mainRam, (enterRun c n s).onSetQuiet c (handOffOrWait s.cfg c n)) := by
    rw [hk]
    exact sliceLoop_mainRam (by rwa [enterRun_chan]) (by rwa [enterRun_chan]) (by rwa [enterRun_chan, enterRun_cfg])
  rw [run_of_loop h hl]
  simp only [finishRun, onSetQuiet_eq_putSet, putSet_set_same, enterRun_eq]
  simp only [State.putSet, PerCore.set_set_same]

end

/-! ## The first unit of a slice -/

/-- The state after the first unit of channel (c, n)'s slice, before the start events of its write. -/
def State.firstUnit (s : State) (c : CoreId) (n : ChanId) : State :=
  (enterRun c n s).unitDone c n (firstPos s.cfg (s.chan c n).running)

section
variable (s : State) (c : CoreId) (n : ChanId)

@[simp] theorem firstUnit_cfg : (s.firstUnit c n).cfg = s.cfg := unitDone_cfg ..
@[simp] theorem firstUnit_target : (s.firstUnit c n).target = s.target := unitDone_target ..

theorem firstUnit_set : (s.firstUnit c n).set c =
    afterUnit s.cfg c n (widthOf (s.chan c n).controlWord) { s.set c with executing := some n } := by
  rw [State.firstUnit, unitDone_set_same, enterRun_set, enterRun_chan]
  rfl

theorem firstUnit_chan : (s.firstUnit c n).chan c n = commitUnit (widthOf (s.chan c n).controlWord) (s.chan c n) := by
  rw [State.firstUnit, unitDone_chan, enterRun_chan]

theorem enterRun_set_other {c' : CoreId} (hc : c' ≠ c) : (enterRun c n s).set c' = s.set c' :=
  onSetQuiet_set_other s c _ hc

end

/-- What a unit moved outside its core's set is moved whatever is then done to the set. -/
theorem UnitMoved.onSet {s u : State} {c : CoreId} {w : UnitWidth} {src dst : Word} {cost : Nat}
    (h : UnitMoved s u c w src dst cost) (f : ChannelSet → ChannelSet × List Event) :
    UnitMoved s (u.onSet c f) c w src dst cost :=
  ⟨h.time, h.otherTime, h.stored, h.kept, h.otherMem,
    fun c' hc => (onSet_set_other u c f hc).trans (h.otherSet c' hc), h.target, h.cfg, h.reply, h.refusedCommand,
    h.inbox, h.delivered⟩

theorem UnitDelivered.onSet {s u : State} {c : CoreId} {w : UnitWidth} {src dst : Word} {cost : Nat}
    (h : UnitDelivered s u c w src dst cost) (f : ChannelSet → ChannelSet × List Event) :
    UnitDelivered s (u.onSet c f) c w src dst cost :=
  ⟨h.time, h.otherTime, h.delivered, h.mem, fun c' hc => (onSet_set_other u c f hc).trans (h.otherSet c' hc),
    h.target, h.cfg, h.reply, h.refusedCommand, h.inbox⟩

section
variable {s : State} {c : CoreId} {n : ChanId}
  (ht : (s.ts.get c).toNat + firstCost s c n * 2 ^ (s.cfg.costShift.get c).val < 2 ^ 64)
include ht

/-- Everything outside core `c`'s set a plain first unit leaves. -/
theorem firstUnit_moved (hm : ∀ c, Memory.wf (s.mem.get c) = true)
    (hp : PlainUnit s (s.chan c n).curSrcAddr (s.chan c n).curDstAddr (widthOf (s.chan c n).controlWord)) :
    UnitMoved s (s.firstUnit c n) c (widthOf (s.chan c n).controlWord) (s.chan c n).curSrcAddr
      (s.chan c n).curDstAddr (firstCost s c n) := by
  have hmoved := unitDone_moved (s := enterRun c n s) (c := c) (n := n) (firstPos s.cfg (s.chan c n).running) hp
    (by rw [enterRun_chan]) (by rw [enterRun_chan]) (by rw [enterRun_chan]) hm (by rw [nextCost_enterRun]; exact ht)
  rw [nextCost_enterRun] at hmoved
  exact ⟨hmoved.time, hmoved.otherTime, hmoved.stored, hmoved.kept, hmoved.otherMem,
    fun c' hc => (hmoved.otherSet c' hc).trans (enterRun_set_other s c n hc), hmoved.target, hmoved.cfg, hmoved.reply,
    hmoved.refusedCommand, hmoved.inbox, hmoved.delivered⟩

/-- Everything outside core `c`'s set a first unit into the register window leaves (R456). -/
theorem firstUnit_delivered
    (hp : WindowUnit s (s.chan c n).curSrcAddr (s.chan c n).curDstAddr (widthOf (s.chan c n).controlWord)) :
    UnitDelivered s (s.firstUnit c n) c (widthOf (s.chan c n).controlWord) (s.chan c n).curSrcAddr
      (s.chan c n).curDstAddr (firstCost s c n) := by
  have hmoved := unitDone_window (s := enterRun c n s) (c := c) (n := n) (firstPos s.cfg (s.chan c n).running) hp
    (by rw [enterRun_chan]) (by rw [enterRun_chan]) (by rw [enterRun_chan]) (by rw [nextCost_enterRun]; exact ht)
  rw [nextCost_enterRun] at hmoved
  exact ⟨hmoved.time, hmoved.otherTime, hmoved.delivered, hmoved.mem,
    fun c' hc => (hmoved.otherSet c' hc).trans (enterRun_set_other s c n hc), hmoved.target, hmoved.cfg, hmoved.reply,
    hmoved.refusedCommand, hmoved.inbox⟩

/-- The first unit is performed, and its write starts nothing. -/
theorem performUnit_first (hreply : s.nextReply = ⟨none, []⟩) (hcost : firstCost s c n < 2 ^ 32) :
    performUnit c n (firstPos s.cfg (s.chan c n).running) (enterRun c n s) = .ok (s.firstUnit c n) :=
  performUnit_silent hreply (by rwa [nextCost_enterRun]) (by rw [nextCost_enterRun]; exact ht)

end

/-- The time after the first unit (R307). -/
theorem firstUnit_ts {s : State} {c : CoreId} {n : ChanId}
    (ht : (s.ts.get c).toNat + firstCost s c n * 2 ^ (s.cfg.costShift.get c).val < 2 ^ 64) :
    ((s.firstUnit c n).ts.get c).toNat
      = (s.ts.get c).toNat + firstCost s c n * 2 ^ (s.cfg.costShift.get c).val := by
  have htime := unitDone_time (s := enterRun c n s) (c := c) (n := n) (firstPos s.cfg (s.chan c n).running)
    (by rw [nextCost_enterRun]; exact ht)
  rw [nextCost_enterRun] at htime
  exact htime

/-- The calls of a first unit whose read is the memory's (R107). -/
theorem firstUnit_events {s : State} {c : CoreId} {n : ChanId}
    (hv : s.readValue c (s.chan c n).curSrcAddr (widthOf (s.chan c n).controlWord)
      = readUnit (s.mem.get c) (s.chan c n).curSrcAddr (widthOf (s.chan c n).controlWord)) :
    (s.firstUnit c n).events = s.events ++
      [.memRead c (s.chan c n).curSrcAddr (widthOf (s.chan c n).controlWord)
          (readUnit (s.mem.get c) (s.chan c n).curSrcAddr (widthOf (s.chan c n).controlWord)),
        .memWrite c (s.chan c n).curDstAddr (widthOf (s.chan c n).controlWord)
          (readUnit (s.mem.get c) (s.chan c n).curSrcAddr (widthOf (s.chan c n).controlWord))] := by
  rw [State.firstUnit, unitDone_events (s := enterRun c n s) _ hv (by rw [enterRun_chan]) (by rw [enterRun_chan])
    (by rw [enterRun_chan]), show (enterRun c n s).events = s.events from onSetQuiet_events s c _]
  rfl

section
variable {s : State} {c : CoreId} {n : ChanId} (h : Enters s c n) (hdue : UnitDue s c n)
  (hu : performUnit c n (firstPos s.cfg (s.chan c n).running) (enterRun c n s) = .ok (s.firstUnit c n))
include h hdue hu

/-- A Run that ends at the budget after its first unit. -/
theorem Enters.run_unit_budget (hb : (s.firstUnit c n).target.get c ≤ (s.firstUnit c n).ts.get c) :
    run c n s = .ok ((s.firstUnit c n).onSet c (endSlice s.cfg c n .budget)) := by
  obtain ⟨k, hk⟩ := exists_succ_of_unitsLeft hdue.unitsLeft
  have hl := sliceLoop_unit (k := k) hdue.enterRun hu
  rw [if_pos hb, ← hk] at hl
  rw [run_of_loop h hl, finishRun_eq (by decide), firstUnit_cfg]

/-- A Run whose first unit is the last of its slice. -/
theorem Enters.run_lastUnit (hlast : (s.chan c n).iterationCount = 1) :
    ∃ e, run c n s = .ok ((s.firstUnit c n).onSet c (endSlice s.cfg c n e)) := by
  obtain ⟨k, hk⟩ := exists_succ_of_unitsLeft hdue.unitsLeft
  have hzero : ((s.firstUnit c n).chan c n).iterationCount = 0 := by
    rw [firstUnit_chan]
    show (s.chan c n).iterationCount - 1 = 0
    rw [hlast]
    rfl
  obtain ⟨e, he, hl⟩ := sliceLoop_lastUnit (k := k) hdue.enterRun hu hzero
  rw [← hk] at hl
  exact ⟨e, by rw [run_of_loop h hl, finishRun_eq he, firstUnit_cfg]⟩

end

/-- Units are left in the transfer after one that is not its last (R311). -/
theorem sub_one_ne_zero {x : Word} (h : x ≠ 1) : x - 1 ≠ 0 := fun h0 => h (sub_eq_zero.1 h0)

end Machine

open Machine

/-- Settles O35: the loop ends in its stall exit before the first unit. -/
theorem stalledSlicePerformsNoUnit : Obligations.StalledSlicePerformsNoUnit := by
  intro s c n h hx hi hr
  obtain ⟨k, hk⟩ := exists_succ_of_unitsLeft hi
  have hrun := h.run_without_unit (e := .stall) (by decide) (by
    rw [hk]
    exact sliceLoop_stall (by rwa [enterRun_chan]) (by rwa [enterRun_chan]))
  rw [endSlice_cut _ _ _ _ { s.set c with executing := some n } hi hr, List.append_nil] at hrun
  refine h.tick_of_interrupted hrun ?_
  rw [putSet_chan_same]
  exact congrArg Channel.running (chan_setChan_same (s.set c) n _)

namespace Machine

/-- The set a slice left for main RAM leaves: all of it but `executing` and the stall request is the hand-off's or the
wait's (R314, R315, R318). -/
theorem leaveRun_handOffOrWait {cfg : Config} {c : CoreId} {n : ChanId} {S : ChannelSet} (he : S.executing = none)
    (hx : (S.chan n).extStall = false) :
    leaveRun n (handOffOrWait cfg c n { S with executing := some n }) =
      if S.slot.busy then S.setChan n { S.chan n with running := .interrupted }
      else
        { S.setChan n { S.chan n with running := .interrupted } with
          slot := ⟨true, widthOf (S.chan n).controlWord, n⟩
          share := shareClose (shareClose S.share (bankAt cfg c (S.chan n).curSrcAddr))
            (bankAt cfg c (S.chan n).curDstAddr) } := by
  have hstall : { S.chan n with running := Marker.interrupted, extStall := false }
      = { S.chan n with running := .interrupted } := by
    rw [← hx]
  unfold handOffOrWait
  dsimp only
  split
  next hb =>
    rw [leaveRun_setChan]
    show { ({ S with executing := some n } : ChannelSet).setChan n
      { S.chan n with running := Marker.interrupted, extStall := false } with executing := none } = _
    rw [hstall]
    exact leave_eq he n _ S.stallBits
  next hb =>
    obtain ⟨chans, executing, bits, share, slot⟩ := S
    cases he
    simp only [ChannelSet.chan] at hstall
    simp [leaveRun, ChannelSet.setChan, ChannelSet.chan, hstall]

end Machine

/-- Settles O36. -/
theorem mainRamUnitIsHandedOff : Obligations.MainRamUnitIsHandedOff := by
  intro s c n hinv h hi hx hram hfree
  have hm : touchesMainRam s.cfg c (s.chan c n).curSrcAddr (s.chan c n).curDstAddr = true := by
    rw [touchesMainRam, Bool.or_eq_true_iff, beq_iff_eq, beq_iff_eq]
    exact hram
  have hrun := h.run_mainRam hi hx hm
  rw [leaveRun_handOffOrWait (hinv.waiting c) hx, if_neg (by simp [hfree])] at hrun
  refine ⟨_, h.tick_of_interrupted hrun ?_, fun b => ?_⟩
  · rw [putSet_chan_same]
    exact congrArg Channel.running (chan_setChan_same (s.set c) n _)
  · have hclosed := updateShare_updated (cfg := s.cfg) (c := c) (n := n) (src := (s.chan c n).curSrcAddr)
      (dst := (s.chan c n).curDstAddr) (i := .fixed) (j := .fixed) (hinv.sets c).share_form b
    exact hclosed

/-- Settles O37. -/
theorem mainRamUnitWaitsForTheSlot : Obligations.MainRamUnitWaitsForTheSlot := by
  intro s c n hinv h hi hx hm hbusy
  have hrun := h.run_mainRam hi hx hm
  rw [leaveRun_handOffOrWait (hinv.waiting c) hx, if_pos hbusy] at hrun
  refine h.tick_of_interrupted hrun ?_
  rw [chan_putChan, if_pos ⟨rfl, rfl⟩]

/-- Settles O38: the slice is cut at the budget after its first unit, with units left in it and so in the transfer. -/
theorem tickPerformsOneUnit : Obligations.TickPerformsOneUnit := by
  rintro s c n w src dst hinv h hdue rfl rfl rfl hp hcost htime hbudget hmore
  have hreply : s.nextReply = ⟨none, []⟩ := hp.elim (·.1) (·.1)
  have hvalue := hp.elim (·.value c) (·.value c)
  have hbudget' : (s.firstUnit c n).target.get c ≤ (s.firstUnit c n).ts.get c := by
    rw [BitVec.le_def, firstUnit_target, firstUnit_ts htime]
    exact hbudget
  have hrun := h.run_unit_budget hdue (performUnit_first htime hreply hcost) hbudget'
  have hchan : ((s.firstUnit c n).set c).chan n
      = commitUnit (widthOf (s.chan c n).controlWord) (s.chan c n) := firstUnit_chan s c n
  have hleft : (((s.firstUnit c n).set c).chan n).iterationCount ≠ 0 := by
    rw [hchan]
    exact sub_one_ne_zero hmore
  have hleft' : (((s.firstUnit c n).set c).chan n).remainingCount ≠ 0 := by
    have hle : (s.chan c n).iterationCount ≤ (s.chan c n).remainingCount := ((hinv.sets c).chans n).iteration_le
    have hi := hdue.unitsLeft
    rw [hchan]
    refine sub_one_ne_zero fun h1 => ?_
    bv_omega
  have hend := endSlice_cut s.cfg c n .budget _ hleft hleft'
  have hset : ((s.firstUnit c n).onSet c (endSlice s.cfg c n .budget)).set c
      = { (s.set c).setChan n { commitUnit (widthOf (s.chan c n).controlWord) (s.chan c n) with
            running := .interrupted } with
          share := updateShare s.cfg c n (s.chan c n).curSrcAddr (s.chan c n).curDstAddr (s.chan c n).srcInc
            (s.chan c n).dstInc (s.set c).share } := by
    rw [onSet_set_same, hend, hchan, commitUnit_unstalled hdue.notStalled, firstUnit_set]
    exact leave_afterUnit_eq (hinv.waiting c) s.cfg c n _ _ (s.set c).stallBits
  refine ⟨_, _, h.tick_of_interrupted hrun ?_, fun hplain => (firstUnit_moved htime hinv.memory hplain).onSet _,
    fun hwindow => (firstUnit_delivered htime hwindow).onSet _, ?_, hset,
    updateShare_updated (hinv.sets c).share_form⟩
  · rw [State.chan, hset]
    exact congrArg Channel.running (chan_setChan_same (s.set c) n _)
  · rw [onSet_events, hend, List.append_nil, firstUnit_events hvalue]

namespace Machine

/-! ## Slices after which the scan goes on -/

/-- A Run that replaces its core's set and leaves its channel idle in it, the other channels as they were: TICK goes on
with the scan (R300). -/
theorem Enters.scan_of_idle {s : State} {c : CoreId} {n : ChanId} {T : ChannelSet} {u : State} (h : Enters s c n)
    (hr : run c n s = .ok u) (hu : u.set c = T) (hi : (T.chan n).running = .idle)
    (ho : ∀ m, m ≠ n → T.chan m = (s.set c).chan m) :
    ScanGoesOn s u c n ∧ (OthersQuiet s c n → exec (.tick c) s = .next u) := by
  subst hu
  exact h.scanGoesOn hr hi fun m hm => selectable_congr (ho m hm)

/-- The set and the calls of a slice boundary (R319). -/
def boundarySet (n : ChanId) (S : ChannelSet) : ChannelSet :=
  { S.setChan n { S.chan n with running := .idle, extStall := false } with
    executing := none
    stallBits := S.stallBits &&& ~~~(chanMask n) }

def boundaryCalls (c : CoreId) (n : ChanId) (S : ChannelSet) : List Event :=
  .resume c (1 <<< n.toNat) :: (if (S.chan n).startMode = .gxFifo then [.notifyFifo c] else [])

theorem endSlice_eq_boundary (cfg : Config) (c : CoreId) (n : ChanId) (e : SliceEnd) {S : ChannelSet}
    (hi : (S.chan n).iterationCount = 0) (hr : (S.chan n).remainingCount ≠ 0) :
    endSlice cfg c n e S = (boundarySet n S, boundaryCalls c n S) := by
  rw [endSlice_boundary _ _ _ _ _ hi hr, boundaryCalls, ← chanMask_eq_shift]
  rfl

theorem boundarySet_chan_same (n : ChanId) (S : ChannelSet) :
    (boundarySet n S).chan n = { S.chan n with running := .idle, extStall := false } := chan_setChan_same S n _

theorem boundarySet_chan_other {n m : ChanId} (h : m ≠ n) (S : ChannelSet) :
    (boundarySet n S).chan m = S.chan m := chan_setChan_other S _ h

theorem boundarySet_enter {S : ChannelSet} (he : S.executing = none) (n : ChanId) :
    boundarySet n { S with executing := some n } =
      { S.setChan n { S.chan n with running := .idle, extStall := false } with
        stallBits := S.stallBits &&& ~~~(chanMask n) } :=
  leave_eq he n _ _

/-- The set of a boundary right after a unit (R310, R311, R313, R319). -/
theorem boundarySet_afterUnit {S : ChannelSet} (he : S.executing = none) {n : ChanId}
    (hx : (S.chan n).extStall = false) (cfg : Config) (c : CoreId) (w : UnitWidth) :
    boundarySet n (afterUnit cfg c n w { S with executing := some n }) =
      { S.setChan n { commitUnit w (S.chan n) with running := .idle } with
        share := updateShare cfg c n (S.chan n).curSrcAddr (S.chan n).curDstAddr (S.chan n).srcInc (S.chan n).dstInc
          S.share
        stallBits := S.stallBits &&& ~~~(chanMask n) } := by
  rw [boundarySet, afterUnit_chan_same, ← commitUnit_unstalled hx]
  exact leave_afterUnit_eq he cfg c n w _ _

/-- The set of a completion, right after Run's entry, is the set before with the channel done (R320). -/
theorem completedSet_enter {S : ChannelSet} (he : S.executing = none) (n : ChanId) :
    completedSet n { S with executing := some n } =
      { S.setChan n { S.chan n with
          controlWord := completedWord (S.chan n).controlWord
          inProgress := false
          running := .idle
          queued := false
          extStall := false } with
        stallBits := S.stallBits &&& ~~~(chanMask n) } :=
  leave_eq he n _ _

/-- A channel whose transfer has completed (R320). -/
def completedChannel (ch : Channel) : Channel :=
  { ch with
    controlWord := completedWord ch.controlWord
    inProgress := false
    running := .idle
    queued := false
    extStall := false }

theorem completedSet_chan_same (n : ChanId) (S : ChannelSet) :
    (completedSet n S).chan n = completedChannel (S.chan n) := chan_setChan_same S n _

theorem completedSet_running (n : ChanId) (S : ChannelSet) : ((completedSet n S).chan n).running = .idle := by
  rw [completedSet_chan_same]
  rfl

/-- The completion resumes the CPU from the channel's wait (R320, R409). -/
theorem completedSet_stallBit (n : ChanId) (S : ChannelSet) :
    (completedSet n S).stallBits.getLsbD n.toNat = false := by
  refine (resumed_bit S.stallBits n (by cases n <;> decide)).trans ?_
  rw [decide_eq_false (not_not.2 rfl), Bool.false_and]

theorem completedSet_chan_other {n m : ChanId} (h : m ≠ n) (S : ChannelSet) :
    (completedSet n S).chan m = S.chan m := chan_setChan_other S _ h

/-- The calls of a completion, by the bits of the control word it leaves (R320). -/
theorem completedCalls_eq (c : CoreId) (n : ChanId) (S : ChannelSet) :
    completedCalls c n S = (if (completedWord (S.chan n).controlWord).getLsbD 30 = true then [Event.raiseIrq c n]
      else []) ++ [.resume c (1 <<< n.toNat)] := by
  rw [completedCalls, irqEnBit_eq, chanMask_eq_shift]

/-- A completion without a queued request ends the transfer (R320, R321). -/
theorem endSlice_complete_unqueued (cfg : Config) (c : CoreId) (n : ChanId) (e : SliceEnd) {S : ChannelSet}
    (hr : (S.chan n).remainingCount = 0) (hq : (S.chan n).queued = false) :
    endSlice cfg c n e S = (completedSet n S, completedCalls c n S) := by
  rw [endSlice_complete _ _ _ _ _ hr, if_neg (by simp [restarts, hq])]

/-- A Start of an idle channel leaves it Running (R239). -/
theorem startSet_running_of_idle {cfg : Config} {c : CoreId} {n : ChanId} {S : ChannelSet}
    (h : (S.chan n).running = .idle) : ((startSet cfg c n S).1.chan n).running ≠ .idle := by
  rw [startSet_chan_same_of_idle h]
  exact initialMarker_ne_idle _ _ _ _

/-- The other channels after a first unit are as they were. -/
theorem firstUnit_chan_other (s : State) (c : CoreId) {n m : ChanId} (h : m ≠ n) :
    ((s.firstUnit c n).set c).chan m = (s.set c).chan m := by
  rw [firstUnit_set, afterUnit_chan_other _ _ h]
  rfl

end Machine

/-- Settles O40: with no unit left in the slice the loop performs none; its last unit leaves none. Either way the steps
after the loop are those of R319. -/
theorem sliceBoundaryResumesTheCpu : Obligations.SliceBoundaryResumesTheCpu := by
  intro s c n hinv h
  dsimp only
  refine ⟨fun hi hr => ?_, ?_⟩
  · have hrun := h.run_without_unit (e := .cap) (by decide) (sliceLoop_cap (by rwa [enterRun_chan]))
    rw [endSlice_eq_boundary (S := { s.set c with executing := some n }) _ _ _ _ hi hr] at hrun
    dsimp only at hrun
    obtain ⟨hscan, htick⟩ := h.scan_of_idle hrun (putSet_set_same s c _) (by rw [boundarySet_chan_same])
      fun m hm => boundarySet_chan_other hm _
    rw [boundarySet_enter (hinv.waiting c)] at hscan htick
    exact ⟨_, hscan, htick, fun i hi => resumed_bit _ n hi⟩
  · rintro w src dst hdue rfl rfl rfl hp hcost htime hlast hmore
    obtain ⟨e, hrun⟩ := h.run_lastUnit hdue (performUnit_first htime hp.1 hcost) hlast
    have hchan : ((s.firstUnit c n).set c).chan n
        = commitUnit (widthOf (s.chan c n).controlWord) (s.chan c n) := firstUnit_chan s c n
    have hzero : (s.chan c n).iterationCount - 1 = 0 := by rw [hlast]; rfl
    have hend := endSlice_eq_boundary s.cfg c n e (S := (s.firstUnit c n).set c) (by rw [hchan]; exact hzero)
      (by rw [hchan]; exact sub_one_ne_zero hmore)
    have hset : ((s.firstUnit c n).onSet c (endSlice s.cfg c n e)).set c
        = boundarySet n ((s.firstUnit c n).set c) := by rw [onSet_set_same, hend]
    obtain ⟨hscan, htick⟩ := h.scan_of_idle hrun hset (by rw [boundarySet_chan_same])
      fun m hm => (boundarySet_chan_other hm _).trans (firstUnit_chan_other s c hm)
    refine ⟨_, _, _, hscan, htick, (firstUnit_moved htime hinv.memory hp).onSet _, ?_, ?_,
      updateShare_updated (hinv.sets c).share_form, fun i hi => resumed_bit _ n hi⟩
    · rw [onSet_events, hend, firstUnit_events (hp.value c), boundaryCalls, hchan]
      rfl
    · rw [hset, firstUnit_set, boundarySet_afterUnit (hinv.waiting c) hdue.notStalled, ← hzero]
      rfl

/-- Settles O41: with no unit left in the transfer the loop performs none, and the steps after it are R320's; R321's
restart leaves the channel Running. -/
theorem completionEndsTheTransfer : Obligations.CompletionEndsTheTransfer := by
  intro s c n hinv h hi hr
  have henabled : (s.chan c n).controlWord.getLsbD 31 = true := (selectable_iff.1 h.selectable).2
  have hrestarts := restarts_completed s.cfg henabled
  have hrun := h.run_without_unit (e := .cap) (by decide) (sliceLoop_cap (by rwa [enterRun_chan]))
  have hend := endSlice_complete s.cfg c n .cap { s.set c with executing := some n } hr
  refine ⟨completedWord (s.chan c n).controlWord, (s.set c).stallBits &&& ~~~(chanMask n), ?_⟩
  dsimp only
  refine ⟨fun i hi => completedWord_bit _ hi, fun i hi => resumed_bit _ n hi, fun hno => ?_, fun hyes => ?_⟩
  · rw [hend.trans (if_neg (mt hrestarts.1 hno)), completedCalls_eq] at hrun
    dsimp only at hrun
    have hscan := h.scan_of_idle hrun (putSet_set_same s c _) (completedSet_running n _)
      fun m hm => completedSet_chan_other hm _
    rw [completedSet_enter (hinv.waiting c)] at hscan
    exact hscan
  · rw [hend.trans (if_pos (hrestarts.2 hyes)), completedCalls_eq] at hrun
    dsimp only at hrun
    have htick := h.tick_of_running hrun (by
      rw [State.chan, show ∀ evs, ({ s.putSet c _ with events := evs } : State).set c = _ from
        fun _ => putSet_set_same s c _]
      exact startSet_running_of_idle (completedSet_running n _))
    rw [completedSet_enter (hinv.waiting c), ← List.append_assoc] at htick
    exact htick

/-- Settles O42: the last unit of the slice is the last of the transfer, and R320 follows it. -/
theorem lastUnitCompletesTheTransfer : Obligations.LastUnitCompletesTheTransfer := by
  rintro s c n w src dst hinv h hdue rfl rfl rfl hp hcost htime hlast hq
  have hle : (s.chan c n).iterationCount ≤ (s.chan c n).remainingCount := ((hinv.sets c).chans n).iteration_le
  have hone : (s.chan c n).iterationCount = 1 := by
    have hi := hdue.unitsLeft
    bv_omega
  have henabled : (s.chan c n).controlWord.getLsbD 31 = true := (selectable_iff.1 h.selectable).2
  obtain ⟨e, hrun⟩ := h.run_lastUnit hdue (performUnit_first htime hp.1 hcost) hone
  have hchan : ((s.firstUnit c n).set c).chan n
      = commitUnit (widthOf (s.chan c n).controlWord) (s.chan c n) := firstUnit_chan s c n
  have hzero : (s.chan c n).remainingCount - 1 = 0 := by rw [hlast]; rfl
  have hend := endSlice_complete_unqueued s.cfg c n e (S := (s.firstUnit c n).set c) (by rw [hchan]; exact hzero)
    (by rw [hchan]; exact hq)
  have hset : ((s.firstUnit c n).onSet c (endSlice s.cfg c n e)).set c
      = completedSet n ((s.firstUnit c n).set c) := by rw [onSet_set_same, hend]
  have hdone : ((s.firstUnit c n).onSet c (endSlice s.cfg c n e)).chan c n
      = completedChannel (commitUnit (widthOf (s.chan c n).controlWord) (s.chan c n)) := by
    rw [State.chan, hset, completedSet_chan_same, hchan]
  have hothers : ∀ m, m ≠ n → (completedSet n ((s.firstUnit c n).set c)).chan m = (s.set c).chan m :=
    fun m hm => (completedSet_chan_other hm _).trans (firstUnit_chan_other s c hm)
  obtain ⟨hscan, htick⟩ := h.scan_of_idle hrun hset (completedSet_running n _) hothers
  refine ⟨_, hscan, htick, (firstUnit_moved htime hinv.memory hp).onSet _, ?_, ?_, ?_, ?_, fun m hm => ?_, ?_, ?_⟩
  · rw [hdone]; exact hzero
  · rw [hdone]; rfl
  · rw [hdone]; rfl
  · rw [hset]
    exact completedSet_stallBit n _
  · rw [State.chan, hset]
    exact hothers m hm
  · rw [hdone]
    refine (completedWord_bit _ (by decide)).trans ?_
    simp [commitUnit, henabled]
  · rw [onSet_events, hend, firstUnit_events (hp.value c), completedCalls_eq, hchan,
      completedWord_bit _ (by decide : 30 < 32)]
    simp [commitUnit]

end Sys2Proof
end

section
/-!
# A whole transfer in one TICK (43_run_sequencer.md R309 to R311, R320)

The loop of a slice by induction on the units left: its first unit moves the first bytes, and the units left are a
transfer between the two regions without them.
-/
namespace Sys2Proof
namespace Machine

/-- The channel's slice, to be performed from `s`, is `k` plain units between two regions that do not overlap, all
within the budget. -/
structure Copying (c : CoreId) (n : ChanId) (w : UnitWidth) (src dst k : Nat) (s : State) : Prop where
  width : widthOf (s.chan c n).controlWord = w
  srcInc : (s.chan c n).srcInc = .up
  dstInc : (s.chan c n).dstInc = .up
  notStalled : (s.chan c n).extStall = false
  notQueued : (s.chan c n).queued = false
  curSrc : (s.chan c n).curSrcAddr = BitVec.ofNat 32 src
  curDst : (s.chan c n).curDstAddr = BitVec.ofNat 32 dst
  iteration : (s.chan c n).iterationCount = BitVec.ofNat 32 k
  remaining : (s.chan c n).remainingCount = BitVec.ofNat 32 k
  silent : s.busReplies = []
  costs : CostsInRange s.cfg c
  memory : ∀ c, Memory.wf (s.mem.get c) = true
  srcAligned : src % w.bytes = 0
  dstAligned : dst % w.bytes = 0
  srcTop : src + k * w.bytes ≤ 2 ^ 32
  dstTop : dst + k * w.bytes ≤ 2 ^ 32
  apart : src + k * w.bytes ≤ dst ∨ dst + k * w.bytes ≤ src
  plain : ∀ j : Nat, j < k → windowSlot s.cfg (BitVec.ofNat 32 (src + j * w.bytes)) = none
    ∧ windowSlot s.cfg (BitVec.ofNat 32 (dst + j * w.bytes)) = none
    ∧ touchesMainRam s.cfg c (BitVec.ofNat 32 (src + j * w.bytes)) (BitVec.ofNat 32 (dst + j * w.bytes)) = false
  budget : (s.ts.get c).toNat + k * 2 ^ 35 < (s.target.get c).toNat

/-- What the `k` units left, from `s` to `t`. -/
structure Copied (c : CoreId) (n : ChanId) (w : UnitWidth) (src dst k : Nat) (s t : State) : Prop where
  copied : ∀ j : Nat, j < k * w.bytes →
    readByte (t.mem.get c) (BitVec.ofNat 32 (dst + j)) = readByte (s.mem.get c) (BitVec.ofNat 32 (src + j))
  kept : ∀ a : Word, (a.toNat < dst ∨ dst + k * w.bytes ≤ a.toNat) →
    readByte (t.mem.get c) a = readByte (s.mem.get c) a
  otherCore : ∀ c', c' ≠ c → t.mem.get c' = s.mem.get c' ∧ t.set c' = s.set c'
  otherChan : ∀ m, m ≠ n → (t.set c).chan m = (s.set c).chan m
  done : (t.chan c n).remainingCount = 0
  notQueued : (t.chan c n).queued = false

theorem two_le_bytes (w : UnitWidth) : 2 ≤ w.bytes := by cases w <;> decide

/-- The address of a byte below the top of the bus space. -/
theorem toNat_addr {a x : Nat} (h : a + x < 2 ^ 32) : (BitVec.ofNat 32 a + BitVec.ofNat 32 x).toNat = a + x := by
  rw [← BitVec.ofNat_add, BitVec.toNat_ofNat, Nat.mod_eq_of_lt h]

theorem eq_ofNat_of_toNat {x : Word} {k : Nat} (h : x.toNat = k) : x = BitVec.ofNat 32 k := by
  rw [← h, BitVec.ofNat_toNat, BitVec.setWidth_eq]

theorem unitAligned_ofNat {a : Nat} {w : UnitWidth} (h : a < 2 ^ 32) (ha : a % w.bytes = 0) :
    unitAligned (BitVec.ofNat 32 a) w = true := by
  rw [unitAligned, show (BitVec.ofNat 32 a).toNat = a from Nat.mod_eq_of_lt h, ha]
  rfl

theorem ofNat_succ_sub_one (k : Nat) : BitVec.ofNat 32 (k + 1) - 1 = BitVec.ofNat 32 k := by
  rw [BitVec.ofNat_add]
  exact add_sub_cancel_right _ _

section
variable {c : CoreId} {n : ChanId} {w : UnitWidth} {src dst k : Nat} {s : State}

theorem Copying.enterRun (h : Copying c n w src dst k s) : Copying c n w src dst k (enterRun c n s) := by
  have hchan := enterRun_chan c n n s
  exact { h with
    width := by rw [hchan]; exact h.width
    srcInc := by rw [hchan]; exact h.srcInc
    dstInc := by rw [hchan]; exact h.dstInc
    notStalled := by rw [hchan]; exact h.notStalled
    notQueued := by rw [hchan]; exact h.notQueued
    curSrc := by rw [hchan]; exact h.curSrc
    curDst := by rw [hchan]; exact h.curDst
    iteration := by rw [hchan]; exact h.iteration
    remaining := by rw [hchan]; exact h.remaining }

/-- No unit left: nothing is to be copied. -/
theorem Copying.copied_zero (h : Copying c n w src dst 0 s) : Copied c n w src dst 0 s s where
  copied j hj := absurd hj (by omega)
  kept _ _ := rfl
  otherCore _ _ := ⟨rfl, rfl⟩
  otherChan _ _ := rfl
  done := h.remaining
  notQueued := h.notQueued

variable (h : Copying c n w src dst (k + 1) s)
include h

theorem Copying.nextReply : s.nextReply = ⟨none, []⟩ := by
  rw [State.nextReply, h.silent]
  rfl

theorem Copying.src_lt : src + w.bytes ≤ 2 ^ 32 := by
  have htop := h.srcTop
  rw [Nat.succ_mul] at htop
  omega

theorem Copying.dst_lt : dst + w.bytes ≤ 2 ^ 32 := by
  have htop := h.dstTop
  rw [Nat.succ_mul] at htop
  omega

theorem Copying.unitDue : UnitDue s c n where
  unitsLeft := by
    have htop := h.srcTop
    have hk : (k + 1) * 2 ≤ (k + 1) * w.bytes := Nat.mul_le_mul_left _ (two_le_bytes w)
    rw [h.iteration]
    intro h0
    have hzero : (k + 1) % 2 ^ 32 = 0 := (BitVec.toNat_ofNat _ _).symm.trans (congrArg BitVec.toNat h0)
    omega
  notStalled := h.notStalled
  notMainRam := by
    obtain ⟨-, -, hram⟩ := h.plain 0 (Nat.succ_pos k)
    rw [h.curSrc, h.curDst]
    simpa using hram

theorem Copying.plainUnit : PlainUnit s (BitVec.ofNat 32 src) (BitVec.ofNat 32 dst) w := by
  obtain ⟨hsrc, hdst, -⟩ := h.plain 0 (Nat.succ_pos k)
  have hbytes := two_le_bytes w
  have hs := h.src_lt
  have hd := h.dst_lt
  exact ⟨h.nextReply, unitAligned_ofNat (by omega) h.srcAligned, unitAligned_ofNat (by omega) h.dstAligned,
    by simpa using hsrc, by simpa using hdst⟩

variable (pos : Int)

/-- The unit's cycles are below 2^35, and the budget has room for them (R276, R404). -/
theorem Copying.cost_in_range : s.nextCost c n pos < 2 ^ 32
    ∧ s.nextCost c n pos * 2 ^ (s.cfg.costShift.get c).val < 2 ^ 35
    ∧ (s.ts.get c).toNat + s.nextCost c n pos * 2 ^ (s.cfg.costShift.get c).val < 2 ^ 64 := by
  have hcost : s.nextCost c n pos < 2 ^ 32 := unitCost_lt h.costs _ _ _ _
  have hscaled := scaled_lt s.cfg c hcost
  have hbudget := h.budget
  exact ⟨hcost, hscaled, by omega⟩

theorem Copying.performUnit : performUnit c n pos s = .ok (s.unitDone c n pos) := by
  obtain ⟨hcost, -, htime⟩ := h.cost_in_range pos
  exact performUnit_silent h.nextReply hcost htime

theorem Copying.unitDone_moved : UnitMoved s (s.unitDone c n pos) c w (BitVec.ofNat 32 src) (BitVec.ofNat 32 dst)
    (s.nextCost c n pos) := by
  obtain ⟨-, -, htime⟩ := h.cost_in_range pos
  exact Machine.unitDone_moved pos h.plainUnit h.width h.curSrc h.curDst h.memory htime

/-- After the first unit, the units left copy the two regions without it. -/
theorem Copying.unitDone : Copying c n w (src + w.bytes) (dst + w.bytes) k (s.unitDone c n pos) := by
  have hchan := unitDone_chan s c n pos
  have hsrcTop := h.srcTop
  have hdstTop := h.dstTop
  have hapart := h.apart
  have hbudget := h.budget
  obtain ⟨-, hscaled, -⟩ := h.cost_in_range pos
  have htime := (h.unitDone_moved pos).time
  rw [Nat.succ_mul] at hsrcTop hdstTop hapart
  constructor
  case width => rw [hchan]; exact h.width
  case srcInc => rw [hchan]; exact h.srcInc
  case dstInc => rw [hchan]; exact h.dstInc
  case notStalled => rw [hchan]; exact h.notStalled
  case notQueued => rw [hchan]; exact h.notQueued
  case curSrc => simp only [hchan, commitUnit, h.width, h.curSrc, h.srcInc, advance, BitVec.ofNat_add]
  case curDst => simp only [hchan, commitUnit, h.width, h.curDst, h.dstInc, advance, BitVec.ofNat_add]
  case iteration => rw [hchan, commitUnit, h.iteration]; exact ofNat_succ_sub_one k
  case remaining => rw [hchan, commitUnit, h.remaining]; exact ofNat_succ_sub_one k
  case silent =>
    rw [State.unitDone, onSetQuiet_busReplies, moveUnit_busReplies]
    exact congrArg List.tail h.silent
  case costs => rw [unitDone_cfg]; exact h.costs
  case memory => exact unitDone_wf s c n pos h.memory
  case srcAligned => rw [Nat.add_mod_right]; exact h.srcAligned
  case dstAligned => rw [Nat.add_mod_right]; exact h.dstAligned
  case srcTop => omega
  case dstTop => omega
  case apart => omega
  case plain =>
    intro j hj
    have hnext := h.plain (j + 1) (Nat.succ_lt_succ hj)
    rw [Nat.succ_mul, Nat.add_comm (j * w.bytes), ← Nat.add_assoc, ← Nat.add_assoc] at hnext
    rwa [unitDone_cfg]
  case budget => rw [htime, unitDone_target]; omega

/-- The slice goes on after the unit: time stays below the budget. -/
theorem Copying.budget_left : ¬ (s.unitDone c n pos).target.get c ≤ (s.unitDone c n pos).ts.get c := by
  have hbudget := (h.unitDone pos).budget
  rw [BitVec.le_def]
  omega

/-- The first unit and the units after it, together. -/
theorem Copying.copied_succ {t : State}
    (ht : Copied c n w (src + w.bytes) (dst + w.bytes) k (s.unitDone c n pos) t) :
    Copied c n w src dst (k + 1) s t := by
  have hmoved := h.unitDone_moved pos
  have hsrcTop := h.srcTop
  have hdstTop := h.dstTop
  have hapart := h.apart
  have hdst : ∀ i, i < w.bytes → (BitVec.ofNat 32 dst + BitVec.ofNat 32 i).toNat = dst + i :=
    fun i hi => toNat_addr (Nat.lt_of_lt_of_le (Nat.add_lt_add_left hi dst) h.dst_lt)
  have hkept : ∀ a : Word, (a.toNat < dst ∨ dst + w.bytes ≤ a.toNat) →
      readByte ((s.unitDone c n pos).mem.get c) a = readByte (s.mem.get c) a := fun a ha =>
    hmoved.kept a fun i hi hai => by
      have := hdst i hi
      rw [← hai] at this
      omega
  rw [Nat.succ_mul] at hsrcTop hdstTop hapart
  constructor
  case copied =>
    intro j hj
    rw [Nat.succ_mul] at hj
    by_cases hfirst : j < w.bytes
    · rw [BitVec.ofNat_add, BitVec.ofNat_add, ht.kept _ (.inl (by rw [hdst j hfirst]; omega))]
      exact hmoved.stored j hfirst
    · obtain ⟨i, rfl⟩ := Nat.exists_eq_add_of_le (Nat.not_lt.1 hfirst)
      have hafter := ht.copied i (by omega)
      rw [Nat.add_assoc, Nat.add_assoc] at hafter
      refine hafter.trans (hkept _ ?_)
      rw [BitVec.toNat_ofNat]
      omega
  case kept =>
    intro a ha
    rw [Nat.succ_mul] at ha
    rw [ht.kept a (by omega), hkept a (by omega)]
  case otherCore =>
    intro c' hc
    obtain ⟨hmem, hset⟩ := ht.otherCore c' hc
    exact ⟨hmem.trans (hmoved.otherMem c' hc), hset.trans (hmoved.otherSet c' hc)⟩
  case otherChan =>
    intro m hm
    rw [ht.otherChan m hm, unitDone_set_same]
    exact afterUnit_chan_other s.cfg c hm _ _
  case done => exact ht.done
  case notQueued => exact ht.notQueued

end

/-- The loop performs every unit and ends at the slice's cap. -/
theorem Copying.sliceLoop {c : CoreId} {n : ChanId} {w : UnitWidth} {src dst : Nat} (k : Nat) {s : State}
    (h : Copying c n w src dst k s) (pos : Int) :
    ∃ t, sliceLoop c n k pos s = .ok (.cap, t) ∧ Copied c n w src dst k s t := by
  induction k generalizing src dst s pos with
  | zero => exact ⟨s, rfl, h.copied_zero⟩
  | succ k ih =>
    obtain ⟨t, hloop, ht⟩ := ih (h.unitDone pos) (pos - 1)
    refine ⟨t, ?_, h.copied_succ pos ht⟩
    rw [sliceLoop_unit h.unitDue (h.performUnit pos), if_neg (h.budget_left pos), hloop]

end Machine

open Machine

/-- Settles O43: the loop of the slice copies, and the steps after it are R320's. -/
theorem transferCopiesMemory : Obligations.TransferCopiesMemory := by
  rintro s c n w src dst k hinv h hquiet hcosts hsilent hw hsi hdi hx hq rfl rfl hi hr hsa hda hst hdt hap hplain hb
  have hcopying : Copying c n w (s.chan c n).curSrcAddr.toNat (s.chan c n).curDstAddr.toNat k s :=
    ⟨hw, hsi, hdi, hx, hq, eq_ofNat_of_toNat rfl, eq_ofNat_of_toNat rfl, eq_ofNat_of_toNat hi, eq_ofNat_of_toNat hr,
      hsilent, hcosts, hinv.memory, hsa, hda, hst, hdt, hap, hplain, hb⟩
  obtain ⟨u, hloop, hu⟩ := hcopying.enterRun.sliceLoop k (firstPos s.cfg (s.chan c n).running)
  rw [← hi] at hloop
  have hrun := run_of_loop h hloop
  rw [finishRun_eq (by decide)] at hrun
  have hend := endSlice_complete_unqueued u.cfg c n .cap hu.done hu.notQueued
  have hset : (u.onSet c (endSlice u.cfg c n .cap)).set c = completedSet n (u.set c) := by rw [onSet_set_same, hend]
  have hdone : (u.onSet c (endSlice u.cfg c n .cap)).chan c n = completedChannel (u.chan c n) := by
    rw [State.chan, hset, completedSet_chan_same]
    rfl
  obtain ⟨-, htick⟩ := h.scan_of_idle hrun hset (completedSet_running n _) fun m hm => by
    rw [completedSet_chan_other hm, hu.otherChan m hm, enterRun_set]
    rfl
  refine ⟨_, htick hquiet, hu.copied, hu.kept, fun c' hc => ?_, ?_, ?_, ?_, ?_⟩
  · obtain ⟨hmem, hother⟩ := hu.otherCore c' hc
    exact ⟨hmem, (onSet_set_other u c _ hc).trans (hother.trans (enterRun_set_other s c n hc))⟩
  · rw [hdone]; exact hu.done
  · rw [hdone]; rfl
  · rw [hdone]; rfl
  · rw [hset]
    exact completedSet_stallBit n _

end Sys2Proof
end
